-- ==== Sys2Proof/Word.lean ====
section
/-! DEFINITION. The word types of the block: a register is 32 bits wide (R25), a byte 8 bits (R26), an address of the host
address space 16 bits (R60). -/

namespace Sys2Proof

/-- The value of a register, a command word, or a value a host read returns (R25). -/
abbrev Word := BitVec 32

/-- One byte (R26). -/
abbrev Byte := BitVec 8

/-- A byte address of the host address space (R60). -/
abbrev Addr := BitVec 16

end Sys2Proof
end

