-- ==== Sys2Proof/Machine/Poly.lean ====
section
/-! DEFINITION. Polynomials over GF(2) and GF(2^m) and bit sequences (R25 to R27, R110, R142): the mathematics the commands
and the parameters' constraints are written in. A polynomial over GF(2) is a natural number whose bit k is the
coefficient of x^k; a polynomial over GF(2^m) is a list of field elements. -/

namespace Sys2Proof.Gf

/-- `deg(p)`: the index of the highest set bit of p (R27). -/
def deg (p : Nat) : Nat := p.log2

/-- The bits of `v` below index `n`, highest index first. -/
def bitsMSB (n v : Nat) : List Bool := (List.range n).reverse.map v.testBit

/-- The number whose binary digits, highest first, are `bs`. -/
def ofBitsMSB (bs : List Bool) : Nat := bs.foldl (fun v b => 2 * v + b.toNat) 0

/-- Carry-less multiplication: the XOR of `a << k` over the set bits k of b (R27). -/
def clmul (a b : Nat) : Nat :=
  (List.range (b.log2 + 1)).foldl (fun acc k => if b.testBit k then acc ^^^ (a <<< k) else acc) 0

/-- One step of polynomial long division over GF(2): the remainder r takes in the dividend's next lower coefficient, and p
is subtracted once where the degree has reached that of p. -/
def pmodStep (p r : Nat) (b : Bool) : Nat :=
  let t := (r <<< 1) ^^^ b.toNat
  if t.testBit (deg p) then t ^^^ p else t

/-- `pmod(a, p)`: the remainder of polynomial division of a by p over GF(2) (R27), by long division from a's highest
coefficient down. -/
def pmod (a p : Nat) : Nat := (bitsMSB (a.log2 + 1) a).foldl (pmodStep p) 0

/-- A Galois field as a command's FLD selects it (R88): its width m and its polynomial p, with deg(p) = m. -/
structure GField where
  m : Nat
  p : Nat
deriving DecidableEq, Repr

/-- The number of elements, 2^m: an element is an integer below it (R110). -/
def GField.size (F : GField) : Nat := 2 ^ F.m

/-- The product of two elements: `pmod(clmul(a, b), p)` (R110, R113). -/
def gfMul (F : GField) (a b : Nat) : Nat := pmod (clmul a b) F.p

/-- a^n as the definition of R119 writes it: r starts at 1 and is multiplied by a, n times. -/
def gfPowLoop (F : GField) (a : Nat) : Nat → Nat
  | 0 => 1
  | n + 1 => gfMul F (gfPowLoop F a n) a

/-- a^n by square-and-multiply from n's highest bit down: "The loop is the definition, not the timing: the result equals
square-and-multiply" (R119); equal to `gfPowLoop` (Laws/Galois.lean). -/
def gfPow (F : GField) (a n : Nat) : Nat :=
  (bitsMSB (n.log2 + 1) n).foldl (fun r b => if b then gfMul F (gfMul F r r) a else gfMul F r r) 1

/-- The quotient: a times the inverse of b, which is b^(2^m − 2) (R117). For b ≠ 0 it is the unique c with mul(c, b) = a
(R116), and `gfMul (gfDiv a b) b = a` and `gfDiv (gfMul a b) b = a` (R118: `gfMul_gfDiv` and `gfDiv_gfMul`, Laws/Galois.lean). -/
def gfDiv (F : GField) (a b : Nat) : Nat := gfMul F a (gfPow F b (F.size - 2))

/-- p is a primitive polynomial of degree m over GF(2): the element x (the integer 2) has order 2^m − 1 modulo p, so that it
generates the multiplicative group of the field (R15, R17, R110). -/
def Primitive (p m : Nat) : Prop :=
  1 ≤ m ∧ deg p = m ∧ pmod (2 ^ (2 ^ m - 1)) p = 1 ∧ ∀ k, 0 < k → k < 2 ^ m - 1 → pmod (2 ^ k) p ≠ 1

/-- The least m with 2^m − 1 ≥ B (R17), for B ≥ 1. -/
def leastWidth (B : Nat) : Nat := B.log2 + 1

/-- One step of division by the monic polynomial g over GF(2^m): the remainder r (its coefficients, index = degree) becomes
r·x + c modulo g, where x^(deg g) is replaced by g's lower coefficients (R143). -/
def rsStep (F : GField) (g r : List Nat) (c : Nat) : List Nat :=
  List.zipWith (fun rk gk => rk ^^^ gfMul F (r.getLastD 0) gk) (c :: r.dropLast) g

/-- The remainder modulo the monic g of the polynomial over GF(2^m) whose coefficients, highest degree first, are cs; the
result's index is the degree (R27, R143). -/
def polyMod (F : GField) (g cs : List Nat) : List Nat :=
  cs.foldl (rsStep F g) (List.replicate (g.length - 1) 0)

/-- The bits of a byte, bit 7 first. -/
def byteBits (b : Byte) : List Bool := bitsMSB 8 b.toNat

/-- `bits(s)`: s[0][7], s[0][6], …, s[0][0], s[1][7], … (R142). -/
def bits (s : List Byte) : List Bool := s.flatMap byteBits

/-- The `count` consecutive groups of w bits of t, each as a number with its first bit highest. -/
def groups (w count : Nat) (t : List Bool) : List Nat :=
  (List.range count).map fun j => ofBitsMSB ((t.drop (w * j)).take w)

/-- A bit list cut into bytes, the first bit of each eight as bit 7 (R142, R156). -/
def bytesOfBits (t : List Bool) : List Byte := (groups 8 (t.length / 8) t).map (BitVec.ofNat 8)

/-- A fixed bit permutation with zero padding (R19): entry q says where output bit q comes from, an input bit by its index
or the constant 0. -/
abbrev BitMap := List (Option Nat)

/-- The output bits of a bit map. -/
def applyMap (f : BitMap) (inp : List Bool) : List Bool :=
  f.map fun src => match src with
    | some j => inp.getD j false
    | none => false

/-- Every one of the nIn input bits is used exactly once, and there are nOut output bits (R141, R155). -/
def BitMapWF (f : BitMap) (nIn nOut : Nat) : Prop :=
  f.length = nOut ∧ (f.filterMap id).Perm (List.range nIn)

end Sys2Proof.Gf
end

