-- ==== Sys2Proof/Machine/Params.lean ====
section
/-! DEFINITION. The configuration tuple (R11), the geometry of a configuration and its segmentation (R13, R14, R180 to R184),
the layout map (R195 to R199), the parity functions (R140 to R158), the record `Params` of implementation parameters
(R12 to R21) and its well-formedness `WF_PARAMS` (R23). -/

namespace Sys2Proof

open Gf

/-- page_size (R11). -/
inductive PageSize where
  | p2048 | p4096
deriving DecidableEq, Repr

/-- oob_size (R11). -/
inductive OobSize where
  | o64 | o128 | o256
deriving DecidableEq, Repr

/-- ECC_Type, a closed enumeration (R5, R11). -/
inductive Ecc where
  | rs | rsSbl | bch4 | bch8
deriving DecidableEq, Repr

/-- A configuration `(page_size, oob_size, ecc, widebus)` (R11). -/
structure Cfg where
  pageSize : PageSize
  oobSize  : OobSize
  ecc      : Ecc
  widebus  : Bool
deriving DecidableEq, Repr

/-- The Galois field a command's FLD selects: 0, 1 and 2 (R88); 3 is reserved and is no field. -/
inductive Fld where
  | rs | bch4 | bch8
deriving DecidableEq, Repr

/-- Where one output byte comes from (R195). -/
inductive LayoutSrc where
  | data (j : Nat)
  | par (i k : Nat)
  | fill
  | const (v : Byte)
deriving DecidableEq, Repr

/-- The geometry parameters of one configuration (R13). -/
structure Geom where
  n      : Nat
  d      : Nat
  dl     : Nat
  p      : Nat
  encpad : Nat → List Byte
  layout : List LayoutSrc

/-- The implementation parameters (R11 to R19). Every field is OPEN: the spec gives no value and the model is stated for every
record that meets `Params.WF`. -/
structure Params where
  /-- SUPPORTED (R12). -/
  supported : Cfg → Bool
  /-- GEOM (R13); it means something for supported configurations only. -/
  geom      : Cfg → Geom
  /-- PRIM_RS (R15). -/
  primRS    : Nat
  /-- G_RS, index = degree (R16). -/
  gRS       : List Nat
  /-- PRIM_BCH4, PRIM_BCH8 (R17). -/
  primBCH4  : Nat
  primBCH8  : Nat
  /-- G_BCH4, G_BCH8 (R18). -/
  gBCH4     : Nat
  gBCH8     : Nat
  /-- UNPACK_RS for a block of L bytes: the K(L)·M_RS symbol bits (symbol 0 first, bit M_RS − 1 of a symbol first) from the
  8L bits of the block, numbered as `bits` lists them (R141). -/
  unpackRS  : Nat → BitMap
  /-- PACK_RS: the 8P output bits from the NSYM·M_RS bits of r_(NSYM−1), …, r_0, bit M_RS − 1 of each first (R141). -/
  packRS    : BitMap
  /-- UNPACK_BCH for a block of L bytes: u_0, …, u_(8L−1) from the bits of the block (R155). -/
  unpackBCH : Nat → BitMap
  /-- PACK_BCH for R remainder bits: the 8P output bits from r_(R−1), …, r_0 (R155). -/
  packBCH   : Nat → BitMap

/-! ## Constants of the spec -/

/-- page_size in bytes (R11). -/
def PageSize.bytes : PageSize → Nat
  | .p2048 => 2048
  | .p4096 => 4096

/-- oob_size in bytes (R11). -/
def OobSize.bytes : OobSize → Nat
  | .o64 => 64
  | .o128 => 128
  | .o256 => 256

/-- page_size of a configuration, in bytes. -/
def Cfg.page (c : Cfg) : Nat := c.pageSize.bytes

/-- page_size + oob_size, the length of a composed page (R196). -/
def Cfg.total (c : Cfg) : Nat := c.pageSize.bytes + c.oobSize.bytes

/-- Every configuration tuple of R11. -/
def Cfg.all : List Cfg :=
  [PageSize.p2048, .p4096].flatMap fun ps => [OobSize.o64, .o128, .o256].flatMap fun os =>
    [Ecc.rs, .rsSbl, .bch4, .bch8].flatMap fun e => [false, true].map fun wb => ⟨ps, os, e, wb⟩

/-- The five configurations the source lists as defined (R12, R221). -/
def Cfg.five : List Cfg :=
  [⟨.p2048, .o64, .rs, false⟩, ⟨.p2048, .o64, .rsSbl, false⟩, ⟨.p2048, .o64, .bch4, false⟩,
   ⟨.p2048, .o128, .bch8, false⟩, ⟨.p4096, .o256, .bch4, false⟩]

/-- FILL (R20). -/
def fillByte : Byte := 0xFF

/-- M_RS, the Reed-Solomon symbol width (R15). -/
def mRS : Nat := 10

/-- The capacities of R21. -/
def rawCap : Nat := 8192
def encCap : Nat := 1024
def slots : Nat := 16
def parCap : Nat := 64
def dataCap : Nat := 8192

/-! ## Geometry and segmentation -/

/-- `Dsz(c, i)`: D for every codeword but the last, DL for the last (R14). -/
def Geom.dsz (g : Geom) (i : Nat) : Nat := if i < g.n - 1 then g.d else g.dl

/-- `L(c, i)`: the encoder block length (R14). -/
def Geom.blockLen (g : Geom) (i : Nat) : Nat := g.dsz i + (g.encpad i).length

/-- `OFF_i`: the sum of the sizes of the codewords before i (R180). -/
def Geom.off (g : Geom) (i : Nat) : Nat := ((List.range i).map g.dsz).sum

/-- `SEG(c)`: the N(c) pairs (OFF_i, LEN_i) (R180). -/
def Geom.seg (g : Geom) : List (Nat × Nat) := (List.range g.n).map fun i => (g.off i, g.dsz i)

/-- R185's test that SEG(c) partitions the page: N ≤ SLOTS, OFF_0 = 0, every LEN_i ≥ 1, and OFF_(N−1) + LEN_(N−1) =
page_size. -/
def Geom.segOk (g : Geom) (pageSize : Nat) : Bool :=
  decide (g.n ≤ slots) && (g.seg.map Prod.fst).head? == some 0 && g.seg.all (fun e => decide (1 ≤ e.2)) &&
    (g.seg.getLast?.map fun e => e.1 + e.2) == some pageSize

/-- `slice(c, i, raw)` (R181). -/
def Geom.slice (g : Geom) (i : Nat) (raw : List Byte) : List Byte := (raw.drop (g.off i)).take (g.dsz i)

/-- `BLOCK(c, i, raw) = slice ++ ENCPAD(c, i)` (R184). -/
def Geom.block (g : Geom) (i : Nat) (raw : List Byte) : List Byte := g.slice i raw ++ g.encpad i

/-! ## Layout -/

/-- The byte a layout source stands for; none where the source does not exist (R195, R196). -/
def LayoutSrc.byte (raw : List Byte) (par : List (List Byte)) : LayoutSrc → Option Byte
  | .data j => raw[j]?
  | .par i k => (par[i]?).bind fun q => q[k]?
  | .fill => some fillByte
  | .const v => some v

/-- `COMPOSE_FN(c, raw, par)` (R196): the bytes of the layout's sources in order. A source that does not exist (which no
well-formed layout has) gives no byte, so that the length check of R203 sees it. -/
def Geom.compose (g : Geom) (raw : List Byte) (par : List (List Byte)) : List Byte :=
  g.layout.filterMap (LayoutSrc.byte raw par)

/-- The index j of a `DATA(j)` source. -/
def LayoutSrc.dataIdx : LayoutSrc → Option Nat
  | .data j => some j
  | _ => none

/-- The index k of a `PAR(i, k)` source of codeword i. -/
def LayoutSrc.parIdx (i : Nat) : LayoutSrc → Option Nat
  | .par i' k => if i' = i then some k else none
  | _ => none

/-- Source x may occur before source y (L5 of R197): a parity byte of codeword i comes before no data byte of slice i, and a data
byte of slice i + 1 before no parity byte of codeword i. -/
def Geom.inOrder (g : Geom) : LayoutSrc → LayoutSrc → Prop
  | .par i _, .data j => ¬ (g.off i ≤ j ∧ j < g.off i + g.dsz i)
  | .data j, .par i _ => ¬ (i + 1 < g.n ∧ g.off (i + 1) ≤ j ∧ j < g.off (i + 1) + g.dsz (i + 1))
  | _, _ => True

/-- `WF_LAYOUT(c)` (R197). -/
structure Geom.WFLayout (g : Geom) (c : Cfg) : Prop where
  /-- L1: its length is page_size + oob_size. -/
  length : g.layout.length = c.total
  /-- L2 and L4 for DATA: every DATA(j), j < page_size, occurs exactly once and in increasing order, and no other DATA
  entry occurs. -/
  dataOnce : g.layout.filterMap LayoutSrc.dataIdx = List.range c.page
  /-- L3 and L4 for PAR: for every codeword, every PAR(i, k), k < P, occurs exactly once and in increasing order of k. -/
  parOnce : ∀ i, i < g.n → g.layout.filterMap (LayoutSrc.parIdx i) = List.range g.p
  /-- L3: no PAR entry of a codeword ≥ N occurs. -/
  parOnly : ∀ i k, LayoutSrc.par i k ∈ g.layout → i < g.n
  /-- L5: for every i, all DATA entries of slice i occur before all PAR(i, ·) entries, and these before every DATA entry of
  slice i + 1. -/
  order : g.layout.Pairwise g.inOrder

/-- (L6): no FILL or CONST entry occurs before the last PAR(N − 1, P − 1) (R198). Not part of `WF_LAYOUT`. -/
def Geom.Sequential (g : Geom) : Prop :=
  ∀ a b : Nat, g.layout[b]? = some (.par (g.n - 1) (g.p - 1)) →
    (g.layout[a]? = some .fill ∨ ∃ v, g.layout[a]? = some (.const v)) → b < a

/-- `LAYOUT_SEQ(c)`: each codeword's data and parity in turn, then FILL (R199). -/
def Geom.layoutSeq (g : Geom) (oobSize : Nat) : List LayoutSrc :=
  ((List.range g.n).flatMap fun i =>
    (List.range (g.dsz i)).map (fun k => LayoutSrc.data (g.off i + k)) ++
      (List.range g.p).map fun k => LayoutSrc.par i k) ++
  List.replicate (oobSize - g.n * g.p) .fill

/-! ## Fields -/

/-- NSYM, the degree of G_RS (R16). -/
def Params.nsym (P : Params) : Nat := P.gRS.length - 1

/-- K(L) = ceil(8L / M_RS) (R141). -/
def symCount (L : Nat) : Nat := (8 * L + (mRS - 1)) / mRS

/-- ceil(b / 8): the bytes that b bits need (R16, R18). -/
def bytesFor (b : Nat) : Nat := (b + 7) / 8

/-- max over the supported configurations with scheme e and their codewords of L(c, i) (R17). -/
def Params.maxBlock (P : Params) (e : Ecc) : Nat :=
  ((Cfg.all.filter fun c => P.supported c && c.ecc == e).flatMap fun c =>
    (List.range (P.geom c).n).map (P.geom c).blockLen).foldl max 0

/-- M_BCH4 and M_BCH8: the least m with 2^m − 1 ≥ 8 · max L + R_t (R17). -/
def Params.mBCH4 (P : Params) : Nat := leastWidth (8 * P.maxBlock .bch4 + deg P.gBCH4)
def Params.mBCH8 (P : Params) : Nat := leastWidth (8 * P.maxBlock .bch8 + deg P.gBCH8)

/-- F_RS = GF(2^M_RS) modulo PRIM_RS (R51). -/
def Params.fieldRS (P : Params) : GField := ⟨mRS, P.primRS⟩

/-- The field FLD selects (R51, R88). -/
def Params.field (P : Params) : Fld → GField
  | .rs => P.fieldRS
  | .bch4 => ⟨P.mBCH4, P.primBCH4⟩
  | .bch8 => ⟨P.mBCH8, P.primBCH8⟩

/-! ## Parity functions -/

/-- UNPACK_RS: the K(L) symbols s_0, … of a block (R141). -/
def Params.rsSymbols (P : Params) (s : List Byte) : List Nat :=
  groups mRS (symCount s.length) (applyMap (P.unpackRS s.length) (bits s))

/-- PACK_RS of r_(NSYM−1), …, r_0 (R141). -/
def Params.rsPack (P : Params) (rs : List Nat) : List Byte :=
  bytesOfBits (applyMap P.packRS (rs.flatMap (bitsMSB mRS)))

/-- The remainder r(x) = (x^NSYM · d(x)) mod G_RS(x), index = degree, where the first symbol is d's highest coefficient
(R143). -/
def Params.rsRemainder (P : Params) (s : List Byte) : List Nat :=
  polyMod P.fieldRS P.gRS (P.rsSymbols s ++ List.replicate P.nsym 0)

/-- RS_PARITY (R143). -/
def Params.rsParity (P : Params) (s : List Byte) : List Byte := P.rsPack (P.rsRemainder s).reverse

/-- UNPACK_BCH: the data polynomial d(x) = sum of u_j x^(8L−1−j) (R155). -/
def Params.bchPoly (P : Params) (s : List Byte) : Nat := ofBitsMSB (applyMap (P.unpackBCH s.length) (bits s))

/-- PACK_BCH of the R remainder bits r_(R−1), …, r_0 (R155). -/
def Params.bchPack (P : Params) (R r : Nat) : List Byte := bytesOfBits (applyMap (P.packBCH R) (bitsMSB R r))

/-- The remainder r(x) = (x^R · d(x)) mod g(x), R the degree of g (R157). -/
def Params.bchRemainder (P : Params) (g : Nat) (s : List Byte) : Nat := pmod (clmul (P.bchPoly s) (2 ^ deg g)) g

/-- BCH_PARITY(g, s) (R157). -/
def Params.bchParity (P : Params) (g : Nat) (s : List Byte) : List Byte := P.bchPack (deg g) (P.bchRemainder g s)

/-- ENCODE(e, s): the scheme-to-function map (R140). -/
def Params.encode (P : Params) : Ecc → List Byte → List Byte
  | .rs, s => P.rsParity s
  | .rsSbl, s => P.rsParity s
  | .bch4, s => P.bchParity P.gBCH4 s
  | .bch8, s => P.bchParity P.gBCH8 s

/-- The parity length in bytes that a scheme's generator fixes (R16, R18). -/
def Params.parityBytes (P : Params) : Ecc → Nat
  | .rs | .rsSbl => bytesFor (P.nsym * mRS)
  | .bch4 => bytesFor (deg P.gBCH4)
  | .bch8 => bytesFor (deg P.gBCH8)

/-! ## Well-formedness -/

/-- R13, R21 and R197 for one supported configuration. -/
structure Geom.WF (g : Geom) (c : Cfg) : Prop where
  n_pos : 1 ≤ g.n
  d_pos : 1 ≤ g.d
  dl_pos : 1 ≤ g.dl
  dl_le : g.dl ≤ g.d
  p_pos : 1 ≤ g.p
  /-- (N − 1) · D + DL = page_size (R13). -/
  sum : (g.n - 1) * g.d + g.dl = c.page
  /-- N ≤ SLOTS, P ≤ PAR_CAP, L(c, i) ≤ ENC_CAP (R21). -/
  n_le : g.n ≤ slots
  p_le : g.p ≤ parCap
  block_le : ∀ i, i < g.n → g.blockLen i ≤ encCap
  layout : g.WFLayout c

/-- `WF_PARAMS` (R23): the conjunction of the constraints of R12 to R21, R141, R144, R155, R158 and R197. -/
structure Params.WF (P : Params) : Prop where
  /-- SUPPORTED contains the five (R12). -/
  five : ∀ c ∈ Cfg.five, P.supported c = true
  /-- No geometry exists for widebus true (R22). -/
  narrow : ∀ c, P.supported c = true → c.widebus = false
  geom : ∀ c, P.supported c = true → (P.geom c).WF c
  /-- P(c) is the length the scheme's generator fixes (R16, R18). -/
  parity : ∀ c, P.supported c = true → (P.geom c).p = P.parityBytes c.ecc
  /-- PRIM_RS is primitive of degree M_RS (R15). -/
  primRS : Primitive P.primRS mRS
  /-- G_RS is monic, of degree NSYM ≥ 1, with non-zero constant coefficient, over GF(2^M_RS) (R16). -/
  gRS_deg : 1 ≤ P.nsym
  gRS_monic : P.gRS.getLast? = some 1
  gRS_const : P.gRS.head? ≠ some 0
  gRS_elem : ∀ x ∈ P.gRS, x < 2 ^ mRS
  /-- The codeword fits GF(2^M_RS)'s code length (R144). -/
  rs_len : ∀ c, P.supported c = true → (c.ecc = .rs ∨ c.ecc = .rsSbl) → ∀ i, i < (P.geom c).n →
    symCount ((P.geom c).blockLen i) + P.nsym ≤ 2 ^ mRS - 1
  /-- PRIM_BCH4 and PRIM_BCH8 are primitive of degrees M_BCH4 and M_BCH8 (R17). -/
  primBCH4 : Primitive P.primBCH4 P.mBCH4
  primBCH8 : Primitive P.primBCH8 P.mBCH8
  /-- R_4 ≥ 1, R_8 > R_4, constant terms 1 (R18). -/
  gBCH4_deg : 1 ≤ deg P.gBCH4
  gBCH8_deg : deg P.gBCH4 < deg P.gBCH8
  gBCH4_const : P.gBCH4.testBit 0 = true
  gBCH8_const : P.gBCH8.testBit 0 = true
  /-- The codeword fits the BCH field's code length (R158). -/
  bch4_len : ∀ c, P.supported c = true → c.ecc = .bch4 → ∀ i, i < (P.geom c).n →
    8 * (P.geom c).blockLen i + deg P.gBCH4 ≤ 2 ^ P.mBCH4 - 1
  bch8_len : ∀ c, P.supported c = true → c.ecc = .bch8 → ∀ i, i < (P.geom c).n →
    8 * (P.geom c).blockLen i + deg P.gBCH8 ≤ 2 ^ P.mBCH8 - 1
  /-- The bit conventions are permutations with zero padding (R19, R141, R155). -/
  unpackRS : ∀ L, BitMapWF (P.unpackRS L) (8 * L) (symCount L * mRS)
  packRS : BitMapWF P.packRS (P.nsym * mRS) (8 * bytesFor (P.nsym * mRS))
  unpackBCH : ∀ L, BitMapWF (P.unpackBCH L) (8 * L) (8 * L)
  packBCH : ∀ R, BitMapWF (P.packBCH R) R (8 * bytesFor R)

end Sys2Proof
end

