-- ==== Sys2Proof/Config.lean ====
section
/-! DEFINITION. What an implementation fixes: the record of OPEN parameters (R11 to R23), as a constant of which nothing is
known but that it is well formed, and the spec's example instantiation EX (R24), which is not the hardware's. -/

namespace Sys2Proof

open Gf

/-! ## EX (R24): used by tests, and so that a well-formed record is known to exist -/

/-- EX's geometry of a supported configuration, without its layout (R24). -/
def Params.exGeomCore (c : Cfg) : Geom where
  n := c.page / 512
  d := 516
  dl := c.page - 516 * (c.page / 512 - 1)
  p := match c.ecc with
    | .rs => 10
    | .rsSbl => 10
    | .bch4 => 7
    | .bch8 => 13
  encpad := fun _ => []
  layout := []

/-- EX's geometry: the sequential layout of R199 (R24). -/
def Params.exGeom (c : Cfg) : Geom :=
  { Params.exGeomCore c with layout := (Params.exGeomCore c).layoutSeq c.oobSize.bytes }

/-- The MSB convention of R142 and R156: the n input bits in order, then zeros up to `out` bits. -/
def Params.msbMap (n out : Nat) : BitMap := (List.range n).map some ++ List.replicate (out - n) none

/-- The example instantiation EX (R24): "NOT a statement of the hardware's values". -/
def Params.ex : Params where
  supported := fun c => Cfg.five.contains c
  geom := Params.exGeom
  primRS := 0x409
  gRS := [0x344, 0x24B, 0x03A, 0x3A0, 0x297, 0x143, 0x033, 0x1FE, 0x001]
  primBCH4 := 0x201B
  primBCH8 := 0x201B
  gBCH4 := 0x14523043AB86AB
  gBCH8 := 0x115F914E07B0C138741C5C4FB23
  unpackRS := fun L => Params.msbMap (8 * L) (symCount L * mRS)
  packRS := Params.msbMap 80 80
  unpackBCH := fun L => Params.msbMap (8 * L) (8 * L)
  packBCH := fun R => Params.msbMap R (8 * bytesFor R)

/-! ## The implementation's record -/

/-- DESIGN CHOICE (log entry 4): the implementation's parameters, an uninterpreted constant: any record that meets `WF_PARAMS`
(R23: "A model must not be instantiated with a record that fails it"). -/
opaque Config.chosen : Option { P : Params // P.WF }

/-- The record the model is instantiated with. Nothing is known of it but that it is well formed
(`Config.params_wf`, Laws/Params.lean): a claim about it holds for every well-formed record. -/
def Config.params : Params :=
  match Config.chosen with
  | some P => P.val
  | none => Params.ex

end Sys2Proof
end

