-- ==== Sys2Proof/Syntax.lean ====
section
/-! DEFINITION. The eleven commands (R91), one constructor per row of spec/opcode_table.json. -/

namespace Sys2Proof

/-- A command word's meaning as syntax. Format G carries the field FLD selects (R88), format E the codeword index SLOT
(R89), format P nothing (R87). A command has no other operand in its word (R90). -/
inductive Instr where
  /-- GF_MUL (R113). -/
  | gfMul (fld : Fld)
  /-- GF_DIV (R116). -/
  | gfDiv (fld : Fld)
  /-- GF_POW (R119). -/
  | gfPow (fld : Fld)
  /-- RS_ENC (R147). -/
  | rsEnc (slot : Nat)
  /-- RS_SBL_ENC (R150). -/
  | rsSblEnc (slot : Nat)
  /-- BCH4_ENC (R160). -/
  | bch4Enc (slot : Nat)
  /-- BCH8_ENC (R163). -/
  | bch8Enc (slot : Nat)
  /-- SEGMENT (R185). -/
  | segment
  /-- COMPOSE (R203). -/
  | compose
  /-- CONFIGURE (R217). -/
  | configure
  /-- PROGRAM (R223). -/
  | program
deriving DecidableEq, Repr

end Sys2Proof
end

