-- ==== Sys2Proof/WellFormed.lean ====
section
/-! DEFINITION. What a command word can hold: SLOT is four bits wide (R89). FLD needs no check: `Fld` names exactly the three
legal selections (R88). -/

namespace Sys2Proof

/-- SLOT is a 4-bit field: 0 to 15 (R89). -/
def slotOk (slot : Nat) : Bool := decide (slot < 16)

/-- The instruction has an encoding. -/
def Instr.wellFormed : Instr → Bool
  | .gfMul _ => true
  | .gfDiv _ => true
  | .gfPow _ => true
  | .rsEnc slot => slotOk slot
  | .rsSblEnc slot => slotOk slot
  | .bch4Enc slot => slotOk slot
  | .bch8Enc slot => slotOk slot
  | .segment => true
  | .compose => true
  | .configure => true
  | .program => true

end Sys2Proof
end

