-- ==== Sys2Proof/Decode.lean ====
section
/-! DEFINITION. The decoder (R93), total on all 2^32 words (R95) and rejecting by name, and the encoder from the same field
table (R86, R91). -/

namespace Sys2Proof

/-- Why a word is no command, in the order R93 checks. -/
inductive DecodeError where
  /-- OPCODE 0x0 or 0xC to 0xF. -/
  | reservedOpcode
  /-- A reserved bit, or a field the format does not use, is not zero. -/
  | reservedBits
  /-- FLD = 3 in format G. -/
  | reservedFieldSelect
deriving DecidableEq, Repr

/-- The three formats (R87). -/
inductive Format where
  | g | e | p
deriving DecidableEq, Repr

/-! ## Fields of the command word (R86) -/

/-- OPCODE, bits [31:28]. -/
def opcodeOf (w : Word) : Nat := (w.extractLsb' 28 4).toNat

/-- FLD, bits [27:26]. -/
def fldOf (w : Word) : Nat := (w.extractLsb' 26 2).toNat

/-- Reserved bits [25:24]. -/
def resHighOf (w : Word) : Nat := (w.extractLsb' 24 2).toNat

/-- SLOT, bits [23:20]. -/
def slotOf (w : Word) : Nat := (w.extractLsb' 20 4).toNat

/-- Reserved bits [19:0]. -/
def resLowOf (w : Word) : Nat := (w.extractLsb' 0 20).toNat

/-- The format of an opcode; none for a reserved one (R91). -/
def formatOf (op : Nat) : Option Format :=
  if op = 0 then none
  else if op ≤ 3 then some .g
  else if op ≤ 7 then some .e
  else if op ≤ 11 then some .p
  else none

/-- The field FLD selects (R88); none for the reserved 3. -/
def fldSelect (f : Nat) : Option Fld :=
  match f with
  | 0 => some .rs
  | 1 => some .bch4
  | 2 => some .bch8
  | _ => none

/-- FLD's value for a field (R88). -/
def fldCode : Fld → Nat
  | .rs => 0
  | .bch4 => 1
  | .bch8 => 2

/-- R93, check by check; the first failing check is the answer. -/
def decodeWord (w : Word) : Except DecodeError Instr :=
  match formatOf (opcodeOf w) with
  | none => .error .reservedOpcode
  | some fmt =>
    if resHighOf w ≠ 0 ∨ resLowOf w ≠ 0 then .error .reservedBits
    else match fmt with
      | .g =>
        if slotOf w ≠ 0 then .error .reservedBits
        else match fldSelect (fldOf w) with
          | none => .error .reservedFieldSelect
          | some f =>
            match opcodeOf w with
            | 1 => .ok (.gfMul f)
            | 2 => .ok (.gfDiv f)
            | _ => .ok (.gfPow f)
      | .e =>
        if fldOf w ≠ 0 then .error .reservedBits
        else match opcodeOf w with
          | 4 => .ok (.rsEnc (slotOf w))
          | 5 => .ok (.rsSblEnc (slotOf w))
          | 6 => .ok (.bch4Enc (slotOf w))
          | _ => .ok (.bch8Enc (slotOf w))
      | .p =>
        if fldOf w ≠ 0 ∨ slotOf w ≠ 0 then .error .reservedBits
        else match opcodeOf w with
          | 8 => .ok .segment
          | 9 => .ok .compose
          | 10 => .ok .configure
          | _ => .ok .program

/-! ## Encoder -/

/-- A command word from its three fields, every reserved bit 0 (R86). -/
def commandWord (op fld slot : Nat) : Word :=
  (BitVec.ofNat 32 op <<< 28) ||| (BitVec.ofNat 32 fld <<< 26) ||| (BitVec.ofNat 32 slot <<< 20)

/-- The word of a well-formed instruction (R87, R91, R97). -/
def encode : Instr → Word
  | .gfMul f => commandWord 1 (fldCode f) 0
  | .gfDiv f => commandWord 2 (fldCode f) 0
  | .gfPow f => commandWord 3 (fldCode f) 0
  | .rsEnc s => commandWord 4 0 s
  | .rsSblEnc s => commandWord 5 0 s
  | .bch4Enc s => commandWord 6 0 s
  | .bch8Enc s => commandWord 7 0 s
  | .segment => commandWord 8 0 0
  | .compose => commandWord 9 0 0
  | .configure => commandWord 10 0 0
  | .program => commandWord 11 0 0

/-! ## The opcode table's numbering -/

/-- The instruction the decoder reads from a command whose bits are `w` as spec/opcode_table.json numbers them: a command is
one 32-bit word (R85), bit 0 its least significant bit. Bits from `nbits` up are 0; a number that needs more than 32 bits
is no command. -/
def decodeTableWord (nbits w : Nat) : Option Instr :=
  if w % 2 ^ nbits < 2 ^ 32 then
    match decodeWord (BitVec.ofNat 32 (w % 2 ^ nbits)) with
    | .ok i => some i
    | .error _ => none
  else none

end Sys2Proof
end

