-- ==== Sys2Proof/Machine/State.lean ====
section
/-! DEFINITION. The state of one block instance (R30), the reasons a step can stop (R246, R248), the host's accesses (R28,
R60), and the state after reset (R55). -/

namespace Sys2Proof.Machine

/-- The Page's phase (R33). -/
inductive Phase where
  | noPage | unprogrammed | programmed
deriving DecidableEq, Repr

/-- How a command ended: success or one of the error responses of R242, each a pair of an ERR code (R39) and a SUB code
(R40). STATUS.ERR and STATUS.SUB show it. -/
inductive Response where
  | ok
  | reservedOobSelect | unsupportedTuple
  | invalidInput
  | divByZero | blockLength | parityLength | segmentation | layoutLength | parityMissing
  | reservedOpcode | reservedBits | reservedFieldSelect | slotRange | schemeMismatch | operandRange
  | notConfigured
deriving DecidableEq, Repr

/-- Model faults (R245, R246). Both are SAFE: the model gives no value where the hardware may give one (R247). -/
inductive Fault where
  /-- Raised by a host access to an unmapped address, of an illegal width, misaligned, narrower than 4 bytes to a register, or
  that leaves its region (R63, R64). SAFE (R247). -/
  | busError
  /-- Raised by a host read, or by an encoder command, COMPOSE or PROGRAM reading a byte that holds no value (R66, R67,
  R69, R145, R203, R223). SAFE (R247). -/
  | undefinedRead
deriving DecidableEq, Repr

/-- Refusals (R248). -/
inductive Refusal where
  /-- Raised by an instruction of the table that has no meaning yet. SAFE. No arm of this model raises it. -/
  | notModelled (mnemonic : String)
  /-- Raised by CONFIGURE with CFG.WB = 1 and CFG.OOBS ≠ 3 (R222). SAFE (R248). -/
  | widebusUnmodelled
deriving DecidableEq, Repr

/-- One host access of n bytes (R28): any width and any 16-bit address may be tried (R60, R63). -/
inductive HostAccess where
  | read (addr : Addr) (n : Nat)
  | write (addr : Addr) (n : Nat) (v : Word)
deriving DecidableEq, Repr

/-- The registers of the register map (R35). -/
inductive Reg where
  | cfg | cmd | status | opa | opb | res | rawLen | encLen | parLen | segCount | dataLen
  | geomN | geomD | geomDL | geomP | pageCfg
deriving DecidableEq, Repr

/-- The regions of the address map (R61); what lies in none is unmapped. -/
inductive Region where
  | regs | raw | encIn | parbuf | segtab | data
deriving DecidableEq, Repr

/-- A SEGTAB entry: OFF_i and LEN_i, each 32 bits wide (R68). -/
structure SegEntry where
  off : Word
  len : Word
deriving DecidableEq, Repr

/-- The bytes of RAW, ENC_IN, PARBUF and DATA that hold a value, by host address. An address that is not listed holds no
value (R49, R55), so a byte's defined mark is that it is listed. Canonical form: addresses strictly rising (`Memory.wf`). -/
abbrev Memory := List Host.Cell

/-- The state of one block instance: what R30 and R54 list, and the model's own `pending` and `observed`. -/
structure State where
  /-- CFG (R36). -/
  cfg : Word
  /-- STATUS.PHASE (R33). -/
  phase : Phase
  /-- STATUS.ERR and STATUS.SUB (R38 to R40). -/
  resp : Response
  /-- OPA, OPB, RES (R41). -/
  opa : Word
  opb : Word
  res : Word
  /-- RAW_LEN (R42). -/
  rawLen : Word
  /-- ENC_LEN (R43). -/
  encLen : Word
  /-- PAR_LEN (R44). -/
  parLen : Word
  /-- SEG_COUNT (R45). -/
  segCount : Word
  /-- DATA_LEN (R46). -/
  dataLen : Word
  /-- GEOM_N, GEOM_D, GEOM_DL, GEOM_P (R47). -/
  geomN : Word
  geomD : Word
  geomDL : Word
  geomP : Word
  /-- PAGECFG (R48). -/
  pageCfgReg : Word
  /-- The latched configuration (R34). -/
  pagecfg : Option Cfg
  /-- PARVALID (R50). -/
  parValid : Vector Bool 16
  /-- SEGTAB (R49, R68). -/
  segtab : Vector SegEntry 16
  /-- RAW, ENC_IN, PARBUF, DATA and their defined marks (R49). -/
  mem : Memory
  /-- The mark `faulted` and its reason (R54, R246). -/
  faulted : Option Fault
  /-- The mark `refused` and its reason (R54, R248). -/
  refused : Option Refusal
  /-- The MODEL's own field (log entry 2): the host accesses still to be performed, oldest first (R253, R259). -/
  pending : List HostAccess
  /-- The MODEL's own field (log entry 3): the values the host's reads returned, oldest first (R259). -/
  observed : List Word
deriving DecidableEq, Repr

/-- The state after reset (R55, R270). -/
def State.reset : State where
  cfg := 0
  phase := .noPage
  resp := .ok
  opa := 0
  opb := 0
  res := 0
  rawLen := 0
  encLen := 0
  parLen := 0
  segCount := 0
  dataLen := 0
  geomN := 0
  geomD := 0
  geomDL := 0
  geomP := 0
  pageCfgReg := 0
  pagecfg := none
  parValid := Vector.replicate 16 false
  segtab := Vector.replicate 16 ⟨0, 0⟩
  mem := []
  faulted := none
  refused := none
  pending := []
  observed := []

end Sys2Proof.Machine
end

