-- ==== Sys2Proof/Machine/Flags.lean ====
section
/-! DEFINITION. STATUS, the block's only flags (R52): the codes of PHASE, ERR and SUB, and the word a read of STATUS
returns (R38 to R40). -/

namespace Sys2Proof.Machine

/-- STATUS.PHASE (R33). -/
def Phase.code : Phase → BitVec 2
  | .noPage => 0
  | .unprogrammed => 1
  | .programmed => 2

/-- STATUS.ERR (R39). -/
def Response.err : Response → BitVec 4
  | .ok => 0
  | .reservedOobSelect => 1
  | .unsupportedTuple => 1
  | .invalidInput => 2
  | .divByZero => 3
  | .blockLength => 3
  | .parityLength => 3
  | .segmentation => 3
  | .layoutLength => 3
  | .parityMissing => 3
  | .reservedOpcode => 4
  | .reservedBits => 4
  | .reservedFieldSelect => 4
  | .slotRange => 4
  | .schemeMismatch => 4
  | .operandRange => 4
  | .notConfigured => 5

/-- STATUS.SUB (R40); 0 where ERR has no sub-cause. -/
def Response.sub : Response → BitVec 4
  | .ok => 0
  | .reservedOobSelect => 1
  | .unsupportedTuple => 2
  | .invalidInput => 0
  | .divByZero => 1
  | .blockLength => 2
  | .parityLength => 3
  | .segmentation => 4
  | .layoutLength => 5
  | .parityMissing => 6
  | .reservedOpcode => 1
  | .reservedBits => 2
  | .reservedFieldSelect => 3
  | .slotRange => 4
  | .schemeMismatch => 5
  | .operandRange => 6
  | .notConfigured => 0

/-- STATUS.BUSY is always 0 (R38, R283). -/
def busyBit : BitVec 1 := 0

/-- The word a read of STATUS returns: SUB at [11:8], ERR at [7:4], BUSY at [2], PHASE at [1:0], the rest 0 (R38). -/
def statusWord (s : State) : Word :=
  (0 : BitVec 20) ++ s.resp.sub ++ s.resp.err ++ (0 : BitVec 1) ++ busyBit ++ s.phase.code

end Sys2Proof.Machine
end

