-- ==== Sys2Proof/Machine/Ops.lean ====
section
/-! DEFINITION. The named operations over memory, registers and the Page: the address map (R61), byte order (R62), bytes and
ranges of the buffers (R66 to R69), the register file (R65), and `respond`, the one way a command ends (R241), with
`CLEAR` (R217) and `INVALIDATE` (R203). There is no trap entry and no return from one (R240, R251): `respond` stands where
another machine takes an exception. -/

namespace Sys2Proof.Machine

/-! ## Memory: a list of cells in canonical form -/

/-- The canonical form: addresses strictly rising. (No cell can equal what an unlisted address reads as, since an unlisted
address holds no value, R49.) -/
def Memory.wf (m : Memory) : Bool := decide (m.Pairwise fun x y => x.1 < y.1)

/-- The byte at address a; none where it holds no value. -/
def Memory.get? : Memory → Nat → Option Byte
  | [], _ => none
  | (k, b) :: m, a => if k = a then some b else Memory.get? m a

/-- The cells of a byte sequence from address a up: byte k at a + k (R62). -/
def cellsFrom (a : Nat) : List Byte → Memory
  | [] => []
  | b :: bs => (a, b) :: cellsFrom (a + 1) bs

/-- The cells outside [a, a + n): the bytes of that range hold no value any more. -/
def Memory.erase (m : Memory) (a n : Nat) : Memory :=
  m.filter (fun x => x.1 < a) ++ m.filter (fun x => a + n ≤ x.1)

/-- Stores a byte sequence from address a up; every other byte is as before. -/
def Memory.setRange (m : Memory) (a : Nat) (bs : List Byte) : Memory :=
  m.filter (fun x => x.1 < a) ++ cellsFrom a bs ++ m.filter (fun x => a + bs.length ≤ x.1)

/-- The n bytes from address a up; none if one of them holds no value. -/
def Memory.getRange (m : Memory) (a : Nat) : Nat → Option (List Byte)
  | 0 => some []
  | n + 1 => (m.get? a).bind fun b => (m.getRange (a + 1) n).map (b :: ·)

/-! ## Byte order (R62) -/

/-- The low n bytes of a value, the least significant first. -/
def leBytes (n : Nat) (v : Word) : List Byte := (List.range n).map fun k => v.extractLsb' (8 * k) 8

/-- The value of a little-endian byte sequence, zero-extended to 32 bits. -/
def leWord : List Byte → Word
  | [] => 0
  | b :: bs => (leWord bs <<< 8) ||| b.setWidth 32

/-! ## The address map (R61) -/

def rawBase : Nat := 0x1000
def encBase : Nat := 0x3000
def parBase : Nat := 0x3400
def segBase : Nat := 0x3800
def segSize : Nat := 128
def dataBase : Nat := 0x4000

/-- The region an address lies in; none if it is unmapped. -/
def regionOf (a : Nat) : Option Region :=
  if a < 0x40 then some .regs
  else if rawBase ≤ a ∧ a < rawBase + rawCap then some .raw
  else if encBase ≤ a ∧ a < encBase + encCap then some .encIn
  else if parBase ≤ a ∧ a < parBase + slots * parCap then some .parbuf
  else if segBase ≤ a ∧ a < segBase + segSize then some .segtab
  else if dataBase ≤ a ∧ a < dataBase + dataCap then some .data
  else none

/-- The region an access of n bytes at a may reach: the width is 1, 2 or 4, the address a multiple of it, a register access 4
bytes wide, and the last byte in the same region. None is BUS_ERROR (R63, R64). -/
def accessRegion (a n : Nat) : Option Region :=
  if (n = 1 ∨ n = 2 ∨ n = 4) ∧ a % n = 0 then
    match regionOf a with
    | none => none
    | some r => if (r = .regs ∧ n ≠ 4) ∨ regionOf (a + (n - 1)) ≠ some r then none else some r
  else none

/-! ## Registers (R35) -/

/-- The register at an offset; none where no register is. -/
def regAt (a : Nat) : Option Reg :=
  match a with
  | 0x00 => some .cfg
  | 0x04 => some .cmd
  | 0x08 => some .status
  | 0x0C => some .opa
  | 0x10 => some .opb
  | 0x14 => some .res
  | 0x18 => some .rawLen
  | 0x1C => some .encLen
  | 0x20 => some .parLen
  | 0x24 => some .segCount
  | 0x28 => some .dataLen
  | 0x2C => some .geomN
  | 0x30 => some .geomD
  | 0x34 => some .geomDL
  | 0x38 => some .geomP
  | 0x3C => some .pageCfg
  | _ => none

/-- A read returns the register's current value; CMD reads 0 (R65, R37). -/
def readReg (r : Reg) (s : State) : Word :=
  match r with
  | .cfg => s.cfg
  | .cmd => 0
  | .status => statusWord s
  | .opa => s.opa
  | .opb => s.opb
  | .res => s.res
  | .rawLen => s.rawLen
  | .encLen => s.encLen
  | .parLen => s.parLen
  | .segCount => s.segCount
  | .dataLen => s.dataLen
  | .geomN => s.geomN
  | .geomD => s.geomD
  | .geomDL => s.geomDL
  | .geomP => s.geomP
  | .pageCfg => s.pageCfgReg

/-- CFG's writable bits [5:0]; bits [31:6] are dropped (R36, R65). -/
def cfgMask : Word := 0x3F

/-- A host write to a register (R65). CMD stores nothing here: its command is Bus.lean's. A read-only register ignores it. -/
def writeReg (r : Reg) (v : Word) (s : State) : State :=
  match r with
  | .cfg => { s with cfg := v &&& cfgMask }
  | .opa => { s with opa := v }
  | .opb => { s with opb := v }
  | .rawLen => { s with rawLen := v }
  | .encLen => { s with encLen := v }
  | .cmd | .status | .res | .parLen | .segCount | .dataLen | .geomN | .geomD | .geomDL | .geomP | .pageCfg => s

/-! ## Buffers -/

/-- PARVALID[i] (R50). -/
def State.slotValid (s : State) (i : Nat) : Bool := s.parValid[i]?.getD false

/-- SEGTAB entry i as it reads: zero for i ≥ SEG_COUNT (R68). -/
def State.segEntry (s : State) (i : Nat) : SegEntry :=
  if i < s.segCount.toNat then s.segtab[i]?.getD ⟨0, 0⟩ else ⟨0, 0⟩

/-- P(geom) of the current Page; 0 when there is none. -/
def State.parityLen (P : Params) (s : State) : Nat :=
  match s.pagecfg with
  | some c => (P.geom c).p
  | none => 0

/-- The byte a host read finds at an address of a buffer region (R66 to R69); none where it holds no value. -/
def readByte (P : Params) (s : State) (a : Nat) : Option Byte :=
  match regionOf a with
  | some .raw => s.mem.get? a
  | some .encIn => s.mem.get? a
  | some .parbuf =>
    if s.slotValid ((a - parBase) / parCap) = true ∧ (a - parBase) % parCap < s.parityLen P then s.mem.get? a else none
  | some .segtab =>
    let e := s.segEntry ((a - segBase) / 8)
    (leBytes 4 e.off ++ leBytes 4 e.len)[(a - segBase) % 8]?
  | some .data => if s.phase = .programmed ∧ a - dataBase < s.dataLen.toNat then s.mem.get? a else none
  | some .regs => none
  | none => none

/-- The n bytes a host read finds from address a up; none if one holds no value (R70). -/
def readBytes (P : Params) (s : State) (a : Nat) : Nat → Option (List Byte)
  | 0 => some []
  | n + 1 => (readByte P s a).bind fun b => (readBytes P s (a + 1) n).map (b :: ·)

/-! ## How a command ends -/

/-- `respond(ERR, SUB)`: ends the command; STATUS.ERR and STATUS.SUB show its outcome (R241). -/
def respond (r : Response) (s : State) : State := { s with resp := r }

/-- The sub-cause of ILLEGAL_COMMAND for a word that is no command (R93, R94). -/
def illegalResponse : DecodeError → Response
  | .reservedOpcode => .reservedOpcode
  | .reservedBits => .reservedBits
  | .reservedFieldSelect => .reservedFieldSelect

/-- The configuration a Page command works under; none in NO_PAGE (R34). A phase other than NO_PAGE with no latched
configuration, which no run reaches, counts as NO_PAGE (log entry 8). -/
def State.page? (s : State) : Option Cfg :=
  match s.phase with
  | .noPage => none
  | .unprogrammed => s.pagecfg
  | .programmed => s.pagecfg

/-- `INVALIDATE()`: phase UNPROGRAMMED, DATA_LEN 0, DATA undefined (R203). -/
def invalidate (s : State) : State :=
  { s with phase := .unprogrammed, dataLen := 0, mem := s.mem.erase dataBase dataCap }

/-- `CLEAR()` (R217), and phase NO_PAGE, which both failing answers set beside it: no configuration, DATA undefined, every slot
invalid (so every PARBUF byte undefined, R49), SEGTAB zero, and the read-only registers that follow the Page zero. -/
def clearPage (s : State) : State :=
  { s with
    phase := .noPage
    pagecfg := none
    dataLen := 0
    mem := (s.mem.erase dataBase dataCap).erase parBase (slots * parCap)
    parValid := Vector.replicate 16 false
    segtab := Vector.replicate 16 ⟨0, 0⟩
    segCount := 0
    parLen := 0
    geomN := 0
    geomD := 0
    geomDL := 0
    geomP := 0
    pageCfgReg := 0 }

/-! ## Results -/

/-- The SEGTAB of a geometry: entry i is SEG(c)[i] for i < N and (0, 0) otherwise (R185). -/
def segTable (g : Geom) : Vector SegEntry 16 :=
  Vector.ofFn fun i : Fin 16 =>
    match g.seg[i.val]? with
    | some e => ⟨BitVec.ofNat 32 e.1, BitVec.ofNat 32 e.2⟩
    | none => ⟨0, 0⟩

/-- Writes SEGTAB and SEG_COUNT (R185). -/
def storeSegments (g : Geom) (s : State) : State :=
  { s with segtab := segTable g, segCount := BitVec.ofNat 32 g.n }

/-- The first address of PARBUF slot i (R61). -/
def slotBase (i : Nat) : Nat := parBase + parCap * i

/-- Writes a parity block to PARBUF slot i and sets PARVALID[i] (R145, R223). -/
def storeParity (i : Nat) (q : List Byte) (s : State) : State :=
  { s with mem := s.mem.setRange (slotBase i) q, parValid := s.parValid.setIfInBounds i true }

/-- Writes DATA and DATA_LEN; phase PROGRAMMED (R203, R223). -/
def storeData (out : List Byte) (s : State) : State :=
  { s with
    mem := (s.mem.erase dataBase dataCap).setRange dataBase out
    dataLen := BitVec.ofNat 32 out.length
    phase := .programmed }

end Sys2Proof.Machine
end

