-- ==== Sys2Proof/Machine/Operands.lean ====
section
/-! DEFINITION. Operand assembly (R90): the Galois-field operands and their range check, the encoder's block, the page
image, the parity of a Page's codewords, and the configuration CFG requests. -/

namespace Sys2Proof.Machine

open Gf

/-! ## Format G -/

/-- a and b of GF_MUL and GF_DIV, both checked against 2^m (R111); none is OPERAND_RANGE. -/
def gfOperands (F : GField) (s : State) : Option (Nat × Nat) :=
  if F.size ≤ s.opa.toNat ∨ F.size ≤ s.opb.toNat then none else some (s.opa.toNat, s.opb.toNat)

/-- a and n of GF_POW: only the base is checked (R111, R119); none is OPERAND_RANGE. -/
def gfPowOperands (F : GField) (s : State) : Option (Nat × Nat) :=
  if F.size ≤ s.opa.toNat then none else some (s.opa.toNat, s.opb.toNat)

/-! ## Formats E and P -/

/-- ENC_IN[0..L): the block of an encoder command; none if a byte is undefined (R145). -/
def encBlock (L : Nat) (s : State) : Option (List Byte) := s.mem.getRange encBase L

/-- RAW[0..page_size): the page image; none if a byte is undefined (R203, R223). -/
def rawPage (c : Cfg) (s : State) : Option (List Byte) := s.mem.getRange rawBase c.page

/-- The parity blocks of codewords i < n from PARBUF (R202); none if a byte is undefined. -/
def slotParities (p : Nat) (s : State) : Nat → Option (List (List Byte))
  | 0 => some []
  | n + 1 => (slotParities p s n).bind fun qs => (s.mem.getRange (slotBase n) p).map fun q => qs ++ [q]

/-- PARVALID[i] for every i < n (R203). -/
def slotsValid (n : Nat) (s : State) : Bool := (List.range n).all s.slotValid

/-! ## CFG (R36) -/

/-- CFG.PS. -/
def cfgPageSize (w : Word) : PageSize := if w.getLsbD 0 then .p4096 else .p2048

/-- CFG.OOBS; none for the reserved 3. -/
def cfgOobSize (w : Word) : Option OobSize :=
  match (w.extractLsb' 1 2).toNat with
  | 0 => some .o64
  | 1 => some .o128
  | 2 => some .o256
  | _ => none

/-- CFG.ECC. -/
def cfgEcc (w : Word) : Ecc :=
  match (w.extractLsb' 3 2).toNat with
  | 0 => .rs
  | 1 => .rsSbl
  | 2 => .bch4
  | _ => .bch8

/-- CFG.WB. -/
def cfgWidebus (w : Word) : Bool := w.getLsbD 5

/-- The configuration a CFG value requests; none when OOBS is 3 (R217). -/
def cfgRequest (w : Word) : Option Cfg := (cfgOobSize w).map fun os => ⟨cfgPageSize w, os, cfgEcc w, cfgWidebus w⟩

/-- A configuration in CFG's field layout (R36). -/
def cfgWord (c : Cfg) : Word :=
  BitVec.ofNat 32
    ((match c.pageSize with | .p2048 => 0 | .p4096 => 1) +
     2 * (match c.oobSize with | .o64 => 0 | .o128 => 1 | .o256 => 2) +
     8 * (match c.ecc with | .rs => 0 | .rsSbl => 1 | .bch4 => 2 | .bch8 => 3) +
     32 * c.widebus.toNat)

end Sys2Proof.Machine
end

