-- ==== Sys2Proof/Machine/Encoders.lean ====
section
/-! DEFINITION. RS_ENC, RS_SBL_ENC, BCH4_ENC, BCH8_ENC: one frame (R145) with the scheme as its argument (R146). -/

namespace Sys2Proof.Machine

/-- The end of a frame whose block was read (R145): the parity is stored in the slot, PAR_LEN takes P(c). -/
def encStore (P : Params) (e : Ecc) (g : Geom) (i : Nat) (blk : List Byte) (s : State) : State :=
  if (P.encode e blk).length ≠ g.p then respond .parityLength s
  else respond .ok { storeParity i (P.encode e blk) s with parLen := BitVec.ofNat 32 g.p }

/-- `ENC_FRAME(e, i)` (R145): the checks in its order (R249), the first failing one the answer. -/
def encFrame (P : Params) (e : Ecc) (i : Nat) (s : State) : Host.Outcome State Fault Refusal :=
  match s.page? with
  | none => .next (respond .notConfigured s)
  | some c =>
    if c.ecc ≠ e then .next (respond .schemeMismatch s)
    else if (P.geom c).n ≤ i then .next (respond .slotRange s)
    else if s.encLen.toNat ≠ (P.geom c).blockLen i then .next (respond .blockLength s)
    else match encBlock ((P.geom c).blockLen i) s with
      | none => .fault .undefinedRead
      | some blk => .next (encStore P e (P.geom c) i blk s)

/-- RS_ENC (R147). -/
def execRsEnc (slot : Nat) (s : State) : Host.Outcome State Fault Refusal := encFrame Config.params .rs slot s

/-- RS_SBL_ENC (R150). -/
def execRsSblEnc (slot : Nat) (s : State) : Host.Outcome State Fault Refusal := encFrame Config.params .rsSbl slot s

/-- BCH4_ENC (R160). -/
def execBch4Enc (slot : Nat) (s : State) : Host.Outcome State Fault Refusal := encFrame Config.params .bch4 slot s

/-- BCH8_ENC (R163). -/
def execBch8Enc (slot : Nat) (s : State) : Host.Outcome State Fault Refusal := encFrame Config.params .bch8 slot s

end Sys2Proof.Machine
end

