-- ==== Sys2Proof/Machine/Galois.lean ====
section
/-! DEFINITION. GF_MUL, GF_DIV, GF_POW (R110 to R122). They need no Page and never fault; on success they write RES and on any
error RES keeps its value (R112). -/

namespace Sys2Proof.Machine

open Gf

/-- Success of a Galois-field command: RES takes the result, `respond(NONE, 0)` (R112). -/
def gfResult (v : Nat) (s : State) : State := respond .ok { s with res := BitVec.ofNat 32 v }

/-- GF_MUL over any parameters (R113). -/
def gfMulCommand (P : Params) (fld : Fld) (s : State) : State :=
  match gfOperands (P.field fld) s with
  | none => respond .operandRange s
  | some (a, b) => gfResult (gfMul (P.field fld) a b) s

/-- GF_DIV over any parameters (R116): the range check comes before the zero check (R249). -/
def gfDivCommand (P : Params) (fld : Fld) (s : State) : State :=
  match gfOperands (P.field fld) s with
  | none => respond .operandRange s
  | some (a, b) => if b = 0 then respond .divByZero s else gfResult (gfDiv (P.field fld) a b) s

/-- GF_POW over any parameters (R119). -/
def gfPowCommand (P : Params) (fld : Fld) (s : State) : State :=
  match gfPowOperands (P.field fld) s with
  | none => respond .operandRange s
  | some (a, n) => gfResult (gfPow (P.field fld) a n) s

/-- GF_MUL (R113). -/
def execGfMul (fld : Fld) (s : State) : Host.Outcome State Fault Refusal := .next (gfMulCommand Config.params fld s)

/-- GF_DIV (R116). -/
def execGfDiv (fld : Fld) (s : State) : Host.Outcome State Fault Refusal := .next (gfDivCommand Config.params fld s)

/-- GF_POW (R119). -/
def execGfPow (fld : Fld) (s : State) : Host.Outcome State Fault Refusal := .next (gfPowCommand Config.params fld s)

end Sys2Proof.Machine
end

