-- ==== Sys2Proof/Machine/Composer.lean ====
section
/-! DEFINITION. COMPOSE (R195 to R207). -/

namespace Sys2Proof.Machine

/-- The end of COMPOSE and PROGRAM: the composed page becomes DATA, or its length is wrong and DATA is undefined (R203,
R223). -/
def finishPage (c : Cfg) (out : List Byte) (s : State) : State :=
  if out.length ≠ c.total then respond .layoutLength (invalidate s) else respond .ok (storeData out s)

/-- COMPOSE over any parameters (R203): the checks in its order (R249). -/
def composeCommand (P : Params) (s : State) : Host.Outcome State Fault Refusal :=
  match s.page? with
  | none => .next (respond .notConfigured s)
  | some c =>
    if s.rawLen.toNat ≠ c.page then .next (respond .invalidInput (invalidate s))
    else if slotsValid (P.geom c).n s = false then .next (respond .parityMissing (invalidate s))
    else match rawPage c s, slotParities (P.geom c).p s (P.geom c).n with
      | some raw, some par => .next (finishPage c ((P.geom c).compose raw par) s)
      | none, _ => .fault .undefinedRead
      | _, none => .fault .undefinedRead

/-- COMPOSE (R203). -/
def execCompose (s : State) : Host.Outcome State Fault Refusal := composeCommand Config.params s

end Sys2Proof.Machine
end

