-- ==== Sys2Proof/Machine/Page.lean ====
section
/-! DEFINITION. CONFIGURE (R215 to R222) and PROGRAM (R223 to R230). -/

namespace Sys2Proof.Machine

/-! ## CONFIGURE -/

/-- The Page of a supported configuration: `CLEAR()`, then the configuration latched, phase UNPROGRAMMED, and the registers that
show the geometry and the configuration (R217). -/
def latchPage (P : Params) (c : Cfg) (s : State) : State :=
  { clearPage s with
    pagecfg := some c
    phase := .unprogrammed
    geomN := BitVec.ofNat 32 (P.geom c).n
    geomD := BitVec.ofNat 32 (P.geom c).d
    geomDL := BitVec.ofNat 32 (P.geom c).dl
    geomP := BitVec.ofNat 32 (P.geom c).p
    pageCfgReg := s.cfg &&& cfgMask }

/-- CONFIGURE for a configuration whose bus is 8 bits wide (R217, R221). -/
def constructPage (P : Params) (c : Cfg) (s : State) : State :=
  if P.supported c = true then respond .ok (latchPage P c s) else respond .unsupportedTuple (clearPage s)

/-- CONFIGURE over any parameters (R217): the reserved OOB selection is checked first, then widebus, then SUPPORTED (R249). -/
def configureCommand (P : Params) (s : State) : Host.Outcome State Fault Refusal :=
  match cfgRequest s.cfg with
  | none => .next (respond .reservedOobSelect (clearPage s))
  | some c => if c.widebus = true then .refused .widebusUnmodelled else .next (constructPage P c s)

/-- CONFIGURE (R217). -/
def execConfigure (s : State) : Host.Outcome State Fault Refusal := configureCommand Config.params s

/-! ## PROGRAM -/

/-- PROGRAM's loop over the codewords listed (R223): each block is encoded and its parity stored; a block or parity of the wrong
length ends the command there (`.error`), with what the loop stored before. -/
def encodeSlots (P : Params) (c : Cfg) (raw : List Byte) : List Nat → State → Except State State
  | [], s => .ok s
  | i :: is, s =>
    if ((P.geom c).block i raw).length ≠ (P.geom c).blockLen i then .error (respond .blockLength (invalidate s))
    else if (P.encode c.ecc ((P.geom c).block i raw)).length ≠ (P.geom c).p then
      .error (respond .parityLength (invalidate s))
    else encodeSlots P c raw is (storeParity i (P.encode c.ecc ((P.geom c).block i raw)) s)

/-- The parity blocks PROGRAM composes: those its loop computed (R223). -/
def pageParities (P : Params) (c : Cfg) (raw : List Byte) : List (List Byte) :=
  (List.range (P.geom c).n).map fun i => P.encode c.ecc ((P.geom c).block i raw)

/-- PROGRAM once the page image is read (R223): segment, encode every codeword, compose. -/
def programPage (P : Params) (c : Cfg) (raw : List Byte) (s : State) : State :=
  if (P.geom c).segOk c.page = true then
    match encodeSlots P c raw (List.range (P.geom c).n) (storeSegments (P.geom c) s) with
    | .error t => t
    | .ok t =>
      finishPage c ((P.geom c).compose raw (pageParities P c raw)) { t with parLen := BitVec.ofNat 32 (P.geom c).p }
  else respond .segmentation (invalidate s)

/-- PROGRAM over any parameters (R223): the checks in its order (R249). -/
def programCommand (P : Params) (s : State) : Host.Outcome State Fault Refusal :=
  match s.page? with
  | none => .next (respond .notConfigured s)
  | some c =>
    if s.rawLen.toNat ≠ c.page then .next (respond .invalidInput (invalidate s))
    else match rawPage c s with
      | none => .fault .undefinedRead
      | some raw => .next (programPage P c raw s)

/-- PROGRAM (R223). -/
def execProgram (s : State) : Host.Outcome State Fault Refusal := programCommand Config.params s

end Sys2Proof.Machine
end

