-- ==== Sys2Proof/Machine/Segmenter.lean ====
section
/-! DEFINITION. SEGMENT (R180 to R188). -/

namespace Sys2Proof.Machine

/-- SEGMENT over any parameters (R185). It never faults. -/
def segmentCommand (P : Params) (s : State) : State :=
  match s.page? with
  | none => respond .notConfigured s
  | some c =>
    if (P.geom c).segOk c.page = true then respond .ok (storeSegments (P.geom c) s)
    else respond .segmentation s

/-- SEGMENT (R185). -/
def execSegment (s : State) : Host.Outcome State Fault Refusal := .next (segmentCommand Config.params s)

end Sys2Proof.Machine
end

