-- ==== Sys2Proof/Machine/Dispatch.lean ====
section
/-! DEFINITION. What each command does: one arm per row of the opcode table (R91). -/

namespace Sys2Proof.Machine

def exec (i : Instr) (s : State) : Host.Outcome State Fault Refusal :=
  match i with
  | .gfMul fld => Sys2Proof.Machine.execGfMul fld s
  | .gfDiv fld => Sys2Proof.Machine.execGfDiv fld s
  | .gfPow fld => Sys2Proof.Machine.execGfPow fld s
  | .rsEnc slot => Sys2Proof.Machine.execRsEnc slot s
  | .rsSblEnc slot => Sys2Proof.Machine.execRsSblEnc slot s
  | .bch4Enc slot => Sys2Proof.Machine.execBch4Enc slot s
  | .bch8Enc slot => Sys2Proof.Machine.execBch8Enc slot s
  | .segment => Sys2Proof.Machine.execSegment s
  | .compose => Sys2Proof.Machine.execCompose s
  | .configure => Sys2Proof.Machine.execConfigure s
  | .program => Sys2Proof.Machine.execProgram s

end Sys2Proof.Machine
end

