-- ==== Sys2Proof/Machine/Bus.lean ====
section
/-! DEFINITION. What one host access does (R60 to R71), a write to CMD performing the command its word encodes (R37, R85). -/

namespace Sys2Proof.Machine

/-- A command word written to CMD: decoded before any operand is read (R93); a word that is no command is answered
ILLEGAL_COMMAND and changes nothing but STATUS.ERR and STATUS.SUB (R94). -/
def issue (w : Word) (s : State) : Host.Outcome State Fault Refusal :=
  match decodeWord w with
  | .ok i => exec i s
  | .error e => .next (respond (illegalResponse e) s)

/-- The value of an n-byte host read at address a over any parameters (R63 to R70). -/
def busRead (P : Params) (a n : Nat) (s : State) : Except Fault Word :=
  match accessRegion a n with
  | none => .error .busError
  | some .regs =>
    match regAt a with
    | none => .error .busError
    | some r => .ok (readReg r s)
  | some _ =>
    match readBytes P s a n with
    | none => .error .undefinedRead
    | some bs => .ok (leWord bs)

/-- An n-byte host write of v at address a (R63 to R69): RAW and ENC_IN store the bytes and mark them defined; a register as
`writeReg`; CMD issues; the read-only buffers ignore it. -/
def busWrite (a n : Nat) (v : Word) (s : State) : Host.Outcome State Fault Refusal :=
  match accessRegion a n with
  | none => .fault .busError
  | some .regs =>
    match regAt a with
    | none => .fault .busError
    | some .cmd => issue v s
    | some r => .next (writeReg r v s)
  | some .raw => .next { s with mem := s.mem.setRange a (leBytes n v) }
  | some .encIn => .next { s with mem := s.mem.setRange a (leBytes n v) }
  | some .parbuf => .next s
  | some .segtab => .next s
  | some .data => .next s

/-- One host access, performed to completion (R72). A read's value is appended to `observed` (log entry 3) and changes
nothing else (R71). -/
def access (x : HostAccess) (s : State) : Host.Outcome State Fault Refusal :=
  match x with
  | .read a n =>
    match busRead Config.params a.toNat n s with
    | .ok v => .next { s with observed := s.observed ++ [v] }
    | .error f => .fault f
  | .write a n v => busWrite a.toNat n v s

/-- The machine's next step: a faulted state makes no further step (R246), and neither does a refused one, of which
R248 states nothing further; each answers its fault or refusal again (DEDUCED, log entry 5). Otherwise the oldest pending host
access is performed, and with none pending nothing happens (R271, log entry 1). -/
def nextStep (s : State) : Host.Outcome State Fault Refusal :=
  match s.refused, s.faulted with
  | some r, _ => .refused r
  | none, some f => .fault f
  | none, none =>
    match s.pending with
    | [] => .next s
    | x :: rest => access x { s with pending := rest }

/-- CMD's address (R35). -/
def cmdAddr : Addr := 0x04

/-- The state in which the host's next access is the write of a command word to CMD (log entry 2). -/
def withCommand (s : State) (w : Word) : State := { s with pending := .write cmdAddr 4 w :: s.pending }

end Sys2Proof.Machine
end

