-- ==== Sys2Proof/Machine/Step.lean ====
section
/-! DEFINITION. One step of the block: one host access (R253, R259), and where the next command word stands. -/

namespace Sys2Proof.Machine

/-- One step (`nextStep`, Bus.lean). -/
def step (s : State) : Host.Outcome State Fault Refusal := nextStep s

/-- The state whose next step runs the command word of the table's `nbits` bits `w` (log entry 2): the block fetches nothing
(R75); the host writes the word to CMD. -/
def State.withFetchWord (s : State) (nbits w : Nat) : State := withCommand s (BitVec.ofNat 32 (w % 2 ^ nbits))

end Sys2Proof.Machine
end

