-- ==== Sys2Proof/Safety.lean ====
section
/-! DEFINITION. Runs and good runs (R259), and the invariant that ties the block's state together: what R34 to R50 say of the
registers and buffers in every phase. -/

namespace Sys2Proof.Machine

/-! ## Runs -/

/-- The state a step's outcome leaves: a fault or a refusal sets its mark (R246, R248) and has no other effect. R246 says
so of a fault; that a refusal has none either, and that the access stays pending, is DEDUCED (log entry 5). -/
def State.mark (s : State) : Host.Outcome State Fault Refusal → State
  | .next t => t
  | .fault f => { s with faulted := some f }
  | .refused r => { s with refused := some r }

/-- The state after one step, marks included. -/
def State.after (s : State) : State := s.mark (step s)

/-- The state after n steps, marks included. -/
def State.run : Nat → State → State
  | 0, s => s
  | n + 1, s => State.run n s.after

/-- The run of a sequence of host accesses from a state (R259). -/
def State.runAccesses (s : State) (xs : List HostAccess) : State := State.run xs.length { s with pending := xs }

/-- A run is good when neither mark is set at its end (R259). -/
def State.good (s : State) : Prop := s.faulted = none ∧ s.refused = none

/-! ## Terms the claims use -/

/-- The encoder command of a scheme (R146). -/
def encoderOf : Ecc → Nat → Instr
  | .rs, i => .rsEnc i
  | .rsSbl, i => .rsSblEnc i
  | .bch4, i => .bch4Enc i
  | .bch8, i => .bch8Enc i

/-- What RES shows after a Galois-field command on OPA = a, OPB = b; none if the command ends in an error response. -/
def resultOf (i : Instr) (s : State) (a b : Word) : Option Word :=
  match exec i { s with opa := a, opb := b } with
  | .next t => if t.resp = .ok then some t.res else none
  | .fault _ => none
  | .refused _ => none

/-- An n-byte host write at a numeric address. -/
def writeAt (a n : Nat) (v : Word) : HostAccess := .write (BitVec.ofNat 16 a) n v

/-- The write of an instruction's word to CMD. -/
def issueAt (i : Instr) : HostAccess := .write cmdAddr 4 (encode i)

/-- One-byte writes of a byte sequence from an address up. -/
def writeBytes (a : Nat) : List Byte → List HostAccess
  | [] => []
  | b :: bs => writeAt a 1 (b.setWidth 32) :: writeBytes (a + 1) bs

/-- What R228 has the host do for codeword i: BLOCK(c, i, raw) to ENC_IN, ENC_LEN, the encoder command of ecc(c). -/
def stageAccesses (P : Params) (c : Cfg) (raw : List Byte) (i : Nat) : List HostAccess :=
  writeBytes encBase ((P.geom c).block i raw) ++
    [writeAt 0x1C 4 (BitVec.ofNat 32 ((P.geom c).blockLen i)), issueAt (encoderOf c.ecc i)]

/-- The staged sequence of R228: SEGMENT, every codeword in order, COMPOSE. -/
def stagedProgram (P : Params) (c : Cfg) (raw : List Byte) : List HostAccess :=
  issueAt .segment :: (List.range (P.geom c).n).flatMap (stageAccesses P c raw) ++ [issueAt .compose]

/-- The boot order of R273, steps 1 to 4: CFG, CONFIGURE, RAW and RAW_LEN, PROGRAM. -/
def bootAccesses (c : Cfg) (raw : List Byte) : List HostAccess :=
  [writeAt 0x00 4 (cfgWord c), issueAt .configure] ++ writeBytes rawBase raw ++
    [writeAt 0x18 4 (BitVec.ofNat 32 raw.length), issueAt .program]

/-! ## The invariant -/

/-- An address of RAW, ENC_IN, PARBUF or DATA, the regions whose bytes are cells (R49, R61). -/
def isCellAddr (a : Nat) : Bool :=
  match regionOf a with
  | some .raw => true
  | some .encIn => true
  | some .parbuf => true
  | some .data => true
  | some .segtab => false
  | some .regs => false
  | none => false

/-- What the read-only registers GEOM_N, GEOM_D, GEOM_DL, GEOM_P and PAGECFG hold for a latched configuration (R47, R48). -/
def State.showsPage (P : Params) (s : State) : Option Cfg → Prop
  | none => s.geomN = 0 ∧ s.geomD = 0 ∧ s.geomDL = 0 ∧ s.geomP = 0 ∧ s.pageCfgReg = 0
  | some c =>
    s.geomN = BitVec.ofNat 32 (P.geom c).n ∧ s.geomD = BitVec.ofNat 32 (P.geom c).d ∧
    s.geomDL = BitVec.ofNat 32 (P.geom c).dl ∧ s.geomP = BitVec.ofNat 32 (P.geom c).p ∧ s.pageCfgReg = cfgWord c

/-- DATA_LEN in a phase (R46). -/
def State.dataLenOf (s : State) : Word :=
  match s.phase, s.pagecfg with
  | .programmed, some c => BitVec.ofNat 32 c.total
  | _, _ => 0

/-- The invariant over any parameters. -/
structure State.InvOf (P : Params) (s : State) : Prop where
  /-- Memory is in canonical form, and every cell lies in a buffer whose bytes are cells (R49, R61). -/
  mem_wf : s.mem.wf = true
  mem_place : ∀ x ∈ s.mem, isCellAddr x.1 = true
  /-- CFG's reserved bits are 0 (R36). -/
  cfg_legal : s.cfg &&& cfgMask = s.cfg
  /-- A configuration is latched exactly when the phase is not NO_PAGE, and it is supported (R33, R34, R217). -/
  page_phase : s.phase = .noPage ↔ s.pagecfg = none
  page_supported : ∀ c, s.pagecfg = some c → P.supported c = true
  /-- GEOM_* and PAGECFG show the latched configuration (R47, R48). -/
  shows : s.showsPage P s.pagecfg
  /-- DATA_LEN follows the phase (R46), and DATA is defined exactly at [0, DATA_LEN) (R49). -/
  data_len : s.dataLen = s.dataLenOf
  data_defined : ∀ k, k < dataCap → ((s.mem.get? (dataBase + k)).isSome = true ↔ k < s.dataLen.toNat)
  /-- Only slots below N are valid, and PARBUF byte k of slot i is defined exactly when PARVALID[i] and k < P (R49, R50). -/
  slot_lt : ∀ i, s.slotValid i = true → ∃ c, s.pagecfg = some c ∧ i < (P.geom c).n
  par_defined : ∀ i k, i < slots → k < parCap →
    ((s.mem.get? (slotBase i + k)).isSome = true ↔ s.slotValid i = true ∧ k < s.parityLen P)
  /-- PAR_LEN is 0 or P of the Page (R44). -/
  par_len : s.parLen = 0 ∨ ∃ c, s.pagecfg = some c ∧ s.parLen = BitVec.ofNat 32 (P.geom c).p
  /-- SEGTAB and SEG_COUNT are zero or those of the Page's segmentation (R45, R68, R185). -/
  segs : (s.segCount = 0 ∧ s.segtab = Vector.replicate 16 ⟨0, 0⟩) ∨
    ∃ c, s.pagecfg = some c ∧ s.segCount = BitVec.ofNat 32 (P.geom c).n ∧ s.segtab = segTable (P.geom c)
  /-- RES is below 2^m of some field (R41). -/
  res_elem : ∃ fld, s.res.toNat < (P.field fld).size

/-- The invariant of the machine. -/
def State.Inv (s : State) : Prop := s.InvOf Config.params

end Sys2Proof.Machine
end

