-- ==== Sys2Proof/Certificates/Slice0/Obligations.lean ====
section
/-! DEFINITION. The statements about the block, from the numbered rules of spec/. `Config.params` is any record that meets
WF_PARAMS (log entry 4), so a statement about it is one about every such record. -/

open Sys2Proof Sys2Proof.Machine Sys2Proof.Gf

/-! ## Encoding -/

/-- R86, R87, R91: every well-formed instruction is read back from its word, with every operand at every value. -/
def Obligations.DecodeReadsEncodedInstruction : Prop :=
  ∀ i : Instr, i.wellFormed = true → decodeWord (encode i) = .ok i

/-- R95: a word that decodes is the word of the instruction it decodes to, so each legal word has one meaning. -/
def Obligations.DecodedWordIsItsEncoding : Prop :=
  ∀ (w : Word) (i : Instr), decodeWord w = .ok i → i.wellFormed = true ∧ encode i = w

/-- R94: OPCODE 0x0 and 0xC to 0xF, a set reserved bit, a non-zero field the format does not use, and FLD = 3 are answered
ILLEGAL_COMMAND with the sub-cause of R93, and nothing but STATUS.ERR and STATUS.SUB changes. -/
def Obligations.RejectedWordsAreIllegalCommands : Prop :=
  ∀ (s : State) (w : Word) (rest : List HostAccess), s.faulted = none → s.refused = none →
    s.pending = .write cmdAddr 4 w :: rest →
    ((w.toNat / 2 ^ 28 = 0 ∨ 12 ≤ w.toNat / 2 ^ 28) →
      step s = .next { s with pending := rest, resp := .reservedOpcode }) ∧
    (1 ≤ w.toNat / 2 ^ 28 → w.toNat / 2 ^ 28 ≤ 11 →
      (w.toNat / 2 ^ 24 % 4 ≠ 0 ∨ w.toNat % 2 ^ 20 ≠ 0 ∨
        (w.toNat / 2 ^ 28 ≤ 3 ∧ w.toNat / 2 ^ 20 % 16 ≠ 0) ∨
        (4 ≤ w.toNat / 2 ^ 28 ∧ w.toNat / 2 ^ 28 ≤ 7 ∧ w.toNat / 2 ^ 26 % 4 ≠ 0) ∨
        (8 ≤ w.toNat / 2 ^ 28 ∧ (w.toNat / 2 ^ 26 % 4 ≠ 0 ∨ w.toNat / 2 ^ 20 % 16 ≠ 0))) →
      step s = .next { s with pending := rest, resp := .reservedBits }) ∧
    (1 ≤ w.toNat / 2 ^ 28 → w.toNat / 2 ^ 28 ≤ 3 → w.toNat / 2 ^ 24 % 4 = 0 → w.toNat % 2 ^ 20 = 0 →
      w.toNat / 2 ^ 20 % 16 = 0 → w.toNat / 2 ^ 26 % 4 = 3 →
      step s = .next { s with pending := rest, resp := .reservedFieldSelect }) ∧
    Response.reservedOpcode.err = 4 ∧ Response.reservedOpcode.sub = 1 ∧
    Response.reservedBits.err = 4 ∧ Response.reservedBits.sub = 2 ∧
    Response.reservedFieldSelect.err = 4 ∧ Response.reservedFieldSelect.sub = 3

/-- R97: words of every family, written out from the spec's table, decode to the commands they stand for. -/
def Obligations.SampleWordsDecode : Prop :=
  decodeWord 0x10000000 = .ok (.gfMul .rs) ∧ decodeWord 0x14000000 = .ok (.gfMul .bch4) ∧
  decodeWord 0x28000000 = .ok (.gfDiv .bch8) ∧ decodeWord 0x34000000 = .ok (.gfPow .bch4) ∧
  decodeWord 0x40300000 = .ok (.rsEnc 3) ∧ decodeWord 0x50F00000 = .ok (.rsSblEnc 15) ∧
  decodeWord 0x60700000 = .ok (.bch4Enc 7) ∧ decodeWord 0x70100000 = .ok (.bch8Enc 1) ∧
  decodeWord 0x80000000 = .ok .segment ∧ decodeWord 0x90000000 = .ok .compose ∧
  decodeWord 0xA0000000 = .ok .configure ∧ decodeWord 0xB0000000 = .ok .program

/-! ## Steps -/

/-- R37, R72: when the host's next access writes a legal command word to CMD, a step is that command's meaning at the state from
which the access is taken. -/
def Obligations.StepRunsDecodedCommand : Prop :=
  ∀ (s : State) (w : Word) (i : Instr) (rest : List HostAccess), s.faulted = none → s.refused = none →
    s.pending = .write cmdAddr 4 w :: rest → decodeWord w = .ok i → step s = exec i { s with pending := rest }

/-- R31, R72, R253, R271: a step performs the host's oldest pending access and nothing else; with none pending nothing changes
(that the step then answers the same state is the model's choice, log entry 1). -/
def Obligations.StepPerformsOldestHostAccess : Prop :=
  (∀ (s : State) (x : HostAccess) (rest : List HostAccess), s.faulted = none → s.refused = none →
    s.pending = x :: rest → step s = access x { s with pending := rest }) ∧
  (∀ s : State, s.faulted = none → s.refused = none → s.pending = [] → step s = .next s)

/-- A step that faults or is refused sets its mark and has no other effect; the marked state answers the same fault or refusal
again, makes no further step, and keeps its mark. From the spec: that the mark is set and never cleared (R54, R246, R248), and that
a fault performs no further effect and leaves no further step (R246). The model's choice (log entry 5, DEDUCED): that a refusal has
no other effect and that a refused state makes no further step, where R248 only gives the run no meaning from there; that a marked
state answers its fault or refusal again; and that the access that faulted or was refused stays pending in the marked state. -/
def Obligations.MarkedStateIsStuck : Prop :=
  (∀ (s : State) (f : Fault), step s = .fault f →
    s.after = { s with faulted := some f } ∧ step s.after = .fault f ∧ ∀ n, State.run n s.after = s.after) ∧
  (∀ (s : State) (r : Refusal), step s = .refused r →
    s.after = { s with refused := some r } ∧ step s.after = .refused r ∧ ∀ n, State.run n s.after = s.after)

/-- R55: after reset every register reads 0, the phase is NO_PAGE, no configuration is latched, no byte of RAW, ENC_IN, PARBUF
and DATA has a value, no slot is valid, every SEGTAB entry is zero, and the marks are false. -/
def Obligations.ResetLeavesNoPage : Prop :=
  (∀ r : Reg, readReg r State.reset = 0) ∧ State.reset.phase = .noPage ∧ State.reset.pagecfg = none ∧
  (∀ a, State.reset.mem.get? a = none) ∧ (∀ i, State.reset.slotValid i = false) ∧
  (∀ i : Fin 16, State.reset.segtab[i] = ⟨0, 0⟩) ∧ State.reset.faulted = none ∧ State.reset.refused = none

/-! ## STATUS -/

/-- R38: STATUS holds PHASE at [1:0], 0 at [3:2] (BUSY is always 0), ERR at [7:4], SUB at [11:8] and 0 above; a write to it is
ignored; every command word overwrites ERR and SUB, whatever they were (0 and 0 on success), and no other access changes them.
The codes are those of the tables of R39 and R40. -/
def Obligations.StatusShowsPhaseAndResponse : Prop :=
  State.reset.resp = .ok ∧ statusWord State.reset = 0 ∧
  (∀ s : State, (statusWord s).toNat = s.phase.code.toNat + 16 * s.resp.err.toNat + 256 * s.resp.sub.toNat) ∧
  (∀ s : State, access (.read 0x08 4) s = .next { s with observed := s.observed ++ [statusWord s] }) ∧
  (∀ (s : State) (v : Word), access (writeAt 0x08 4 v) s = .next s) ∧
  [Phase.noPage, .unprogrammed, .programmed].map Phase.code = [0, 1, 2] ∧
  [Response.ok, .reservedOobSelect, .unsupportedTuple, .invalidInput, .divByZero, .blockLength, .parityLength,
    .segmentation, .layoutLength, .parityMissing, .reservedOpcode, .reservedBits, .reservedFieldSelect, .slotRange,
    .schemeMismatch, .operandRange, .notConfigured].map (fun r => (r.err.toNat, r.sub.toNat)) =
    [(0, 0), (1, 1), (1, 2), (2, 0), (3, 1), (3, 2), (3, 3), (3, 4), (3, 5), (3, 6), (4, 1), (4, 2), (4, 3), (4, 4),
      (4, 5), (4, 6), (5, 0)] ∧
  (∀ (w : Word) (s : State) (r : Response),
    access (.write cmdAddr 4 w) { s with resp := r } = access (.write cmdAddr 4 w) s) ∧
  ∀ (x : HostAccess) (s t : State), (∀ n v, x ≠ .write cmdAddr n v) → access x s = .next t → t.resp = s.resp

/-- R38, R282: an access that is not a write to CMD leaves STATUS as it was: PHASE, ERR and SUB. -/
def Obligations.OnlyCommandsChangeStatus : Prop :=
  ∀ (s t : State) (x : HostAccess) (rest : List HostAccess), s.pending = x :: rest → step s = .next t →
    (∀ n v, x ≠ .write cmdAddr n v) → t.resp = s.resp ∧ t.phase = s.phase ∧ statusWord t = statusWord s

/-! ## Galois-field commands -/

/-- R112: the three commands complete in every phase, and change nothing but RES and STATUS.ERR and SUB; on an error response RES
keeps its value. -/
def Obligations.GfCommandsChangeOnlyResAndStatus : Prop :=
  ∀ (i : Instr) (fld : Fld) (s : State), (i = .gfMul fld ∨ i = .gfDiv fld ∨ i = .gfPow fld) →
    ∃ (v : Word) (r : Response), exec i s = .next { s with res := v, resp := r } ∧ (r ≠ .ok → v = s.res)

/-- R111: OPA is checked against 2^m by all three commands and OPB by GF_MUL and GF_DIV; a failed check is OPERAND_RANGE and
writes nothing else; GF_POW takes every exponent. -/
def Obligations.GfOperandsAreRangeChecked : Prop :=
  ∀ (fld : Fld) (s : State),
    (((Config.params.field fld).size ≤ s.opa.toNat ∨ (Config.params.field fld).size ≤ s.opb.toNat) →
      exec (.gfMul fld) s = .next { s with resp := .operandRange } ∧
      exec (.gfDiv fld) s = .next { s with resp := .operandRange }) ∧
    ((Config.params.field fld).size ≤ s.opa.toNat → exec (.gfPow fld) s = .next { s with resp := .operandRange }) ∧
    (s.opa.toNat < (Config.params.field fld).size →
      ∃ v, exec (.gfPow fld) s = .next { s with res := v, resp := .ok })

/-- R113: GF_MUL's three words decode to it; (m, p) is the width and polynomial of the field FLD selects (their values:
`FldSelectsTheSchemesField`); with both operands below 2^m it writes pmod(clmul(a, b), p), which is below 2^m, to
RES and answers NONE; otherwise it answers OPERAND_RANGE; 0 times anything is 0, 1 times b is b, and 3 times 5 in F_RS is 0xF. -/
def Obligations.GfMulWritesFieldProduct : Prop :=
  Config.params.field .rs = ⟨10, Config.params.primRS⟩ ∧
  Config.params.field .bch4 = ⟨Config.params.mBCH4, Config.params.primBCH4⟩ ∧
  Config.params.field .bch8 = ⟨Config.params.mBCH8, Config.params.primBCH8⟩ ∧
  decodeWord 0x10000000 = .ok (.gfMul .rs) ∧ decodeWord 0x14000000 = .ok (.gfMul .bch4) ∧
  decodeWord 0x18000000 = .ok (.gfMul .bch8) ∧
  (∀ (fld : Fld) (s : State),
    ((Config.params.field fld).size ≤ s.opa.toNat ∨ (Config.params.field fld).size ≤ s.opb.toNat →
      exec (.gfMul fld) s = .next { s with resp := .operandRange }) ∧
    (s.opa.toNat < (Config.params.field fld).size → s.opb.toNat < (Config.params.field fld).size →
      ∃ v, exec (.gfMul fld) s = .next { s with res := BitVec.ofNat 32 v, resp := .ok } ∧
        v = pmod (clmul s.opa.toNat s.opb.toNat) (Config.params.field fld).p ∧
        v < (Config.params.field fld).size ∧ v < 2 ^ 32 ∧
        (s.opa.toNat = 0 ∨ s.opb.toNat = 0 → v = 0) ∧ (s.opa.toNat = 1 → v = s.opb.toNat))) ∧
  ∀ s : State, s.opa = 3 → s.opb = 5 → exec (.gfMul .rs) s = .next { s with res := 0xF, resp := .ok }

/-- The laws of multiplication (the spec's own inference, rule 114 of 40_gf_arith.md), on the values
RES shows: commutative, associative, distributive over XOR, and 0 exactly when an operand is 0. -/
def Obligations.GfMulIsAFieldMultiplication : Prop :=
  ∀ (fld : Fld) (s : State) (a b c : Word), a.toNat < (Config.params.field fld).size →
    b.toNat < (Config.params.field fld).size → c.toNat < (Config.params.field fld).size →
    ∃ ab bc ac : Word,
      resultOf (.gfMul fld) s a b = some ab ∧ resultOf (.gfMul fld) s b c = some bc ∧
      resultOf (.gfMul fld) s a c = some ac ∧
      resultOf (.gfMul fld) s b a = some ab ∧
      resultOf (.gfMul fld) s ab c = resultOf (.gfMul fld) s a bc ∧ (resultOf (.gfMul fld) s ab c).isSome = true ∧
      resultOf (.gfMul fld) s a (b ^^^ c) = some (ab ^^^ ac) ∧
      (ab = 0 ↔ a = 0 ∨ b = 0)

/-- The table form of GF_MUL (the spec's inference in rule 115 of 40_gf_arith.md): every non-zero element is alog[k] for exactly
one k below 2^m − 1, where alog[k] is x^k modulo p, and mul(alog[i], alog[j]) = alog[(i + j) mod (2^m − 1)]. -/
def Obligations.GfMulIsTheLogTableForm : Prop :=
  ∀ (fld : Fld) (s : State),
    (∀ a : Nat, 0 < a → a < (Config.params.field fld).size →
      ∃ k, (k < (Config.params.field fld).size - 1 ∧ pmod (2 ^ k) (Config.params.field fld).p = a) ∧
        ∀ k', k' < (Config.params.field fld).size - 1 → pmod (2 ^ k') (Config.params.field fld).p = a → k' = k) ∧
    (∀ i j : Nat, i < (Config.params.field fld).size - 1 → j < (Config.params.field fld).size - 1 →
      resultOf (.gfMul fld) s (BitVec.ofNat 32 (pmod (2 ^ i) (Config.params.field fld).p))
          (BitVec.ofNat 32 (pmod (2 ^ j) (Config.params.field fld).p)) =
        some (BitVec.ofNat 32
          (pmod (2 ^ ((i + j) % ((Config.params.field fld).size - 1))) (Config.params.field fld).p)))

/-- R116: GF_DIV's three words decode to it; (m, p) is the width and polynomial of the field FLD selects (their values:
`FldSelectsTheSchemesField`); an operand not below 2^m is OPERAND_RANGE; then b = 0 is DIV_BY_ZERO, whatever a is;
otherwise it writes the unique c with mul(c, b) = a to RES and answers NONE; 0xF divided by 5 in F_RS is 3. -/
def Obligations.GfDivWritesUniqueQuotient : Prop :=
  Config.params.field .rs = ⟨10, Config.params.primRS⟩ ∧
  Config.params.field .bch4 = ⟨Config.params.mBCH4, Config.params.primBCH4⟩ ∧
  Config.params.field .bch8 = ⟨Config.params.mBCH8, Config.params.primBCH8⟩ ∧
  decodeWord 0x20000000 = .ok (.gfDiv .rs) ∧ decodeWord 0x24000000 = .ok (.gfDiv .bch4) ∧
  decodeWord 0x28000000 = .ok (.gfDiv .bch8) ∧
  (∀ (fld : Fld) (s : State),
    ((Config.params.field fld).size ≤ s.opa.toNat ∨ (Config.params.field fld).size ≤ s.opb.toNat →
      exec (.gfDiv fld) s = .next { s with resp := .operandRange }) ∧
    (s.opa.toNat < (Config.params.field fld).size → s.opb = 0 →
      exec (.gfDiv fld) s = .next { s with resp := .divByZero }) ∧
    (s.opa.toNat < (Config.params.field fld).size → s.opb.toNat < (Config.params.field fld).size → s.opb ≠ 0 →
      ∃ c, exec (.gfDiv fld) s = .next { s with res := BitVec.ofNat 32 c, resp := .ok } ∧
        c < (Config.params.field fld).size ∧ c < 2 ^ 32 ∧
        gfMul (Config.params.field fld) c s.opb.toNat = s.opa.toNat ∧
        ∀ c', c' < (Config.params.field fld).size →
          gfMul (Config.params.field fld) c' s.opb.toNat = s.opa.toNat → c' = c)) ∧
  ∀ s : State, s.opa = 0xF → s.opb = 5 → exec (.gfDiv .rs) s = .next { s with res := 3, resp := .ok }

/-- The corner cases and the table form of GF_DIV (the spec's own inference, rule 117 of 40_gf_arith.md). -/
def Obligations.GfDivCornerCases : Prop :=
  ∀ (fld : Fld) (s : State) (a b : Word), a.toNat < (Config.params.field fld).size →
    b.toNat < (Config.params.field fld).size → b ≠ 0 →
    resultOf (.gfDiv fld) s 0 b = some 0 ∧ resultOf (.gfDiv fld) s a 1 = some a ∧ resultOf (.gfDiv fld) s b b = some 1 ∧
    resultOf (.gfDiv fld) s 1 b =
      some (BitVec.ofNat 32 (gfPowLoop (Config.params.field fld) b.toNat ((Config.params.field fld).size - 2))) ∧
    ∀ i j : Nat, i < (Config.params.field fld).size - 1 → j < (Config.params.field fld).size - 1 →
      resultOf (.gfDiv fld) s (BitVec.ofNat 32 (pmod (2 ^ i) (Config.params.field fld).p))
          (BitVec.ofNat 32 (pmod (2 ^ j) (Config.params.field fld).p)) =
        some (BitVec.ofNat 32 (pmod (2 ^ ((i + ((Config.params.field fld).size - 1) - j) %
          ((Config.params.field fld).size - 1))) (Config.params.field fld).p))

/-- Division undoes multiplication and multiplication undoes division (the spec's own inference, rule 118 of 40_gf_arith.md), by
two commands in a row: GF_DIV, then RES to OPA, then GF_MUL; and the other way round. -/
def Obligations.GfDivAndMulUndoEachOther : Prop :=
  ∀ (fld : Fld) (s : State), s.opa.toNat < (Config.params.field fld).size →
    s.opb.toNat < (Config.params.field fld).size → s.opb ≠ 0 →
    (∃ t, exec (.gfDiv fld) s = .next t ∧
      exec (.gfMul fld) { t with opa := t.res } = .next { t with opa := t.res, res := s.opa, resp := .ok }) ∧
    (∃ t, exec (.gfMul fld) s = .next t ∧
      exec (.gfDiv fld) { t with opa := t.res } = .next { t with opa := t.res, res := s.opa, resp := .ok })

/-- R119: GF_POW's three words decode to it; (m, p) is the width and polynomial of the field FLD selects (their values:
`FldSelectsTheSchemesField`); a base not below 2^m is OPERAND_RANGE; otherwise, for every exponent n, it writes 1
multiplied n times by a to RES and answers NONE; 3 squared in F_RS is 5. -/
def Obligations.GfPowMultipliesExponentTimes : Prop :=
  Config.params.field .rs = ⟨10, Config.params.primRS⟩ ∧
  Config.params.field .bch4 = ⟨Config.params.mBCH4, Config.params.primBCH4⟩ ∧
  Config.params.field .bch8 = ⟨Config.params.mBCH8, Config.params.primBCH8⟩ ∧
  decodeWord 0x30000000 = .ok (.gfPow .rs) ∧ decodeWord 0x34000000 = .ok (.gfPow .bch4) ∧
  decodeWord 0x38000000 = .ok (.gfPow .bch8) ∧
  (∀ (fld : Fld) (s : State),
    ((Config.params.field fld).size ≤ s.opa.toNat → exec (.gfPow fld) s = .next { s with resp := .operandRange }) ∧
    (s.opa.toNat < (Config.params.field fld).size →
      exec (.gfPow fld) s = .next { s with
        res := BitVec.ofNat 32 (gfPowLoop (Config.params.field fld) s.opa.toNat s.opb.toNat), resp := .ok })) ∧
  ∀ s : State, s.opa = 3 → s.opb = 2 → exec (.gfPow .rs) s = .next { s with res := 5, resp := .ok }

/-- The corner cases of GF_POW (the spec's own inference, rule 120 of 40_gf_arith.md): n = 0, a = 0, a = 1, the exponent reduced
modulo 2^m − 1 for a non-zero base, n = 2^m − 1, the inverse, and the table form. -/
def Obligations.GfPowCornerCases : Prop :=
  ∀ (fld : Fld) (s : State) (a n : Word), a.toNat < (Config.params.field fld).size →
    resultOf (.gfPow fld) s a 0 = some 1 ∧ (n ≠ 0 → resultOf (.gfPow fld) s 0 n = some 0) ∧
    resultOf (.gfPow fld) s 1 n = some 1 ∧
    (a ≠ 0 →
      resultOf (.gfPow fld) s a n =
        resultOf (.gfPow fld) s a (BitVec.ofNat 32 (n.toNat % ((Config.params.field fld).size - 1))) ∧
      resultOf (.gfPow fld) s a (BitVec.ofNat 32 ((Config.params.field fld).size - 1)) = some 1 ∧
      resultOf (.gfPow fld) s a (BitVec.ofNat 32 ((Config.params.field fld).size - 2)) = resultOf (.gfDiv fld) s 1 a) ∧
    ∀ i : Nat, i < (Config.params.field fld).size - 1 →
      resultOf (.gfPow fld) s (BitVec.ofNat 32 (pmod (2 ^ i) (Config.params.field fld).p)) n =
        some (BitVec.ofNat 32 (pmod (2 ^ (i * n.toNat % ((Config.params.field fld).size - 1)))
          (Config.params.field fld).p))

/-- R41: OPA and OPB hold every value written and read it back; a host write to RES is ignored; RES is written only by a
successful Galois-field command, with a value below 2^m of its field. -/
def Obligations.ResIsWrittenOnlyByGfCommands : Prop :=
  State.reset.opa = 0 ∧ State.reset.opb = 0 ∧ State.reset.res = 0 ∧
  (∀ (s : State) (v : Word), access (writeAt 0x0C 4 v) s = .next { s with opa := v } ∧
    access (writeAt 0x10 4 v) s = .next { s with opb := v } ∧ access (writeAt 0x14 4 v) s = .next s ∧
    access (.read 0x0C 4) s = .next { s with observed := s.observed ++ [s.opa] } ∧
    access (.read 0x10 4) s = .next { s with observed := s.observed ++ [s.opb] } ∧
    access (.read 0x14 4) s = .next { s with observed := s.observed ++ [s.res] }) ∧
  (∀ (i : Instr) (s t : State), exec i s = .next t → t.res = s.res ∨
    t.resp = .ok ∧ ∃ fld, (i = .gfMul fld ∨ i = .gfDiv fld ∨ i = .gfPow fld) ∧
      t.res.toNat < (Config.params.field fld).size) ∧
  ∀ (x : HostAccess) (s t : State), (∀ n w i, decodeWord w = .ok i → x ≠ .write cmdAddr n w) → access x s = .next t →
    t.res = s.res

/-! ## Encoders -/

/-- R145, R146, R140: ENCODE is RS_PARITY for RS and RS_SBL, BCH_PARITY with G_BCH4 for BCH4 and with G_BCH8 for BCH8; each of the
four encoder commands, on a Page of its own scheme with a slot below N, a block of length L(c, i) and
every byte of it defined, completes: the slot holds ENCODE(e, block), PARVALID and PAR_LEN are set, and nothing else changes;
and each failing check, in its order, answers its response, with nothing but STATUS changed, or faults. -/
def Obligations.EncoderCommandFollowsTheFrame : Prop :=
  (∀ blk : List Byte,
    Config.params.encode .rs blk = Config.params.rsParity blk ∧
    Config.params.encode .rsSbl blk = Config.params.rsParity blk ∧
    Config.params.encode .bch4 blk = Config.params.bchParity Config.params.gBCH4 blk ∧
    Config.params.encode .bch8 blk = Config.params.bchParity Config.params.gBCH8 blk) ∧
  ∀ (e : Ecc) (i : Nat) (s : State),
    (s.phase = .noPage → exec (encoderOf e i) s = .next { s with resp := .notConfigured }) ∧
    ∀ c : Cfg, s.phase ≠ .noPage → s.pagecfg = some c → Config.params.supported c = true →
      (c.ecc ≠ e → exec (encoderOf e i) s = .next { s with resp := .schemeMismatch }) ∧
      (c.ecc = e → (Config.params.geom c).n ≤ i → exec (encoderOf e i) s = .next { s with resp := .slotRange }) ∧
      (c.ecc = e → i < (Config.params.geom c).n → s.encLen.toNat ≠ (Config.params.geom c).blockLen i →
        exec (encoderOf e i) s = .next { s with resp := .blockLength }) ∧
      (c.ecc = e → i < (Config.params.geom c).n → s.encLen.toNat = (Config.params.geom c).blockLen i →
        (∃ k, k < (Config.params.geom c).blockLen i ∧ s.mem.get? (encBase + k) = none) →
        exec (encoderOf e i) s = .fault .undefinedRead) ∧
      (c.ecc = e → i < (Config.params.geom c).n → s.encLen.toNat = (Config.params.geom c).blockLen i →
        ∀ blk : List Byte, blk.length = (Config.params.geom c).blockLen i →
        (∀ k, k < blk.length → s.mem.get? (encBase + k) = blk[k]?) →
        ∃ t, exec (encoderOf e i) s = .next t ∧
          t = { s with
            resp := .ok, parLen := BitVec.ofNat 32 (Config.params.geom c).p,
            parValid := s.parValid.setIfInBounds i true, mem := t.mem } ∧
          t.slotValid i = true ∧
          (Config.params.encode e blk).length = (Config.params.geom c).p ∧
          ∀ a : Nat, t.mem.get? a =
            if slotBase i ≤ a ∧ a < slotBase i + (Config.params.geom c).p then
              (Config.params.encode e blk)[a - slotBase i]?
            else s.mem.get? a)

/-- R143: the systematic Reed-Solomon codeword x^NSYM · d(x) ⊕ r(x) is a multiple of G_RS, and the parity has P bytes, for every
well-formed record and every block. -/
def Obligations.RsCodewordIsMultipleOfGenerator : Prop :=
  ∀ (P : Params), P.WF → ∀ s : List Byte,
    (P.rsRemainder s).length = P.nsym ∧ (∀ r ∈ P.rsRemainder s, r < 2 ^ mRS) ∧
    polyMod P.fieldRS P.gRS (P.rsSymbols s ++ (P.rsRemainder s).reverse) = List.replicate P.nsym 0 ∧
    P.rsParity s = P.rsPack (P.rsRemainder s).reverse ∧ (P.rsParity s).length = bytesFor (P.nsym * mRS)

/-- The laws of RS_PARITY (the spec's own inference, rule 144 of 41_ecc_encoders.md): linear over GF(2) for blocks of one length,
and zero bytes for an all-zero block, for every well-formed record. -/
def Obligations.RsParityIsLinear : Prop :=
  ∀ (P : Params), P.WF →
    (∀ s s' : List Byte, s.length = s'.length →
      P.rsParity (List.zipWith (· ^^^ ·) s s') = List.zipWith (· ^^^ ·) (P.rsParity s) (P.rsParity s')) ∧
    ∀ n : Nat, P.rsParity (List.replicate n 0) = List.replicate (bytesFor (P.nsym * mRS)) 0

/-- The laws of BCH_PARITY (the spec's own inference, rule 158 of 41_ecc_encoders.md), for every well-formed record and the
generators of both schemes: linear over GF(2), zero bytes for an all-zero block, x^R · d(x) ⊕ r(x) a multiple of g, where r(x)
is the remainder the parity bytes pack, and, under the MSB convention, a leading zero byte changes nothing. -/
def Obligations.BchParityIsLinearAndSystematic : Prop :=
  ∀ (P : Params) (g : Nat), P.WF → (g = P.gBCH4 ∨ g = P.gBCH8) →
    (∀ s s' : List Byte, s.length = s'.length →
      P.bchParity g (List.zipWith (· ^^^ ·) s s') = List.zipWith (· ^^^ ·) (P.bchParity g s) (P.bchParity g s')) ∧
    (∀ n : Nat, P.bchParity g (List.replicate n 0) = List.replicate (bytesFor (deg g)) 0) ∧
    (∀ s : List Byte, P.bchParity g s = P.bchPack (deg g) (P.bchRemainder g s) ∧ P.bchRemainder g s < 2 ^ deg g ∧
      pmod (clmul (P.bchPoly s) (2 ^ deg g) ^^^ P.bchRemainder g s) g = 0) ∧
    ((∀ L, P.unpackBCH L = Params.msbMap (8 * L) (8 * L)) → ∀ s : List Byte, P.bchParity g (0 :: s) = P.bchParity g s)

/-! ## SEGMENT -/

/-- R185: SEGMENT answers NOT_CONFIGURED in NO_PAGE; on a Page it completes: SEGTAB[i] is (OFF_i, LEN_i) for i < N and (0, 0)
from N up, SEG_COUNT is N, and nothing else changes. -/
def Obligations.SegmentWritesTheSegmentation : Prop :=
  decodeWord 0x80000000 = .ok .segment ∧
  ∀ s : State,
    (s.phase = .noPage → exec .segment s = .next { s with resp := .notConfigured }) ∧
    ∀ c : Cfg, s.phase ≠ .noPage → s.pagecfg = some c → Config.params.supported c = true →
      ∃ t, exec .segment s = .next t ∧
        t = { s with resp := .ok, segCount := BitVec.ofNat 32 (Config.params.geom c).n, segtab := t.segtab } ∧
        ∀ i : Fin 16, t.segtab[i] =
          if i.val < (Config.params.geom c).n then
            ⟨BitVec.ofNat 32 ((List.range i.val).map (Config.params.geom c).dsz).sum,
              BitVec.ofNat 32 ((Config.params.geom c).dsz i.val)⟩
          else ⟨0, 0⟩

/-- The segmentation partitions the page (the spec's own inference, rule 182 of 42_segmenter.md): after SEGMENT the SEGTAB
entries below SEG_COUNT start at 0, follow each other without gap or overlap, are not empty, and end at page_size. -/
def Obligations.SegmentTablePartitionsThePage : Prop :=
  ∀ (s t : State) (c : Cfg), s.phase ≠ .noPage → s.pagecfg = some c → Config.params.supported c = true →
    exec .segment s = .next t →
    1 ≤ t.segCount.toNat ∧ t.segCount.toNat ≤ 16 ∧ (t.segEntry 0).off = 0 ∧
    (∀ i, i < t.segCount.toNat → 1 ≤ (t.segEntry i).len.toNat) ∧
    (∀ i, i + 1 < t.segCount.toNat →
      (t.segEntry (i + 1)).off.toNat = (t.segEntry i).off.toNat + (t.segEntry i).len.toNat) ∧
    (t.segEntry (t.segCount.toNat - 1)).off.toNat + (t.segEntry (t.segCount.toNat - 1)).len.toNat = c.page

/-- SEGMENT twice leaves the state SEGMENT once leaves, it does not invalidate DATA, and RAW_LEN is of no effect (the spec's own
inference, rule 186 of 42_segmenter.md). -/
def Obligations.SegmentIsIdempotent : Prop :=
  ∀ s t : State, exec .segment s = .next t →
    exec .segment t = .next t ∧ t.phase = s.phase ∧ t.dataLen = s.dataLen ∧ t.mem = s.mem ∧
    ∀ v : Word, exec .segment { s with rawLen := v } = .next { t with rawLen := v }

/-! ## COMPOSE -/

/-- R203, R196, R202: COMPOSE's checks in their order, each with its response, and INVALIDATE where the rule says so (phase
UNPROGRAMMED, DATA_LEN 0, DATA undefined, everything else as it was); with RAW and
every slot's parity present it completes: DATA byte p is what LAYOUT[p] stands for, DATA_LEN is page_size + oob_size, the phase
is PROGRAMMED, and nothing else changes. -/
def Obligations.ComposeWritesTheLayout : Prop :=
  decodeWord 0x90000000 = .ok .compose ∧
  (∀ s : State, invalidate s = { s with phase := .unprogrammed, dataLen := 0, mem := (invalidate s).mem } ∧
    (∀ k, k < dataCap → (invalidate s).mem.get? (dataBase + k) = none) ∧
    ∀ a, (a < dataBase ∨ dataBase + dataCap ≤ a) → (invalidate s).mem.get? a = s.mem.get? a) ∧
  ∀ s : State,
    (s.phase = .noPage → exec .compose s = .next { s with resp := .notConfigured }) ∧
    ∀ c : Cfg, s.phase ≠ .noPage → s.pagecfg = some c → Config.params.supported c = true →
      (s.rawLen.toNat ≠ c.page → exec .compose s = .next { invalidate s with resp := .invalidInput }) ∧
      (s.rawLen.toNat = c.page → (∃ i, i < (Config.params.geom c).n ∧ s.slotValid i = false) →
        exec .compose s = .next { invalidate s with resp := .parityMissing }) ∧
      (s.rawLen.toNat = c.page → (∀ i, i < (Config.params.geom c).n → s.slotValid i = true) →
        (∃ k, k < c.page ∧ s.mem.get? (rawBase + k) = none) → exec .compose s = .fault .undefinedRead) ∧
      (s.rawLen.toNat = c.page → (∀ i, i < (Config.params.geom c).n → s.slotValid i = true) →
        (∀ k, k < c.page → (s.mem.get? (rawBase + k)).isSome = true) →
        (∀ i k, i < (Config.params.geom c).n → k < (Config.params.geom c).p →
          (s.mem.get? (slotBase i + k)).isSome = true) →
        ∃ t, exec .compose s = .next t ∧
          t = { s with resp := .ok, phase := .programmed, dataLen := BitVec.ofNat 32 c.total, mem := t.mem } ∧
          (∀ p, p < c.total → ∃ b, t.mem.get? (dataBase + p) = some b ∧
            match (Config.params.geom c).layout[p]? with
            | some (.data j) => s.mem.get? (rawBase + j) = some b
            | some (.par i k) => s.mem.get? (slotBase i + k) = some b
            | some .fill => b = 0xFF
            | some (.const v) => b = v
            | none => False) ∧
          (∀ p, c.total ≤ p → p < dataCap → t.mem.get? (dataBase + p) = none) ∧
          ∀ a, (a < dataBase ∨ dataBase + dataCap ≤ a) → t.mem.get? a = s.mem.get? a)

/-! ## CONFIGURE -/

/-- R217: CONFIGURE's answers in their order: the reserved OOB selection, the widebus refusal, the unsupported tuple, success. A
failed CONFIGURE leaves NO_PAGE and everything CLEAR names cleared; a successful one clears the same, latches the
configuration and shows its geometry. RAW, ENC_IN, RAW_LEN, ENC_LEN, OPA, OPB, RES and CFG are never changed. -/
def Obligations.ConfigureConstructsThePage : Prop :=
  decodeWord 0xA0000000 = .ok .configure ∧
  ∀ s : State,
    (s.cfg.toNat / 2 % 4 = 3 → ∃ t, exec .configure s = .next t ∧ t.resp = .reservedOobSelect ∧ t.phase = .noPage ∧
      t.pagecfg = none ∧ t.showsPage Config.params none) ∧
    (s.cfg.toNat / 2 % 4 ≠ 3 → s.cfg.toNat / 32 % 2 = 1 → exec .configure s = .refused .widebusUnmodelled) ∧
    (s.cfg.toNat / 2 % 4 ≠ 3 → s.cfg.toNat / 32 % 2 = 0 → ∃ (c : Cfg) (t : State), exec .configure s = .next t ∧
      c.page = (if s.cfg.toNat % 2 = 0 then 2048 else 4096) ∧
      c.oobSize.bytes = 64 * 2 ^ (s.cfg.toNat / 2 % 4) ∧
      [Ecc.rs, .rsSbl, .bch4, .bch8][s.cfg.toNat / 8 % 4]? = some c.ecc ∧ c.widebus = false ∧
      (Config.params.supported c = false →
        t.resp = .unsupportedTuple ∧ t.phase = .noPage ∧ t.pagecfg = none ∧ t.showsPage Config.params none) ∧
      (Config.params.supported c = true →
        t.resp = .ok ∧ t.phase = .unprogrammed ∧ t.pagecfg = some c ∧ t.showsPage Config.params (some c))) ∧
    ∀ t, exec .configure s = .next t →
      t = { s with
        resp := t.resp, phase := t.phase, pagecfg := t.pagecfg, geomN := t.geomN, geomD := t.geomD, geomDL := t.geomDL,
        geomP := t.geomP, pageCfgReg := t.pageCfgReg, dataLen := 0, parLen := 0, segCount := 0,
        parValid := Vector.replicate 16 false, segtab := Vector.replicate 16 ⟨0, 0⟩, mem := t.mem } ∧
      (∀ k, k < dataCap → t.mem.get? (dataBase + k) = none) ∧
      (∀ k, k < slots * parCap → t.mem.get? (parBase + k) = none) ∧
      ∀ a, (a < parBase ∨ parBase + slots * parCap ≤ a) → (a < dataBase ∨ dataBase + dataCap ≤ a) →
        t.mem.get? a = s.mem.get? a

/-- R221: the five listed configurations always construct a Page, in every phase; any other configuration with widebus false does
exactly when it is in SUPPORTED. -/
def Obligations.FiveTuplesConstructAPage : Prop :=
  (∀ c ∈ Cfg.five, ∀ s : State, s.cfg = cfgWord c →
    ∃ t, exec .configure s = .next t ∧ t.resp = .ok ∧ t.phase = .unprogrammed ∧ t.pagecfg = some c) ∧
  ∀ (c : Cfg) (s : State), c.widebus = false → s.cfg = cfgWord c →
    ∃ t, exec .configure s = .next t ∧ (t.resp = .ok ↔ Config.params.supported c = true) ∧
      (t.resp = .unsupportedTuple ↔ Config.params.supported c = false)

/-- R222: a CONFIGURE with CFG.WB = 1 and CFG.OOBS not 3 marks the state refused, so that its run is not good. That the refusal
has no other effect and the refused state then makes no further step is the model's choice (log entry 5): R222 and R248 say only
that nothing further is stated. -/
def Obligations.WidebusConfigureIsRefused : Prop :=
  ∀ (s : State) (rest : List HostAccess), s.faulted = none → s.refused = none →
    s.pending = issueAt .configure :: rest → s.cfg.getLsbD 5 = true → ¬ (s.cfg.getLsbD 1 = true ∧ s.cfg.getLsbD 2 = true) →
    step s = .refused .widebusUnmodelled ∧ s.after = { s with refused := some .widebusUnmodelled } ∧
    ¬ s.after.good ∧ ∀ n, State.run n s.after = s.after

/-- R218: a CONFIGURE that ends in an error ends in CONFIGURATION_ERROR, gives the same response in every state with the same CFG
value, the one it leaves among them, and a PROGRAM after it is NOT_CONFIGURED. -/
def Obligations.FailedConfigureStaysFailed : Prop :=
  ∀ s t : State, exec .configure s = .next t → t.resp ≠ .ok →
    t.resp.err = 1 ∧ t.cfg = s.cfg ∧
    (∀ s' : State, s'.cfg = s.cfg → ∃ u, exec .configure s' = .next u ∧ u.resp = t.resp) ∧
    exec .program t = .next { t with resp := .notConfigured }

/-- R219: a write to CFG changes neither the latched configuration nor the geometry registers nor what any command other
than CONFIGURE does; and only CONFIGURE changes the latched configuration, to a supported one and only with success. -/
def Obligations.CfgActsOnlyAtConfigure : Prop :=
  (∀ (s : State) (v : Word), access (writeAt 0x00 4 v) s = .next { s with cfg := v &&& 0x3F }) ∧
  (∀ (i : Instr) (s : State) (v : Word), i ≠ .configure →
    exec i { s with cfg := v } =
      match exec i s with
      | .next t => .next { t with cfg := v }
      | .fault f => .fault f
      | .refused r => .refused r) ∧
  (∀ (i : Instr) (s t : State), i ≠ .configure → exec i s = .next t → t.pagecfg = s.pagecfg) ∧
  (∀ s t : State, exec .configure s = .next t →
    (t.resp = .ok ↔ t.pagecfg ≠ none) ∧ ∀ c, t.pagecfg = some c → Config.params.supported c = true) ∧
  ∀ (x : HostAccess) (s t : State), (∀ n w i, decodeWord w = .ok i → x ≠ .write cmdAddr n w) → access x s = .next t →
    t.pagecfg = s.pagecfg

/-! ## PROGRAM -/

/-- R223: PROGRAM's checks in their order, each with its response; with the page image present it completes: SEGTAB and
SEG_COUNT are the segmentation, PARBUF slot i holds ENCODE (the parity function of its scheme) of BLOCK(c, i, raw) for every i <
N and is valid, PAR_LEN is P, DATA byte p is what LAYOUT[p] stands for, DATA_LEN is page_size + oob_size, the phase is
PROGRAMMED, and nothing else changes. -/
def Obligations.ProgramEncodesThePage : Prop :=
  decodeWord 0xB0000000 = .ok .program ∧
  (∀ blk : List Byte,
    Config.params.encode .rs blk = Config.params.rsParity blk ∧
    Config.params.encode .rsSbl blk = Config.params.rsParity blk ∧
    Config.params.encode .bch4 blk = Config.params.bchParity Config.params.gBCH4 blk ∧
    Config.params.encode .bch8 blk = Config.params.bchParity Config.params.gBCH8 blk) ∧
  ∀ s : State,
    (s.phase = .noPage → exec .program s = .next { s with resp := .notConfigured }) ∧
    ∀ c : Cfg, s.phase ≠ .noPage → s.pagecfg = some c → Config.params.supported c = true →
      (s.rawLen.toNat ≠ c.page → exec .program s = .next { invalidate s with resp := .invalidInput }) ∧
      (s.rawLen.toNat = c.page → (∃ k, k < c.page ∧ s.mem.get? (rawBase + k) = none) →
        exec .program s = .fault .undefinedRead) ∧
      (s.rawLen.toNat = c.page → ∀ raw : List Byte, raw.length = c.page →
        (∀ k, k < c.page → s.mem.get? (rawBase + k) = raw[k]?) →
        ∃ t, exec .program s = .next t ∧
          t = { s with
            resp := .ok, phase := .programmed, dataLen := BitVec.ofNat 32 c.total,
            parLen := BitVec.ofNat 32 (Config.params.geom c).p, segCount := BitVec.ofNat 32 (Config.params.geom c).n,
            segtab := segTable (Config.params.geom c), parValid := t.parValid, mem := t.mem } ∧
          (∀ i, t.slotValid i = true ↔ i < (Config.params.geom c).n ∨ s.slotValid i = true) ∧
          (∀ i k, i < (Config.params.geom c).n → k < (Config.params.geom c).p → t.mem.get? (slotBase i + k) =
            (Config.params.encode c.ecc ((Config.params.geom c).block i raw))[k]?) ∧
          (∀ p, p < c.total → ∃ b, t.mem.get? (dataBase + p) = some b ∧
            match (Config.params.geom c).layout[p]? with
            | some (.data j) => raw[j]? = some b
            | some (.par i k) =>
              (Config.params.encode c.ecc ((Config.params.geom c).block i raw))[k]? = some b
            | some .fill => b = 0xFF
            | some (.const v) => b = v
            | none => False) ∧
          (∀ p, c.total ≤ p → p < dataCap → t.mem.get? (dataBase + p) = none) ∧
          ∀ a, (a < dataBase ∨ dataBase + dataCap ≤ a) →
            (∀ i k, i < (Config.params.geom c).n → k < (Config.params.geom c).p → a ≠ slotBase i + k) →
            t.mem.get? a = s.mem.get? a)

/-- R224: with RAW_LEN one less or one more than page_size PROGRAM is INVALID_INPUT_ERROR whatever RAW holds: it reads no RAW
byte. -/
def Obligations.ProgramRejectsWrongLength : Prop :=
  ∀ (s : State) (c : Cfg) (m : Memory), s.phase ≠ .noPage → s.pagecfg = some c →
    (s.rawLen.toNat + 1 = c.page ∨ s.rawLen.toNat = c.page + 1) →
    exec .program { s with mem := m } = .next { invalidate { s with mem := m } with resp := .invalidInput } ∧
    Response.invalidInput.err = 2

/-- R226: a PROGRAM that ends in an error response on a Page leaves UNPROGRAMMED and DATA undefined and keeps the configuration
latched; with RAW_LEN then set to page_size and RAW defined, PROGRAM succeeds. -/
def Obligations.FailedProgramKeepsThePage : Prop :=
  ∀ (s t : State) (c : Cfg), s.phase ≠ .noPage → s.pagecfg = some c → Config.params.supported c = true →
    exec .program s = .next t → t.resp ≠ .ok →
    t.phase = .unprogrammed ∧ t.dataLen = 0 ∧ t.pagecfg = some c ∧
    (∀ k, k < dataCap → t.mem.get? (dataBase + k) = none) ∧
    ((∀ k, k < c.page → (s.mem.get? (rawBase + k)).isSome = true) →
      ∃ u, exec .program { t with rawLen := BitVec.ofNat 32 c.page } = .next u ∧ u.resp = .ok ∧ u.phase = .programmed)

/-- R225, R227: what PROGRAM leaves in DATA, PARBUF below N and SEGTAB depends on the latched configuration and RAW[0..page_size)
only: not on DATA, PARBUF, SEGTAB, ENC_IN or an earlier PROGRAM. -/
def Obligations.ProgramDependsOnPageAndRawOnly : Prop :=
  ∀ (s s' : State) (c : Cfg), s.phase ≠ .noPage → s'.phase ≠ .noPage → s.pagecfg = some c → s'.pagecfg = some c →
    Config.params.supported c = true → s.rawLen.toNat = c.page → s'.rawLen.toNat = c.page →
    (∀ k, k < c.page → (s.mem.get? (rawBase + k)).isSome = true) →
    (∀ k, k < c.page → s'.mem.get? (rawBase + k) = s.mem.get? (rawBase + k)) →
    ∃ t t', exec .program s = .next t ∧ exec .program s' = .next t' ∧ t.resp = .ok ∧ t'.resp = .ok ∧
      t'.dataLen = t.dataLen ∧ t'.segtab = t.segtab ∧ t'.segCount = t.segCount ∧ t'.parLen = t.parLen ∧
      (∀ k, k < dataCap → t'.mem.get? (dataBase + k) = t.mem.get? (dataBase + k)) ∧
      ∀ i k, i < (Config.params.geom c).n → k < (Config.params.geom c).p →
        t'.mem.get? (slotBase i + k) = t.mem.get? (slotBase i + k)

/-- R165, its first half: PROGRAM's parity of codeword i is a function of the bytes of slice i alone. -/
def Obligations.ParityDependsOnItsCodewordOnly : Prop :=
  ∀ (s s' : State) (c : Cfg) (i : Nat), s.phase ≠ .noPage → s'.phase ≠ .noPage → s.pagecfg = some c →
    s'.pagecfg = some c → Config.params.supported c = true → i < (Config.params.geom c).n →
    s.rawLen.toNat = c.page → s'.rawLen.toNat = c.page →
    (∀ k, k < c.page → (s.mem.get? (rawBase + k)).isSome = true) →
    (∀ k, k < c.page → (s'.mem.get? (rawBase + k)).isSome = true) →
    (∀ k, (Config.params.geom c).off i ≤ k → k < (Config.params.geom c).off i + (Config.params.geom c).dsz i →
      s'.mem.get? (rawBase + k) = s.mem.get? (rawBase + k)) →
    ∃ t t', exec .program s = .next t ∧ exec .program s' = .next t' ∧
      ∀ k, k < (Config.params.geom c).p → t'.mem.get? (slotBase i + k) = t.mem.get? (slotBase i + k)

/-- Stage equivalence (the spec's own inference, rule 228 of 44_page_top.md): on a Page with RAW_LEN = page_size and RAW defined,
PROGRAM leaves the state that SEGMENT, then for each codeword its block in ENC_IN, ENC_LEN and the encoder command, then
COMPOSE leave, except ENC_IN and ENC_LEN. -/
def Obligations.ProgramEqualsTheStagedSequence : Prop :=
  ∀ (s : State) (c : Cfg) (raw : List Byte), s.Inv → s.good → s.phase ≠ .noPage → s.pagecfg = some c →
    s.rawLen.toNat = c.page → raw.length = c.page → (∀ k, k < c.page → s.mem.get? (rawBase + k) = raw[k]?) →
    ∃ t u, exec .program s = .next t ∧ s.runAccesses (stagedProgram Config.params c raw) = u ∧ u.good ∧
      t = { u with pending := s.pending, encLen := s.encLen, mem := t.mem } ∧
      (∀ a, (a < encBase ∨ encBase + encCap ≤ a) → t.mem.get? a = u.mem.get? a) ∧
      ∀ k, k < encCap → t.mem.get? (encBase + k) = s.mem.get? (encBase + k)

/-- The all-zero page (the spec's own inference, rule 230 of 44_page_top.md), for every well-formed record whose ENCPAD lists hold
only zero bytes and every supported Page: PROGRAM of an all-zero RAW gives DATA in which every DATA and PAR entry is 0x00, every
FILL entry 0xFF and every CONST entry its constant. -/
def Obligations.ZeroPageHasZeroParity : Prop :=
  ∀ (P : Params) (s : State) (c : Cfg), P.WF → P.supported c = true →
    (∀ i, i < (P.geom c).n → ∀ b ∈ (P.geom c).encpad i, b = 0) → s.phase ≠ .noPage → s.pagecfg = some c →
    s.rawLen.toNat = c.page → (∀ k, k < c.page → s.mem.get? (rawBase + k) = some 0) →
    ∃ t, programCommand P s = .next t ∧ t.resp = .ok ∧ t.dataLen = BitVec.ofNat 32 c.total ∧
      ∀ p, p < c.total → t.mem.get? (dataBase + p) =
        match (P.geom c).layout[p]? with
        | some (.data _) => some 0
        | some (.par _ _) => some 0
        | some .fill => some 0xFF
        | some (.const v) => some v
        | none => none

/-- R273: the boot order on each of the five listed configurations, from reset, for every page image: the run is good, STATUS
shows ERR = NONE and PHASE = PROGRAMMED, DATA_LEN is page_size + oob_size and DATA is the composed page. -/
def Obligations.BootOrderProgramsThePage : Prop :=
  ∀ c ∈ Cfg.five, ∀ raw : List Byte, raw.length = c.page →
    ∃ t, State.reset.runAccesses (bootAccesses c raw) = t ∧ t.good ∧ t.pending = [] ∧ t.resp = .ok ∧
      t.phase = .programmed ∧ statusWord t = 2 ∧ t.dataLen = BitVec.ofNat 32 c.total ∧
      ∀ p, p < c.total → ∃ b, readByte Config.params t (dataBase + p) = some b ∧
        (Config.params.geom c).layout[p]?.bind (LayoutSrc.byte raw (pageParities Config.params c raw)) = some b

/-! ## Host accesses -/

/-- R65: what a 4-byte access does at each offset of the register range: the five writable registers store (CFG its bits [5:0]),
CMD performs the command the word encodes, a read-only register ignores a write, and a read returns the current value, CMD 0. -/
def Obligations.RegisterAccessesFollowTheMap : Prop :=
  ∀ (s : State) (v : Word),
    access (writeAt 0x00 4 v) s = .next { s with cfg := v &&& 0x3F } ∧
    access (writeAt 0x04 4 v) s = issue v s ∧
    access (writeAt 0x0C 4 v) s = .next { s with opa := v } ∧
    access (writeAt 0x10 4 v) s = .next { s with opb := v } ∧
    access (writeAt 0x18 4 v) s = .next { s with rawLen := v } ∧
    access (writeAt 0x1C 4 v) s = .next { s with encLen := v } ∧
    (∀ a ∈ [0x08, 0x14, 0x20, 0x24, 0x28, 0x2C, 0x30, 0x34, 0x38, 0x3C], access (writeAt a 4 v) s = .next s) ∧
    ∀ x ∈ [(0x00, s.cfg), (0x04, 0), (0x08, statusWord s), (0x0C, s.opa), (0x10, s.opb), (0x14, s.res),
        (0x18, s.rawLen), (0x1C, s.encLen), (0x20, s.parLen), (0x24, s.segCount), (0x28, s.dataLen), (0x2C, s.geomN),
        (0x30, s.geomD), (0x34, s.geomDL), (0x38, s.geomP), (0x3C, s.pageCfgReg)],
      access (.read (BitVec.ofNat 16 x.1) 4) s = .next { s with observed := s.observed ++ [x.2] }

/-- R63, R64: an access of another width than 1, 2 or 4, misaligned, narrower than 4 bytes to a register, or to an unmapped
address is BUS_ERROR, for reads and writes alike; no other access is. -/
def Obligations.BusErrorsAreExactlyTheIllegalAccesses : Prop :=
  ∀ (s : State) (a : Addr) (n : Nat) (v : Word),
    ((¬ (n = 1 ∨ n = 2 ∨ n = 4) ∨ a.toNat % n ≠ 0 ∨ (a.toNat < 0x40 ∧ n ≠ 4) ∨
        (0x40 ≤ a.toNat ∧ a.toNat < 0x1000) ∨ (0x3880 ≤ a.toNat ∧ a.toNat < 0x4000) ∨ 0x6000 ≤ a.toNat) ↔
      access (.read a n) s = .fault .busError) ∧
    ((¬ (n = 1 ∨ n = 2 ∨ n = 4) ∨ a.toNat % n ≠ 0 ∨ (a.toNat < 0x40 ∧ n ≠ 4) ∨
        (0x40 ≤ a.toNat ∧ a.toNat < 0x1000) ∨ (0x3880 ≤ a.toNat ∧ a.toNat < 0x4000) ∨ 0x6000 ≤ a.toNat) ↔
      access (.write a n v) s = .fault .busError)

/-- R66: in RAW and ENC_IN an aligned write of n bytes stores byte k of the value, least significant first, at a + k and nothing
else, and a read then returns those bytes; a read of bytes that are all defined returns them, little-endian; a read with an
undefined byte in its range faults. -/
def Obligations.BufferWriteThenRead : Prop :=
  ∀ (s : State) (a : Addr) (n : Nat) (v : Word), (n = 1 ∨ n = 2 ∨ n = 4) → a.toNat % n = 0 →
    0x1000 ≤ a.toNat → a.toNat < 0x3400 →
    (∃ t, access (.write a n v) s = .next t ∧ t = { s with mem := t.mem } ∧
      (∀ x, t.mem.get? x =
        if a.toNat ≤ x ∧ x < a.toNat + n then some (BitVec.ofNat 8 (v.toNat / 256 ^ (x - a.toNat)))
        else s.mem.get? x) ∧
      access (.read a n) t = .next { t with observed := t.observed ++ [BitVec.ofNat 32 (v.toNat % 256 ^ n)] }) ∧
    (∀ bs : List Byte, bs.length = n → (∀ k, k < n → s.mem.get? (a.toNat + k) = bs[k]?) →
      access (.read a n) s = .next { s with observed := s.observed ++ [leWord bs] }) ∧
    ((∃ k, k < n ∧ s.mem.get? (a.toNat + k) = none) → access (.read a n) s = .fault .undefinedRead)

/-- R67: in a state that meets the invariant, PARBUF byte k of slot i is readable exactly when PARVALID[i] and k < P; the byte
read is the one stored; otherwise the read faults; a wider read faults if a byte of it would; writes have no effect. -/
def Obligations.ParbufReadsValidParityOnly : Prop :=
  ∀ (s : State) (i k n : Nat) (v : Word), s.Inv → i < 16 → k < 64 → (n = 1 ∨ n = 2 ∨ n = 4) → k % n = 0 →
    (s.slotValid i = true → k < s.parityLen Config.params → ∃ b, s.mem.get? (slotBase i + k) = some b ∧
      access (.read (BitVec.ofNat 16 (0x3400 + 64 * i + k)) 1) s =
        .next { s with observed := s.observed ++ [b.setWidth 32] }) ∧
    ((s.slotValid i = false ∨ s.parityLen Config.params < k + n) →
      access (.read (BitVec.ofNat 16 (0x3400 + 64 * i + k)) n) s = .fault .undefinedRead) ∧
    access (.write (BitVec.ofNat 16 (0x3400 + 64 * i + k)) n v) s = .next s

/-- R68: bytes 0 to 3 of SEGTAB entry i are OFF_i and bytes 4 to 7 are LEN_i, least significant first, read in widths 1, 2 and 4;
an entry i ≥ SEG_COUNT reads as zero; writes have no effect. -/
def Obligations.SegtabReadsLittleEndianEntries : Prop :=
  ∀ (s : State) (i : Fin 16) (j n : Nat) (v : Word), (n = 1 ∨ n = 2 ∨ n = 4) → j < 4 → j % n = 0 →
    ∃ e : SegEntry, e = (if i.val < s.segCount.toNat then s.segtab[i] else ⟨0, 0⟩) ∧
      access (.read (BitVec.ofNat 16 (0x3800 + 8 * i + j)) n) s =
        .next { s with observed := s.observed ++ [BitVec.ofNat 32 (e.off.toNat / 256 ^ j % 256 ^ n)] } ∧
      access (.read (BitVec.ofNat 16 (0x3800 + 8 * i + 4 + j)) n) s =
        .next { s with observed := s.observed ++ [BitVec.ofNat 32 (e.len.toNat / 256 ^ j % 256 ^ n)] } ∧
      access (.write (BitVec.ofNat 16 (0x3800 + 8 * i + j)) n v) s = .next s ∧
      access (.write (BitVec.ofNat 16 (0x3800 + 8 * i + 4 + j)) n v) s = .next s

/-- R69: in a state that meets the invariant, DATA byte k is readable exactly in PROGRAMMED below DATA_LEN, where the read gives
the byte composed; otherwise it faults; writes have no effect. -/
def Obligations.DataIsReadableOnlyWhenProgrammed : Prop :=
  ∀ (s : State) (k : Nat) (v : Word), s.Inv → k < 8192 →
    (s.phase = .programmed → k < s.dataLen.toNat → ∃ b, s.mem.get? (dataBase + k) = some b ∧
      access (.read (BitVec.ofNat 16 (0x4000 + k)) 1) s = .next { s with observed := s.observed ++ [b.setWidth 32] }) ∧
    ((s.phase ≠ .programmed ∨ s.dataLen.toNat ≤ k) →
      access (.read (BitVec.ofNat 16 (0x4000 + k)) 1) s = .fault .undefinedRead) ∧
    ∀ n, (n = 1 ∨ n = 2 ∨ n = 4) → k % n = 0 → access (.write (BitVec.ofNat 16 (0x4000 + k)) n v) s = .next s

/-- R70: in the buffer regions an n-byte read is the n one-byte reads, little-endian, and faults as a whole if one of them
would; an n-byte write leaves every byte as the n one-byte writes do. -/
def Obligations.WideAccessIsItsByteAccesses : Prop :=
  ∀ (s : State) (a n : Nat) (v : Word), (n = 2 ∨ n = 4) → a % n = 0 → (0x1000 ≤ a ∧ a < 0x3880 ∨ 0x4000 ≤ a ∧ a < 0x6000) →
    (∀ bs : List Byte, bs.length = n →
      (∀ k, k < n → ∃ b, bs[k]? = some b ∧ access (.read (BitVec.ofNat 16 (a + k)) 1) s =
        .next { s with observed := s.observed ++ [b.setWidth 32] }) →
      access (.read (BitVec.ofNat 16 a) n) s = .next { s with observed := s.observed ++ [leWord bs] }) ∧
    ((∃ k, k < n ∧ access (.read (BitVec.ofNat 16 (a + k)) 1) s = .fault .undefinedRead) →
      access (.read (BitVec.ofNat 16 a) n) s = .fault .undefinedRead) ∧
    ∃ t u, access (.write (BitVec.ofNat 16 a) n v) s = .next t ∧
      (List.range n).foldlM (fun r k => match access (.write (BitVec.ofNat 16 (a + k)) 1 (v >>> (8 * k))) r with
        | .next r' => some r'
        | .fault _ => none
        | .refused _ => none) s = some u ∧
      t = { u with mem := t.mem } ∧ ∀ x, t.mem.get? x = u.mem.get? x

/-- R71: a read changes nothing but what the host observed, and gives the same value again; a write elsewhere than to CMD changes
only what it writes: a write to CFG, OPA, OPB, RAW_LEN or ENC_LEN that register alone, a write to RAW or ENC_IN its own bytes and
no register, every other write nothing; and, in a state that meets the invariant, writing back a value just read changes
nothing. -/
def Obligations.OnlyCmdWritesHaveSideEffects : Prop :=
  (∀ (s t : State) (a : Addr) (n : Nat), access (.read a n) s = .next t →
    ∃ v, t = { s with observed := s.observed ++ [v] } ∧
      access (.read a n) t = .next { t with observed := t.observed ++ [v] }) ∧
  (∀ (s t : State) (a : Addr) (n : Nat) (v : Word), a ≠ cmdAddr → access (.write a n v) s = .next t →
    (a = 0x00 → t = { s with cfg := v &&& 0x3F }) ∧
    (a = 0x0C → t = { s with opa := v }) ∧
    (a = 0x10 → t = { s with opb := v }) ∧
    (a = 0x18 → t = { s with rawLen := v }) ∧
    (a = 0x1C → t = { s with encLen := v }) ∧
    (0x1000 ≤ a.toNat → a.toNat < 0x3400 → t = { s with mem := t.mem } ∧
      ∀ x, (x < a.toNat ∨ a.toNat + n ≤ x) → t.mem.get? x = s.mem.get? x) ∧
    (a ≠ 0x00 → a ≠ 0x0C → a ≠ 0x10 → a ≠ 0x18 → a ≠ 0x1C → (a.toNat < 0x1000 ∨ 0x3400 ≤ a.toNat) → t = s)) ∧
  ∀ (s : State) (a : Addr) (n : Nat) (v : Word), s.Inv → a ≠ cmdAddr →
    access (.read a n) s = .next { s with observed := s.observed ++ [v] } → access (.write a n v) s = .next s

/-! ## The whole machine -/

/-- The state after reset meets the invariant. -/
def Obligations.ResetMeetsTheInvariant : Prop := State.reset.Inv

/-- R33, R34, R36, R41, R44 to R50, R68: every step, from every state that meets the invariant, leads to one that meets it. -/
def Obligations.StepKeepsTheInvariant : Prop := ∀ s t : State, s.Inv → step s = .next t → t.Inv

/-- R215: the phase transitions are exactly those of the table: reset, the commands, row by row, and nothing else, neither a word
that is no command nor an access that is no command. -/
def Obligations.PhaseChangesAreThoseOfTheTable : Prop :=
  State.reset.phase = .noPage ∧
  (∀ (w : Word) (e : DecodeError) (s t : State), decodeWord w = .error e → access (.write cmdAddr 4 w) s = .next t →
    t.phase = s.phase) ∧
  (∀ (x : HostAccess) (s t : State), (∀ n v, x ≠ .write cmdAddr n v) → access x s = .next t → t.phase = s.phase) ∧
  ∀ (i : Instr) (s t : State), s.Inv → exec i s = .next t →
    match i with
    | .configure => (t.resp = .ok ∧ t.phase = .unprogrammed) ∨ (t.resp.err = 1 ∧ t.phase = .noPage)
    | .compose | .program =>
      (s.phase = .noPage ∧ t.resp = .notConfigured ∧ t.phase = .noPage) ∨
      (s.phase ≠ .noPage ∧ t.resp = .ok ∧ t.phase = .programmed) ∨
      (s.phase ≠ .noPage ∧ t.resp ≠ .ok ∧ t.phase = .unprogrammed)
    | .gfMul _ | .gfDiv _ | .gfPow _ | .rsEnc _ | .rsSblEnc _ | .bch4Enc _ | .bch8Enc _ | .segment => t.phase = s.phase

/-- R242, its last paragraph: under WF_PARAMS the internal causes PARITY_LENGTH, SEGMENTATION and LAYOUT_LENGTH cannot occur, nor
BLOCK_LENGTH in PROGRAM; on a Page COMPOSE and PROGRAM answer only the responses the table gives them. -/
def Obligations.InternalErrorsCannotOccur : Prop :=
  ∀ (i : Instr) (s t : State), s.Inv → exec i s = .next t →
    t.resp ≠ .parityLength ∧ t.resp ≠ .segmentation ∧ t.resp ≠ .layoutLength ∧
    (i = .program → t.resp = .ok ∨ t.resp = .notConfigured ∨ t.resp = .invalidInput) ∧
    (i = .compose → t.resp = .ok ∨ t.resp = .notConfigured ∨ t.resp = .invalidInput ∨ t.resp = .parityMissing)

/-- No error is retried into success (the spec's own inference, rule 243 of 60_exceptions.md): a command that ended in an error
response, issued again at once, ends in the same response and changes nothing more. -/
def Obligations.FailedCommandFailsAgain : Prop :=
  ∀ (i : Instr) (s t : State), s.Inv → exec i s = .next t → t.resp ≠ .ok → exec i t = .next t

/-- R244, precise errors (the spec's own inference): an encoder command, a Galois-field command and SEGMENT that end in an error
response change nothing but STATUS. -/
def Obligations.ErrorResponsesArePrecise : Prop :=
  ∀ (i : Instr) (s t : State), exec i s = .next t → t.resp ≠ .ok → i ≠ .configure → i ≠ .compose → i ≠ .program →
    t = { s with resp := t.resp }

/-! ## The fields -/

/-- R88, R17: FLD = 0 selects GF(2^10) modulo PRIM_RS, 1 selects GF(2^M_BCH4) modulo PRIM_BCH4 and 2 GF(2^M_BCH8) modulo
PRIM_BCH8, in all three Galois-field commands, and 3 is RESERVED_FIELD_SELECT; each polynomial is primitive of its field's
width; and M_BCH4 and M_BCH8 are the least m with 2^m − 1 ≥ 8 · L(c, i) + R_t for every supported configuration of the scheme and
every codeword of it. -/
def Obligations.FldSelectsTheSchemesField : Prop :=
  [0x10000000, 0x14000000, 0x18000000].map decodeWord = [.ok (.gfMul .rs), .ok (.gfMul .bch4), .ok (.gfMul .bch8)] ∧
  [0x20000000, 0x24000000, 0x28000000].map decodeWord = [.ok (.gfDiv .rs), .ok (.gfDiv .bch4), .ok (.gfDiv .bch8)] ∧
  [0x30000000, 0x34000000, 0x38000000].map decodeWord = [.ok (.gfPow .rs), .ok (.gfPow .bch4), .ok (.gfPow .bch8)] ∧
  (∀ (s : State), ∀ w ∈ [0x1C000000#32, 0x2C000000#32, 0x3C000000#32],
    access (.write cmdAddr 4 w) s = .next { s with resp := .reservedFieldSelect }) ∧
  Response.reservedFieldSelect.err = 4 ∧ Response.reservedFieldSelect.sub = 3 ∧
  (Config.params.field .rs).m = 10 ∧ (Config.params.field .rs).p = Config.params.primRS ∧
  (Config.params.field .bch4).p = Config.params.primBCH4 ∧ (Config.params.field .bch8).p = Config.params.primBCH8 ∧
  (∀ fld, Primitive (Config.params.field fld).p (Config.params.field fld).m) ∧
  ∀ x ∈ [(Fld.bch4, Ecc.bch4, Config.params.gBCH4), (Fld.bch8, Ecc.bch8, Config.params.gBCH8)],
    (∀ (c : Cfg) (i : Nat), Config.params.supported c = true → c.ecc = x.2.1 → i < (Config.params.geom c).n →
      8 * (Config.params.geom c).blockLen i + deg x.2.2 ≤ 2 ^ (Config.params.field x.1).m - 1) ∧
    ∀ m : Nat, (∀ (c : Cfg) (i : Nat), Config.params.supported c = true → c.ecc = x.2.1 → i < (Config.params.geom c).n →
      8 * (Config.params.geom c).blockLen i + deg x.2.2 ≤ 2 ^ m - 1) → (Config.params.field x.1).m ≤ m
end

