-- ==== Sys2Proof/Laws/Memory.lean ====
section
/-! SUPPORT. Every memory operation keeps the canonical form; a read after a write to the same place gives the value written, and
a write leaves every other place alone; two memories in canonical form that read alike are equal. -/

namespace Sys2Proof.Machine.Memory

/-- The canonical form as a proposition. -/
theorem wf_iff (m : Memory) : m.wf = true ↔ m.Pairwise fun x y => x.1 < y.1 := by simp [wf]

theorem wf_nil : wf [] = true := rfl

/-! ## Cells of a byte sequence -/

theorem mem_cellsFrom {a : Nat} {bs : List Byte} {x : Host.Cell} (h : x ∈ cellsFrom a bs) :
    a ≤ x.1 ∧ x.1 < a + bs.length := by
  induction bs generalizing a with
  | nil => simp [cellsFrom] at h
  | cons b bs ih =>
    rw [cellsFrom, List.mem_cons] at h
    rcases h with rfl | h
    · simp
    · have := ih h
      simp only [List.length_cons]; omega

theorem wf_cellsFrom (a : Nat) (bs : List Byte) : (cellsFrom a bs).Pairwise fun x y => x.1 < y.1 := by
  induction bs generalizing a with
  | nil => exact List.Pairwise.nil
  | cons b bs ih =>
    rw [cellsFrom, List.pairwise_cons]
    exact ⟨fun y hy => by have := mem_cellsFrom hy; simp only; omega, ih _⟩

/-! ## The canonical form is kept -/

theorem wf_filter {m : Memory} (h : m.wf = true) (q : Host.Cell → Bool) : Memory.wf (m.filter q) = true := by
  rw [wf_iff] at *
  exact h.filter _

theorem wf_erase {m : Memory} (h : m.wf = true) (a n : Nat) : (m.erase a n).wf = true := by
  rw [wf_iff, erase, List.pairwise_append]
  rw [wf_iff] at h
  refine ⟨h.filter _, h.filter _, fun x hx y hy => ?_⟩
  simp only [List.mem_filter, decide_eq_true_eq] at hx hy
  omega

theorem wf_setRange {m : Memory} (h : m.wf = true) (a : Nat) (bs : List Byte) : (m.setRange a bs).wf = true := by
  rw [wf_iff, setRange, List.pairwise_append, List.pairwise_append]
  rw [wf_iff] at h
  refine ⟨⟨h.filter _, wf_cellsFrom a bs, fun x hx y hy => ?_⟩, h.filter _, fun x hx y hy => ?_⟩
  · simp only [List.mem_filter, decide_eq_true_eq] at hx
    have := mem_cellsFrom hy
    omega
  · simp only [List.mem_append, List.mem_filter, decide_eq_true_eq] at hx hy
    rcases hx with hx | hx
    · omega
    · have := mem_cellsFrom hx
      omega

/-! ## Reading -/

theorem get?_append (m m' : Memory) (a : Nat) : Memory.get? (m ++ m') a = (m.get? a).or (m'.get? a) := by
  induction m with
  | nil => simp [get?]
  | cons x m ih =>
    obtain ⟨k, b⟩ := x
    rw [List.cons_append, get?, get?]
    split
    · rfl
    · exact ih

theorem get?_eq_none {m : Memory} {a : Nat} (h : ∀ x ∈ m, x.1 ≠ a) : m.get? a = none := by
  induction m with
  | nil => rfl
  | cons x m ih =>
    obtain ⟨k, b⟩ := x
    rw [get?, if_neg (h (k, b) (by simp))]
    exact ih fun y hy => h y (by simp [hy])

theorem mem_of_get? {m : Memory} {a : Nat} {b : Byte} (h : m.get? a = some b) : (a, b) ∈ m := by
  induction m with
  | nil => simp [get?] at h
  | cons x m ih =>
    obtain ⟨k, b'⟩ := x
    rw [get?] at h
    split at h
    · rename_i hk
      subst hk
      simp at h
      simp [h]
    · exact List.mem_cons_of_mem _ (ih h)

theorem get?_of_mem {m : Memory} (hw : m.wf = true) {a : Nat} {b : Byte} (h : (a, b) ∈ m) : m.get? a = some b := by
  rw [wf_iff] at hw
  induction m with
  | nil => simp at h
  | cons x m ih =>
    obtain ⟨k, b'⟩ := x
    rw [List.pairwise_cons] at hw
    rcases List.mem_cons.mp h with h | h
    · rw [Prod.mk.injEq] at h
      rw [get?, if_pos h.1.symm, h.2]
    · have := hw.1 _ h
      rw [get?, if_neg (by simp only at this; omega)]
      exact ih hw.2 h

theorem get?_filter (m : Memory) (q : Nat → Bool) (a : Nat) :
    Memory.get? (m.filter fun x => q x.1) a = if q a then m.get? a else none := by
  induction m with
  | nil => simp [get?]
  | cons x m ih =>
    obtain ⟨k, b⟩ := x
    simp only [List.filter_cons]
    by_cases hq : q k = true
    · rw [if_pos hq, get?, get?, ih]
      by_cases hk : k = a
      · simp [hk.symm, hq]
      · simp [hk]
    · rw [if_neg hq, ih, get?]
      by_cases hk : k = a
      · subst hk; simp [hq]
      · simp [hk]

theorem get?_cellsFrom (a : Nat) (bs : List Byte) (x : Nat) :
    (cellsFrom a bs).get? x = if a ≤ x then bs[x - a]? else none := by
  induction bs generalizing a with
  | nil => simp [cellsFrom, get?]
  | cons b bs ih =>
    rw [cellsFrom, get?, ih]
    by_cases h : a = x
    · simp [h]
    · rw [if_neg h]
      by_cases h' : a + 1 ≤ x
      · rw [if_pos h', if_pos (by omega), show x - a = (x - (a + 1)) + 1 by omega, List.getElem?_cons_succ]
      · rw [if_neg h', if_neg (by omega)]

/-- A range erased holds no value; every other byte is as before. -/
theorem get?_erase (m : Memory) (a n x : Nat) :
    (m.erase a n).get? x = if a ≤ x ∧ x < a + n then none else m.get? x := by
  rw [erase, get?_append, get?_filter m (fun k => decide (k < a)), get?_filter m (fun k => decide (a + n ≤ k))]
  by_cases h1 : x < a
  · simp [h1, show ¬ a ≤ x by omega, show ¬ a + n ≤ x by omega]
  · by_cases h2 : a + n ≤ x
    · simp [h1, h2, show ¬ x < a + n by omega]
    · simp [h1, h2, show a ≤ x by omega, show x < a + n by omega]

/-- A read inside the range written gives the byte written; every other byte is as before. -/
theorem get?_setRange (m : Memory) (a : Nat) (bs : List Byte) (x : Nat) :
    (m.setRange a bs).get? x = if a ≤ x ∧ x < a + bs.length then bs[x - a]? else m.get? x := by
  rw [setRange, get?_append, get?_append, get?_filter m (fun k => decide (k < a)),
    get?_filter m (fun k => decide (a + bs.length ≤ k)), get?_cellsFrom]
  by_cases h1 : x < a
  · simp [h1, show ¬ a ≤ x by omega, show ¬ a + bs.length ≤ x by omega]
  · by_cases h2 : a + bs.length ≤ x
    · have h3 : bs[x - a]? = none := List.getElem?_eq_none (by omega)
      simp [h1, h2, h3, show ¬ x < a + bs.length by omega, show a ≤ x by omega]
    · have h3 : x - a < bs.length := by omega
      simp [h1, h2, show a ≤ x by omega, show x < a + bs.length by omega, List.getElem?_eq_getElem h3]

theorem get?_setRange_of_lt {m : Memory} {a : Nat} {bs : List Byte} {x : Nat} (h : x < a) :
    (m.setRange a bs).get? x = m.get? x := by rw [get?_setRange, if_neg (by omega)]

theorem get?_setRange_of_ge {m : Memory} {a : Nat} {bs : List Byte} {x : Nat} (h : a + bs.length ≤ x) :
    (m.setRange a bs).get? x = m.get? x := by rw [get?_setRange, if_neg (by omega)]

/-! ## Ranges -/

theorem getRange_length {m : Memory} {a n : Nat} {bs : List Byte} (h : m.getRange a n = some bs) : bs.length = n := by
  induction n generalizing a bs with
  | zero => simp only [getRange, Option.some.injEq] at h; simp [← h]
  | succ n ih =>
    simp only [getRange, Option.bind_eq_some_iff, Option.map_eq_some_iff] at h
    obtain ⟨b, -, bs', h', rfl⟩ := h
    simp [ih h']

/-- A range reads as a byte sequence exactly when each of its bytes reads as that sequence's. -/
theorem getRange_eq_some {m : Memory} {a n : Nat} {bs : List Byte} :
    m.getRange a n = some bs ↔ bs.length = n ∧ ∀ k, k < n → m.get? (a + k) = bs[k]? := by
  induction n generalizing a bs with
  | zero =>
    simp only [getRange, Option.some.injEq]
    constructor
    · rintro rfl; simp
    · rintro ⟨h, -⟩; exact (List.length_eq_zero_iff.mp h).symm
  | succ n ih =>
    simp only [getRange, Option.bind_eq_some_iff, Option.map_eq_some_iff]
    constructor
    · rintro ⟨b, hb, bs', h', rfl⟩
      obtain ⟨hl, hk⟩ := ih.mp h'
      refine ⟨by simp [hl], fun k hk' => ?_⟩
      cases k with
      | zero => simpa using hb
      | succ k =>
        rw [List.getElem?_cons_succ, ← hk k (by omega)]
        congr 1; omega
    · rintro ⟨hl, hk⟩
      obtain ⟨b, bs', rfl⟩ : ∃ b bs', bs = b :: bs' := by
        cases bs with
        | nil => simp at hl
        | cons b bs' => exact ⟨b, bs', rfl⟩
      refine ⟨b, by simpa using hk 0 (by omega), bs', ih.mpr ⟨by simpa using hl, fun k hk' => ?_⟩, rfl⟩
      have := hk (k + 1) (by omega)
      rw [List.getElem?_cons_succ] at this
      rw [← this]; congr 1; omega

/-- A range has no value exactly when one of its bytes has none. -/
theorem getRange_eq_none {m : Memory} {a n : Nat} :
    m.getRange a n = none ↔ ∃ k, k < n ∧ m.get? (a + k) = none := by
  induction n generalizing a with
  | zero => simp [getRange]
  | succ n ih =>
    simp only [getRange, Option.bind_eq_none_iff, Option.map_eq_none_iff]
    constructor
    · intro h
      cases hb : m.get? a with
      | none => exact ⟨0, by omega, hb⟩
      | some b =>
        obtain ⟨k, hk, h'⟩ := ih.mp (h b hb)
        exact ⟨k + 1, by omega, by rw [← h']; congr 1; omega⟩
    · rintro ⟨k, hk, h'⟩ b hb
      cases k with
      | zero => rw [Nat.add_zero, hb] at h'; cases h'
      | succ k => exact ih.mpr ⟨k, by omega, by rw [← h']; congr 1; omega⟩

theorem getRange_congr {m m' : Memory} {a n : Nat} (h : ∀ k, k < n → m.get? (a + k) = m'.get? (a + k)) :
    m.getRange a n = m'.getRange a n := by
  cases hr : m'.getRange a n with
  | none =>
    obtain ⟨k, hk, h'⟩ := getRange_eq_none.mp hr
    exact getRange_eq_none.mpr ⟨k, hk, by rw [h k hk, h']⟩
  | some bs =>
    obtain ⟨hl, hk⟩ := getRange_eq_some.mp hr
    exact getRange_eq_some.mpr ⟨hl, fun k hk' => by rw [h k hk', hk k hk']⟩

/-- A range just written reads as what was written. -/
theorem getRange_setRange_self (m : Memory) (a : Nat) (bs : List Byte) :
    (m.setRange a bs).getRange a bs.length = some bs :=
  getRange_eq_some.mpr ⟨rfl, fun k hk => by rw [get?_setRange, if_pos (by omega)]; congr 1; omega⟩

/-! ## Equal readings -/

/-- Two memories in canonical form that read alike everywhere are equal. -/
theorem ext {m m' : Memory} (h : m.wf = true) (h' : m'.wf = true) (hr : ∀ a, m.get? a = m'.get? a) : m = m' := by
  have key : ∀ (u v : Memory), u.wf = true → v.wf = true → (∀ a, u.get? a = v.get? a) → ∀ x ∈ u, x ∈ v := by
    intro u v hu hv huv x hx
    exact mem_of_get? (by rw [← huv, get?_of_mem hu hx])
  have hm : ∀ x, x ∈ m ↔ x ∈ m' := fun x => ⟨key m m' h h' hr x, key m' m h' h (fun a => (hr a).symm) x⟩
  rw [wf_iff] at h h'
  apply List.Perm.eq_of_pairwise (le := fun x y : Host.Cell => x.1 < y.1) _ h h'
  · rw [List.perm_ext_iff_of_nodup]
    · exact hm
    · exact h.imp fun {x y} hxy => fun he => by rw [he] at hxy; exact lt_irrefl _ hxy
    · exact h'.imp fun {x y} hxy => fun he => by rw [he] at hxy; exact lt_irrefl _ hxy
  · intro x y _ _ h1 h2; omega

end Sys2Proof.Machine.Memory
end

