-- ==== Sys2Proof/Laws/Poly.lean ====
section
/-! SUPPORT. The arithmetic of Machine/Poly.lean read as polynomial arithmetic: `toPoly` takes a number to the polynomial over
GF(2) whose coefficients are its bits (R27); XOR is addition, `clmul` multiplication and `pmod` the remainder. -/

namespace Sys2Proof.Gf

open Polynomial

/-- The polynomial over GF(2) whose coefficient of X^k is bit k of a. -/
noncomputable def toPoly (a : Nat) : (ZMod 2)[X] :=
  ∑ k ∈ Finset.range a.size, if a.testBit k then X ^ k else 0

theorem testBit_eq_false_of_size_le {a k : Nat} (h : a.size ≤ k) : a.testBit k = false :=
  Nat.testBit_eq_false_of_lt (lt_of_lt_of_le (Nat.lt_size_self a) (Nat.pow_le_pow_right (by decide) h))

theorem toPoly_coeff (a n : Nat) : (toPoly a).coeff n = if a.testBit n then 1 else 0 := by
  simp only [toPoly, finsetSum_coeff, apply_ite (fun q : (ZMod 2)[X] => q.coeff n), coeff_X_pow, coeff_zero]
  rw [Finset.sum_congr rfl (g := fun k => if n = k then (if a.testBit n then (1 : ZMod 2) else 0) else 0)]
  · rw [Finset.sum_ite_eq]
    by_cases h : n < a.size
    · simp [h]
    · simp [h, testBit_eq_false_of_size_le (not_lt.mp h)]
  · intro k _
    by_cases h : n = k <;> simp [h]

theorem toPoly_injective : Function.Injective toPoly := by
  intro a b h
  apply Nat.eq_of_testBit_eq
  intro n
  have := congrArg (fun q : (ZMod 2)[X] => q.coeff n) h
  simp only [toPoly_coeff] at this
  revert this
  cases a.testBit n <;> cases b.testBit n <;> simp

@[simp] theorem toPoly_zero : toPoly 0 = 0 := by
  ext n; simp [toPoly_coeff]

theorem toPoly_two_pow (k : Nat) : toPoly (2 ^ k) = X ^ k := by
  ext n
  simp [toPoly_coeff, Nat.testBit_two_pow, coeff_X_pow, eq_comm]

@[simp] theorem toPoly_one : toPoly 1 = 1 := by simpa using toPoly_two_pow 0

theorem toPoly_two : toPoly 2 = X := by simpa using toPoly_two_pow 1

theorem toPoly_xor (a b : Nat) : toPoly (a ^^^ b) = toPoly a + toPoly b := by
  ext n
  simp only [toPoly_coeff, coeff_add, Nat.testBit_xor]
  cases a.testBit n <;> cases b.testBit n <;> decide

theorem toPoly_shiftLeft (a k : Nat) : toPoly (a <<< k) = toPoly a * X ^ k := by
  ext n
  rw [coeff_mul_X_pow', toPoly_coeff, Nat.testBit_shiftLeft]
  by_cases h : k ≤ n <;> simp [h, toPoly_coeff]

theorem toPoly_bool (b : Bool) : toPoly b.toNat = if b then 1 else 0 := by
  cases b <;> simp

theorem toPoly_clmul (a b : Nat) : toPoly (clmul a b) = toPoly a * toPoly b := by
  have key : ∀ n, toPoly ((List.range n).foldl
      (fun acc k => if b.testBit k then acc ^^^ (a <<< k) else acc) 0) =
      toPoly a * ∑ k ∈ Finset.range n, (if b.testBit k then X ^ k else 0) := by
    intro n
    induction n with
    | zero => simp
    | succ n ih =>
      rw [List.range_succ, List.foldl_append, List.foldl_cons, List.foldl_nil, Finset.sum_range_succ, mul_add, ← ih]
      split <;> simp [toPoly_xor, toPoly_shiftLeft]
  rw [clmul, key]
  congr 1
  ext n
  rw [toPoly_coeff, finsetSum_coeff]
  simp only [apply_ite (fun q : (ZMod 2)[X] => q.coeff n), coeff_X_pow, coeff_zero]
  rw [Finset.sum_congr rfl (g := fun k => if n = k then (if b.testBit n then (1 : ZMod 2) else 0) else 0)]
  · rw [Finset.sum_ite_eq]
    by_cases h : n < b.log2 + 1
    · simp [h]
    · simp only [Finset.mem_range, h, if_false]
      rw [if_neg]
      simp only [Bool.not_eq_true]
      apply Nat.testBit_eq_false_of_lt
      exact lt_of_lt_of_le Nat.lt_log2_self (Nat.pow_le_pow_right (by decide) (by omega))
  · intro k _
    by_cases h : n = k <;> simp [h]

theorem testBit_deg {p : Nat} (hp : p ≠ 0) : p.testBit (deg p) = true := by
  rw [deg, Nat.testBit_log2]
  simpa using hp

theorem lt_two_pow_deg_succ (p : Nat) : p < 2 ^ (deg p + 1) := Nat.lt_log2_self

theorem toPoly_degree_lt {a m : Nat} (h : a < 2 ^ m) : (toPoly a).degree < m := by
  rw [degree_lt_iff_coeff_zero]
  intro n hn
  rw [toPoly_coeff, Nat.testBit_eq_false_of_lt (lt_of_lt_of_le h (Nat.pow_le_pow_right (by decide) hn))]
  rfl

theorem lt_of_toPoly_degree_lt {a m : Nat} (h : (toPoly a).degree < m) : a < 2 ^ m := by
  apply Nat.lt_pow_two_of_testBit
  intro i hi
  have := (degree_lt_iff_coeff_zero _ _).mp h i hi
  rw [toPoly_coeff] at this
  simpa using this

theorem toPoly_degree {p : Nat} (hp : p ≠ 0) : (toPoly p).degree = deg p := by
  apply le_antisymm
  · exact degree_le_of_natDegree_le (natDegree_le_iff_coeff_eq_zero.mpr fun n hn => by
      rw [toPoly_coeff, Nat.testBit_eq_false_of_lt (lt_of_lt_of_le (lt_two_pow_deg_succ p)
        (Nat.pow_le_pow_right (by decide) hn))]; rfl)
  · apply le_degree_of_ne_zero
    rw [toPoly_coeff, testBit_deg hp]
    decide

theorem toPoly_natDegree {p : Nat} (hp : p ≠ 0) : (toPoly p).natDegree = deg p :=
  natDegree_eq_of_degree_eq_some (toPoly_degree hp)

theorem toPoly_monic {p : Nat} (hp : p ≠ 0) : (toPoly p).Monic := by
  rw [Monic, leadingCoeff, toPoly_natDegree hp, toPoly_coeff, testBit_deg hp]
  rfl

/-! ## Long division -/

theorem pmodStep_lt {p r : Nat} (hp : p ≠ 0) (hr : r < 2 ^ deg p) (b : Bool) : pmodStep p r b < 2 ^ deg p := by
  have ht : (r <<< 1) ^^^ b.toNat < 2 ^ (deg p + 1) := by
    apply Nat.xor_lt_two_pow
    · rw [Nat.shiftLeft_eq]; rw [pow_succ]; omega
    · exact lt_of_lt_of_le (Bool.toNat_lt b) (by simpa using Nat.pow_le_pow_right (n := 2) (by decide) (Nat.le_add_left 1 _))
  simp only [pmodStep]
  apply Nat.lt_pow_two_of_testBit
  intro i hi
  rcases Nat.eq_or_lt_of_le hi with rfl | h
  · split <;> rename_i h
    · simp only [Nat.testBit_xor] at h ⊢
      rw [h, testBit_deg hp]; rfl
    · simpa using h
  · have h1 : ((r <<< 1) ^^^ b.toNat).testBit i = false :=
      Nat.testBit_eq_false_of_lt (lt_of_lt_of_le ht (Nat.pow_le_pow_right (by decide) h))
    have h2 : p.testBit i = false :=
      Nat.testBit_eq_false_of_lt (lt_of_lt_of_le (lt_two_pow_deg_succ p) (Nat.pow_le_pow_right (by decide) h))
    split
    · rw [Nat.testBit_xor, h1, h2]; rfl
    · exact h1

/-- The polynomial whose coefficients, highest first, are the bits. -/
noncomputable def polyOfBits (bs : List Bool) : (ZMod 2)[X] :=
  bs.foldl (fun q b => q * X + if b then 1 else 0) 0

theorem polyOfBits_append (bs : List Bool) (b : Bool) :
    polyOfBits (bs ++ [b]) = polyOfBits bs * X + if b then 1 else 0 := by
  simp [polyOfBits, List.foldl_append]

theorem bitsMSB_succ (n v : Nat) : bitsMSB (n + 1) v = v.testBit n :: bitsMSB n v := by
  simp [bitsMSB, List.range_succ]

theorem bitsMSB_length (n v : Nat) : (bitsMSB n v).length = n := by simp [bitsMSB]

theorem bitsMSB_succ' (n v : Nat) : bitsMSB (n + 1) v = bitsMSB n (v / 2) ++ [v.testBit 0] := by
  induction n with
  | zero => simp [bitsMSB]
  | succ n ih =>
    rw [bitsMSB_succ, ih, bitsMSB_succ]
    simp [Nat.testBit_succ]

theorem toPoly_div_two (v : Nat) : toPoly v = toPoly (v / 2) * X + if v.testBit 0 then 1 else 0 := by
  ext n
  cases n with
  | zero => cases h : v.testBit 0 <;> simp [toPoly_coeff, h]
  | succ n =>
    cases h : v.testBit 0 <;> simp [toPoly_coeff, coeff_mul_X, Nat.testBit_succ, coeff_one]

theorem polyOfBits_bitsMSB {n v : Nat} (h : v < 2 ^ n) : polyOfBits (bitsMSB n v) = toPoly v := by
  induction n generalizing v with
  | zero =>
    obtain rfl : v = 0 := by simpa using h
    simp [bitsMSB, polyOfBits]
  | succ n ih =>
    rw [bitsMSB_succ', polyOfBits_append, ih (by rw [pow_succ] at h; omega), ← toPoly_div_two]

theorem toPoly_pmodStep (p r : Nat) (b : Bool) : ∃ q : (ZMod 2)[X],
    toPoly r * X + (if b then 1 else 0) = toPoly (pmodStep p r b) + toPoly p * q := by
  have ht : toPoly ((r <<< 1) ^^^ b.toNat) = toPoly r * X + (if b then 1 else 0) := by
    rw [toPoly_xor, toPoly_shiftLeft, toPoly_bool, pow_one]
  by_cases h : ((r <<< 1) ^^^ b.toNat).testBit (deg p) = true
  · refine ⟨1, ?_⟩
    rw [← ht, pmodStep, if_pos h, toPoly_xor _ p, mul_one, add_assoc, CharTwo.add_self_eq_zero, add_zero]
  · exact ⟨0, by rw [← ht, pmodStep, if_neg h, mul_zero, add_zero]⟩

/-- The remainder of the bits read so far: it is reduced, and it differs from the bits' polynomial by a multiple of p. -/
theorem foldl_pmodStep {p : Nat} (hp : p ≠ 0) (bs : List Bool) :
    bs.foldl (pmodStep p) 0 < 2 ^ deg p ∧
      ∃ q : (ZMod 2)[X], polyOfBits bs = toPoly (bs.foldl (pmodStep p) 0) + toPoly p * q := by
  induction bs using List.reverseRecOn with
  | nil => exact ⟨by simp, 0, by simp [polyOfBits]⟩
  | append_singleton bs b ih =>
    obtain ⟨hlt, q, hq⟩ := ih
    rw [List.foldl_append]
    refine ⟨pmodStep_lt hp hlt b, ?_⟩
    obtain ⟨q', hq'⟩ := toPoly_pmodStep p (bs.foldl (pmodStep p) 0) b
    refine ⟨q * X + q', ?_⟩
    rw [polyOfBits_append, hq]
    calc _ = (toPoly (bs.foldl (pmodStep p) 0) * X + if b then 1 else 0) + toPoly p * (q * X) := by ring
      _ = _ := by rw [hq']; simp only [List.foldl_cons, List.foldl_nil]; ring

theorem pmod_lt {p : Nat} (hp : p ≠ 0) (a : Nat) : pmod a p < 2 ^ deg p := (foldl_pmodStep hp _).1

theorem toPoly_pmod {p : Nat} (hp : p ≠ 0) (a : Nat) : toPoly (pmod a p) = toPoly a %ₘ toPoly p := by
  obtain ⟨hlt, q, hq⟩ := foldl_pmodStep hp (bitsMSB (a.log2 + 1) a)
  rw [polyOfBits_bitsMSB (Nat.lt_log2_self)] at hq
  refine ((div_modByMonic_unique q _ (toPoly_monic hp) ⟨hq.symm, ?_⟩).2).symm
  rw [toPoly_degree hp]
  exact toPoly_degree_lt hlt

/-- A number already below 2^(deg p) is its own remainder. -/
theorem pmod_of_lt {p a : Nat} (hp : p ≠ 0) (h : a < 2 ^ deg p) : pmod a p = a := by
  apply toPoly_injective
  rw [toPoly_pmod hp, (modByMonic_eq_self_iff (toPoly_monic hp)).mpr]
  rw [toPoly_degree hp]
  exact toPoly_degree_lt h

theorem pmod_zero {p : Nat} (hp : p ≠ 0) : pmod 0 p = 0 := pmod_of_lt hp (by simp)

/-- `pmod` is linear over GF(2). -/
theorem pmod_xor {p : Nat} (hp : p ≠ 0) (a b : Nat) : pmod (a ^^^ b) p = pmod a p ^^^ pmod b p := by
  apply toPoly_injective
  rw [toPoly_pmod hp, toPoly_xor, toPoly_xor, add_modByMonic, toPoly_pmod hp, toPoly_pmod hp]

theorem clmul_comm (a b : Nat) : clmul a b = clmul b a := toPoly_injective (by simp [toPoly_clmul, mul_comm])

theorem clmul_zero (a : Nat) : clmul a 0 = 0 := toPoly_injective (by simp [toPoly_clmul])

theorem zero_clmul (a : Nat) : clmul 0 a = 0 := toPoly_injective (by simp [toPoly_clmul])

theorem clmul_one (a : Nat) : clmul a 1 = a := toPoly_injective (by simp [toPoly_clmul])

theorem clmul_xor (a b c : Nat) : clmul a (b ^^^ c) = clmul a b ^^^ clmul a c :=
  toPoly_injective (by simp [toPoly_clmul, toPoly_xor, mul_add])

theorem xor_clmul (a b c : Nat) : clmul (a ^^^ b) c = clmul a c ^^^ clmul b c :=
  toPoly_injective (by simp [toPoly_clmul, toPoly_xor, add_mul])

theorem clmul_two_pow (a k : Nat) : clmul a (2 ^ k) = a <<< k :=
  toPoly_injective (by rw [toPoly_clmul, toPoly_two_pow, toPoly_shiftLeft])

end Sys2Proof.Gf
end

