-- ==== Sys2Proof/Laws/Galois.lean ====
section
/-! SUPPORT. The field arithmetic of Machine/Poly.lean, for every field whose polynomial is primitive (R15, R17): the laws of
R114, the quotient of R116 to R118, the power of R119 and R120. -/

namespace Sys2Proof.Gf

open Polynomial

variable {F : GField}

theorem Primitive.p_ne_zero {p m : Nat} (h : Primitive p m) : p ≠ 0 := by
  rintro rfl
  have h1 := h.1
  have h2 := h.2.1
  simp [deg] at h2
  omega

theorem Primitive.size_pos (h : Primitive F.p F.m) : 2 ≤ F.size := by
  have := Nat.pow_le_pow_right (n := 2) (by decide) h.1
  simpa [GField.size] using this

theorem one_lt_size (h : Primitive F.p F.m) : 1 < F.size := h.size_pos

/-- An element as a member of GF(2)[X] modulo the field's polynomial. -/
noncomputable def toRing (F : GField) (a : Nat) : AdjoinRoot (toPoly F.p) := AdjoinRoot.mk _ (toPoly a)

theorem toRing_injective (h : Primitive F.p F.m) {a b : Nat} (ha : a < F.size) (hb : b < F.size)
    (hab : toRing F a = toRing F b) : a = b := by
  apply toPoly_injective
  rw [toRing, toRing, AdjoinRoot.mk_eq_mk] at hab
  rw [← sub_eq_zero]
  apply eq_zero_of_dvd_of_degree_lt hab
  rw [toPoly_degree h.p_ne_zero, h.2.1]
  exact lt_of_le_of_lt (degree_sub_le _ _) (max_lt (toPoly_degree_lt ha) (toPoly_degree_lt hb))

theorem toRing_pmod (h : Primitive F.p F.m) (a : Nat) : toRing F (pmod a F.p) = toRing F a := by
  rw [toRing, toRing, toPoly_pmod h.p_ne_zero, AdjoinRoot.mk_eq_mk]
  have := modByMonic_add_div (toPoly a) (toPoly F.p)
  exact ⟨-(toPoly a /ₘ toPoly F.p), by rw [← sub_eq_zero]; linear_combination this⟩

@[simp] theorem toRing_zero : toRing F 0 = 0 := by simp [toRing]

@[simp] theorem toRing_one : toRing F 1 = 1 := by simp [toRing]

theorem toRing_xor (a b : Nat) : toRing F (a ^^^ b) = toRing F a + toRing F b := by
  simp [toRing, toPoly_xor]

theorem toRing_gfMul (h : Primitive F.p F.m) (a b : Nat) : toRing F (gfMul F a b) = toRing F a * toRing F b := by
  rw [gfMul, toRing_pmod h, toRing, toPoly_clmul, map_mul]
  rfl

theorem gfMul_lt (h : Primitive F.p F.m) (a b : Nat) : gfMul F a b < F.size := by
  have := pmod_lt h.p_ne_zero (clmul a b)
  rwa [h.2.1] at this

/-! ## R114 -/

theorem gfMul_comm (F : GField) (a b : Nat) : gfMul F a b = gfMul F b a := by rw [gfMul, gfMul, clmul_comm]

theorem gfMul_assoc (h : Primitive F.p F.m) (a b c : Nat) : gfMul F (gfMul F a b) c = gfMul F a (gfMul F b c) :=
  toRing_injective h (gfMul_lt h _ _) (gfMul_lt h _ _) (by simp only [toRing_gfMul h, mul_assoc])

theorem gfMul_xor (h : Primitive F.p F.m) (a b c : Nat) : gfMul F a (b ^^^ c) = gfMul F a b ^^^ gfMul F a c := by
  simp only [gfMul, clmul_xor, pmod_xor h.p_ne_zero]

theorem xor_gfMul (h : Primitive F.p F.m) (a b c : Nat) : gfMul F (a ^^^ b) c = gfMul F a c ^^^ gfMul F b c := by
  simp only [gfMul, xor_clmul, pmod_xor h.p_ne_zero]

theorem gfMul_zero (h : Primitive F.p F.m) (a : Nat) : gfMul F a 0 = 0 := by
  rw [gfMul, clmul_zero, pmod_zero h.p_ne_zero]

theorem zero_gfMul (h : Primitive F.p F.m) (a : Nat) : gfMul F 0 a = 0 := by rw [gfMul_comm, gfMul_zero h]

theorem gfMul_one (h : Primitive F.p F.m) {a : Nat} (ha : a < F.size) : gfMul F a 1 = a := by
  rw [gfMul, clmul_one, pmod_of_lt h.p_ne_zero (by rw [h.2.1]; exact ha)]

theorem one_gfMul (h : Primitive F.p F.m) {a : Nat} (ha : a < F.size) : gfMul F 1 a = a := by
  rw [gfMul_comm, gfMul_one h ha]

/-! ## R119: the loop and square-and-multiply -/

theorem gfPowLoop_lt (h : Primitive F.p F.m) (a n : Nat) : gfPowLoop F a n < F.size := by
  cases n with
  | zero => exact one_lt_size h
  | succ n => exact gfMul_lt h _ _

theorem toRing_gfPowLoop (h : Primitive F.p F.m) (a n : Nat) : toRing F (gfPowLoop F a n) = toRing F a ^ n := by
  induction n with
  | zero => simp [gfPowLoop]
  | succ n ih => rw [gfPowLoop, toRing_gfMul h, ih, pow_succ]

/-- The value read so far of n's bits, highest first. -/
theorem ofBitsMSB_append (bs : List Bool) (b : Bool) : ofBitsMSB (bs ++ [b]) = 2 * ofBitsMSB bs + b.toNat := by
  simp [ofBitsMSB, List.foldl_append]

theorem ofBitsMSB_bitsMSB {n v : Nat} (h : v < 2 ^ n) : ofBitsMSB (bitsMSB n v) = v := by
  induction n generalizing v with
  | zero =>
    obtain rfl : v = 0 := by simpa using h
    rfl
  | succ n ih =>
    rw [bitsMSB_succ', ofBitsMSB_append, ih (by rw [pow_succ] at h; omega), Nat.testBit_zero]
    rcases Nat.mod_two_eq_zero_or_one v with h2 | h2 <;> simp [h2] <;> omega

theorem foldl_square_multiply (h : Primitive F.p F.m) (a : Nat) (bs : List Bool) :
    bs.foldl (fun r b => if b then gfMul F (gfMul F r r) a else gfMul F r r) 1 < F.size ∧
      toRing F (bs.foldl (fun r b => if b then gfMul F (gfMul F r r) a else gfMul F r r) 1) =
        toRing F a ^ ofBitsMSB bs := by
  induction bs using List.reverseRecOn with
  | nil => exact ⟨one_lt_size h, by simp [ofBitsMSB]⟩
  | append_singleton bs b ih =>
    rw [List.foldl_append, List.foldl_cons, List.foldl_nil, ofBitsMSB_append]
    refine ⟨by split <;> exact gfMul_lt h _ _, ?_⟩
    cases b
    · simp only [Bool.false_eq_true, if_false, toRing_gfMul h, ih.2, ← pow_add, Bool.toNat_false]
      congr 1; omega
    · simp only [if_true, toRing_gfMul h, ih.2, ← pow_add, ← pow_succ, Bool.toNat_true]
      congr 1; omega

theorem gfPow_lt (h : Primitive F.p F.m) (a n : Nat) : gfPow F a n < F.size := (foldl_square_multiply h a _).1

theorem toRing_gfPow (h : Primitive F.p F.m) (a n : Nat) : toRing F (gfPow F a n) = toRing F a ^ n := by
  rw [gfPow, (foldl_square_multiply h a _).2, ofBitsMSB_bitsMSB Nat.lt_log2_self]

/-- Square-and-multiply gives what R119's loop gives. -/
theorem gfPow_eq_loop (h : Primitive F.p F.m) (a n : Nat) : gfPow F a n = gfPowLoop F a n :=
  toRing_injective h (gfPow_lt h a n) (gfPowLoop_lt h a n) (by rw [toRing_gfPow h, toRing_gfPowLoop h])

/-! ## Non-zero elements are invertible: x generates the multiplicative group (R110) -/

theorem toRing_two_pow (k : Nat) : toRing F (2 ^ k) = toRing F 2 ^ k := by
  simp [toRing, toPoly_two_pow, toPoly_two]

theorem toRing_two_pow_order (h : Primitive F.p F.m) : toRing F 2 ^ (F.size - 1) = 1 := by
  rw [← toRing_two_pow, ← toRing_pmod h, GField.size, h.2.2.1, toRing_one]

theorem toRing_two_pow_ne_one (h : Primitive F.p F.m) {k : Nat} (h0 : 0 < k) (hk : k < F.size - 1) :
    toRing F 2 ^ k ≠ 1 := by
  rw [← toRing_two_pow, ← toRing_pmod h]
  intro heq
  have hlt : pmod (2 ^ k) F.p < F.size := by
    have := pmod_lt h.p_ne_zero (2 ^ k)
    rwa [h.2.1] at this
  exact h.2.2.2 k h0 hk (toRing_injective h hlt (one_lt_size h) (by rw [heq, toRing_one]))

theorem orderOf_two (h : Primitive F.p F.m) : orderOf (toRing F 2) = F.size - 1 := by
  have := h.size_pos
  exact (orderOf_eq_iff (by omega)).mpr
    ⟨toRing_two_pow_order h, fun k hk h0 => toRing_two_pow_ne_one h h0 hk⟩

/-- Every non-zero element is a power of x. -/
theorem exists_two_pow (h : Primitive F.p F.m) {a : Nat} (ha : a < F.size) (h0 : a ≠ 0) :
    ∃ k, k < F.size - 1 ∧ toRing F a = toRing F 2 ^ k := by
  have hs := h.size_pos
  have hlt : ∀ k, pmod (2 ^ k) F.p < F.size := fun k => by
    have := pmod_lt h.p_ne_zero (2 ^ k)
    rwa [h.2.1] at this
  have hr : ∀ k, toRing F (pmod (2 ^ k) F.p) = toRing F 2 ^ k := fun k => by
    rw [toRing_pmod h, toRing_two_pow]
  have hunit : ∀ k, toRing F 2 ^ k ≠ 0 := by
    intro k hk
    have h1 : (1 : AdjoinRoot (toPoly F.p)) = 0 := by
      have : toRing F 2 ^ (k * (F.size - 1)) = 1 := by
        rw [mul_comm, pow_mul, toRing_two_pow_order h, one_pow]
      rw [← this, pow_mul, hk, zero_pow (by omega)]
    have := toRing_injective h (one_lt_size h) (by omega : 0 < F.size) (by rw [toRing_one, toRing_zero, h1])
    omega
  have hmaps : ∀ k ∈ Finset.range (F.size - 1), pmod (2 ^ k) F.p ∈ (Finset.range F.size).erase 0 := by
    intro k _
    rw [Finset.mem_erase, Finset.mem_range]
    refine ⟨fun hz => hunit k ?_, hlt k⟩
    rw [← hr, hz, toRing_zero]
  have hinj : Set.InjOn (fun k => pmod (2 ^ k) F.p) (Finset.range (F.size - 1)) := by
    intro i hi j hj hij
    have hij' : toRing F 2 ^ i = toRing F 2 ^ j := by rw [← hr, ← hr]; exact congrArg _ hij
    have := pow_injOn_Iio_orderOf (x := toRing F 2)
    rw [orderOf_two h] at this
    exact this (by simpa using hi) (by simpa using hj) hij'
  have hcard : ((Finset.range F.size).erase 0).card ≤ (Finset.range (F.size - 1)).card := by
    rw [Finset.card_erase_of_mem (by simp; omega)]
    simp
  have hsurj := Finset.surj_on_of_inj_on_of_card_le (fun k _ => pmod (2 ^ k) F.p) hmaps
    (fun i j hi hj hij => hinj hi hj hij) hcard a (by simp [ha, h0])
  obtain ⟨k, hk, hka⟩ := hsurj
  exact ⟨k, by simpa using hk, by rw [hka, hr]⟩

theorem toRing_pow_size (h : Primitive F.p F.m) {a : Nat} (ha : a < F.size) (h0 : a ≠ 0) :
    toRing F a ^ (F.size - 1) = 1 := by
  obtain ⟨k, -, hk⟩ := exists_two_pow h ha h0
  rw [hk, ← pow_mul, mul_comm, pow_mul, toRing_two_pow_order h, one_pow]

/-- The inverse of R117: b times b^(2^m − 2) is 1. -/
theorem toRing_inv (h : Primitive F.p F.m) {b : Nat} (hb : b < F.size) (h0 : b ≠ 0) :
    toRing F (gfPow F b (F.size - 2)) * toRing F b = 1 := by
  have := h.size_pos
  rw [toRing_gfPow h, ← pow_succ, ← toRing_pow_size h hb h0]
  congr 1; omega

theorem gfMul_eq_zero (h : Primitive F.p F.m) {a b : Nat} (ha : a < F.size) (hb : b < F.size) :
    gfMul F a b = 0 ↔ a = 0 ∨ b = 0 := by
  constructor
  · intro hz
    by_contra hne
    obtain ⟨h1, h2⟩ := not_or.mp hne
    have hr : toRing F a * toRing F b = 0 := by rw [← toRing_gfMul h, hz, toRing_zero]
    have : toRing F a = 0 := by
      calc toRing F a = (toRing F a * toRing F b) * toRing F (gfPow F b (F.size - 2)) := by
            rw [mul_assoc, mul_comm (toRing F b), toRing_inv h hb h2, mul_one]
        _ = 0 := by rw [hr, zero_mul]
    exact h1 (toRing_injective h ha (by have := h.size_pos; omega) (by rw [this, toRing_zero]))
  · rintro (rfl | rfl)
    · exact zero_gfMul h b
    · exact gfMul_zero h a

/-! ## R116 to R118 -/

theorem gfDiv_lt (h : Primitive F.p F.m) (a b : Nat) : gfDiv F a b < F.size := gfMul_lt h _ _

/-- R118, first half: mul(div(a, b), b) = a. -/
theorem gfMul_gfDiv (h : Primitive F.p F.m) {a b : Nat} (ha : a < F.size) (hb : b < F.size) (h0 : b ≠ 0) :
    gfMul F (gfDiv F a b) b = a :=
  toRing_injective h (gfMul_lt h _ _) ha (by
    rw [toRing_gfMul h, gfDiv, toRing_gfMul h, mul_assoc, toRing_inv h hb h0, mul_one])

/-- The quotient is the only element whose product with b is a (R116). -/
theorem eq_gfDiv (h : Primitive F.p F.m) {a b c : Nat} (hb : b < F.size) (h0 : b ≠ 0) (hc : c < F.size)
    (hcb : gfMul F c b = a) : c = gfDiv F a b := by
  apply toRing_injective h hc (gfDiv_lt h a b)
  rw [gfDiv, toRing_gfMul h, ← hcb, toRing_gfMul h, mul_assoc, mul_comm (toRing F b), toRing_inv h hb h0, mul_one]

/-- R118, second half: div(mul(a, b), b) = a. -/
theorem gfDiv_gfMul (h : Primitive F.p F.m) {a b : Nat} (ha : a < F.size) (hb : b < F.size) (h0 : b ≠ 0) :
    gfDiv F (gfMul F a b) b = a := (eq_gfDiv h hb h0 ha rfl).symm

end Sys2Proof.Gf
end

