-- ==== Sys2Proof/Laws/Params.lean ====
section
/-! SUPPORT. A well-formed record of parameters exists (EX meets WF_PARAMS), so the implementation's record is well formed whatever
it is: `Config.params_wf`. Also what R13 and R14 give for every well-formed geometry. -/

namespace Sys2Proof

open Gf

/-! ## The order of x modulo a polynomial -/

namespace Gf

theorem pmod_two_pow_succ (p k : Nat) : pmod (2 ^ (k + 1)) p = pmodStep p (pmod (2 ^ k) p) false := by
  rw [pmod, pmod, Nat.log2_two_pow, Nat.log2_two_pow, bitsMSB_succ' (k + 1), List.foldl_append]
  have : 2 ^ (k + 1) / 2 = 2 ^ k := by rw [pow_succ]; omega
  have h0 : (2 ^ (k + 1)).testBit 0 = false := by rw [Nat.testBit_two_pow]; simp
  rw [this, h0]
  rfl

/-- Multiplies the remainder r by x, n times, and checks that 1 comes up at the last of them only. -/
def orderCheck (p : Nat) : Nat → Nat → Bool
  | 0, r => r == 1
  | n + 1, r => r != 1 && orderCheck p n (pmodStep p r false)

theorem orderCheck_spec {p : Nat} : ∀ {n k : Nat}, orderCheck p n (pmod (2 ^ k) p) = true →
    pmod (2 ^ (k + n)) p = 1 ∧ ∀ j, k ≤ j → j < k + n → pmod (2 ^ j) p ≠ 1 := by
  intro n
  induction n with
  | zero =>
    intro k h
    exact ⟨by simpa [orderCheck] using h, fun j h1 h2 => by omega⟩
  | succ n ih =>
    intro k h
    simp only [orderCheck, Bool.and_eq_true, bne_iff_ne] at h
    obtain ⟨h1, h2⟩ := h
    rw [← pmod_two_pow_succ] at h2
    obtain ⟨ih1, ih2⟩ := ih h2
    refine ⟨by rw [← ih1]; congr 2; omega, fun j hj hj' => ?_⟩
    rcases Nat.eq_or_lt_of_le hj with rfl | hlt
    · exact h1
    · exact ih2 j hlt (by omega)

theorem primitive_of_orderCheck {p m : Nat} (hm : 1 ≤ m) (hd : deg p = m)
    (h : orderCheck p (2 ^ m - 2) (pmod (2 ^ 1) p) = true) : Primitive p m := by
  obtain ⟨h1, h2⟩ := orderCheck_spec h
  have : 2 ≤ 2 ^ m := by simpa using Nat.pow_le_pow_right (n := 2) (by decide) hm
  refine ⟨hm, hd, by rw [← h1]; congr 2; omega, fun k h0 hk => h2 k h0 (by omega)⟩

theorem primitive_rs_example : Primitive 0x409 10 :=
  primitive_of_orderCheck (by decide) (by decide) (by decide +kernel)

theorem primitive_bch_example : Primitive 0x201B 13 :=
  primitive_of_orderCheck (by decide) (by decide) (by decide +kernel)

end Gf

/-! ## Well-formed geometries (R13, R14, R180) -/

namespace Geom

variable {g : Geom}

theorem off_succ (g : Geom) (i : Nat) : g.off (i + 1) = g.off i + g.dsz i := by
  simp [off, List.range_succ]

theorem off_zero (g : Geom) : g.off 0 = 0 := rfl

theorem off_mono (g : Geom) {i j : Nat} (h : i ≤ j) : g.off i ≤ g.off j := by
  induction h with
  | refl => exact le_rfl
  | step _ ih => exact le_trans ih (by rw [off_succ]; omega)

/-- Slices end where the next begins, so an earlier slice ends before a later one starts. -/
theorem off_add_dsz_le (g : Geom) {i j : Nat} (h : i < j) : g.off i + g.dsz i ≤ g.off j := by
  rw [← off_succ]; exact g.off_mono h

theorem off_of_lt {i : Nat} (h : i ≤ g.n - 1) : g.off i = i * g.d := by
  induction i with
  | zero => simp [off_zero]
  | succ i ih => rw [off_succ, ih (by omega), dsz, if_pos (by omega), Nat.succ_mul]

theorem WF.off_n {c : Cfg} (h : g.WF c) : g.off g.n = c.page := by
  have hn := h.n_pos
  obtain ⟨k, hk⟩ : ∃ k, g.n = k + 1 := ⟨g.n - 1, by omega⟩
  rw [hk, off_succ, off_of_lt (by omega), dsz, if_neg (by omega), ← h.sum, hk]
  simp

theorem WF.dsz_pos {c : Cfg} (h : g.WF c) (i : Nat) : 1 ≤ g.dsz i := by
  have h1 := h.d_pos
  have h2 := h.dl_pos
  unfold dsz; split <;> omega

theorem WF.off_add_dsz_le_page {c : Cfg} (h : g.WF c) {i : Nat} (hi : i < g.n) : g.off i + g.dsz i ≤ c.page := by
  rw [← h.off_n]; exact g.off_add_dsz_le hi

/-- R185's test holds for every well-formed geometry. -/
theorem WF.segOk {c : Cfg} (h : g.WF c) : g.segOk c.page = true := by
  have hn := h.n_pos
  obtain ⟨k, hk⟩ : ∃ k, g.n = k + 1 := ⟨g.n - 1, by omega⟩
  have h1 : (g.seg.map Prod.fst).head? = some 0 := by
    rw [seg, hk, List.range_succ_eq_map]; simp [off_zero]
  have h2 : (g.seg.getLast?.map fun e => e.1 + e.2) = some c.page := by
    rw [seg, hk, List.range_succ]
    simp only [List.map_append, List.map_cons, List.map_nil, List.getLast?_append, List.getLast?_singleton, Option.some_or,
      Option.map_some]
    rw [← off_succ, ← hk, h.off_n]
  have h3 : (g.seg.all fun e => decide (1 ≤ e.2)) = true := by
    simp only [List.all_eq_true, decide_eq_true_eq, seg, List.mem_map]
    rintro _ ⟨i, -, rfl⟩
    exact h.dsz_pos i
  simp [Geom.segOk, h1, h2, h3, h.n_le]

/-- A block is a slice of its page and the pad, of length L(c, i) (R184). -/
theorem WF.block_length {c : Cfg} (h : g.WF c) {i : Nat} (hi : i < g.n) {raw : List Byte} (hr : raw.length = c.page) :
    (g.block i raw).length = g.blockLen i := by
  have := h.off_add_dsz_le_page hi
  simp only [block, slice, blockLen, List.length_append, List.length_take, List.length_drop]
  omega

end Geom

/-! ## The sequential layout (R199) -/

namespace Geom

variable {g : Geom}

/-- The part of LAYOUT_SEQ that codeword i contributes. -/
def seqPart (g : Geom) (i : Nat) : List LayoutSrc :=
  (List.range (g.dsz i)).map (fun k => LayoutSrc.data (g.off i + k)) ++ (List.range g.p).map fun k => LayoutSrc.par i k

theorem layoutSeq_eq (g : Geom) (m : Nat) :
    g.layoutSeq m = (List.range g.n).flatMap g.seqPart ++ List.replicate (m - g.n * g.p) .fill := rfl

theorem length_parts (g : Geom) (n : Nat) : ((List.range n).flatMap g.seqPart).length = g.off n + n * g.p := by
  induction n with
  | zero => simp [off_zero]
  | succ n ih =>
    rw [List.range_succ, List.flatMap_append, List.length_append, ih, off_succ, Nat.succ_mul]
    simp [seqPart]; omega

theorem filterMap_replicate_fill {α : Type} (f : LayoutSrc → Option α) (hf : f .fill = none) (m : Nat) :
    (List.replicate m LayoutSrc.fill).filterMap f = [] := by
  rw [List.filterMap_eq_nil_iff]
  intro x hx
  rw [List.eq_of_mem_replicate hx, hf]

theorem data_parts (g : Geom) (n : Nat) :
    ((List.range n).flatMap g.seqPart).filterMap LayoutSrc.dataIdx = List.range (g.off n) := by
  induction n with
  | zero => simp [off_zero]
  | succ n ih =>
    have h1 : ((List.range (g.dsz n)).map fun k => LayoutSrc.data (g.off n + k)).filterMap LayoutSrc.dataIdx =
        (List.range (g.dsz n)).map (g.off n + ·) := by
      rw [List.filterMap_map, ← List.filterMap_eq_map]; rfl
    have h2 : ((List.range g.p).map fun k => LayoutSrc.par n k).filterMap LayoutSrc.dataIdx = [] := by
      rw [List.filterMap_map, List.filterMap_eq_nil_iff]; intros; rfl
    rw [List.range_succ, List.flatMap_append, List.filterMap_append, ih, off_succ, List.range_add]
    simp only [List.flatMap_cons, List.flatMap_nil, List.append_nil, seqPart, List.filterMap_append, h1, h2]

theorem par_parts (g : Geom) (i n : Nat) :
    ((List.range n).flatMap g.seqPart).filterMap (LayoutSrc.parIdx i) = if i < n then List.range g.p else [] := by
  induction n with
  | zero => simp
  | succ n ih =>
    have h1 : ((List.range (g.dsz n)).map fun k => LayoutSrc.data (g.off n + k)).filterMap (LayoutSrc.parIdx i) = [] := by
      rw [List.filterMap_map, List.filterMap_eq_nil_iff]; intros; rfl
    have h2 : ((List.range g.p).map fun k => LayoutSrc.par n k).filterMap (LayoutSrc.parIdx i) =
        if n = i then List.range g.p else [] := by
      rw [List.filterMap_map]
      by_cases h : n = i
      · rw [if_pos h]; simp [LayoutSrc.parIdx, h]
      · rw [if_neg h, List.filterMap_eq_nil_iff]; intro k _; simp [LayoutSrc.parIdx, h]
    rw [List.range_succ, List.flatMap_append, List.filterMap_append, ih]
    simp only [List.flatMap_cons, List.flatMap_nil, List.append_nil, seqPart, List.filterMap_append, h1, h2, List.nil_append]
    by_cases h : i < n
    · simp [h, show i < n + 1 by omega, show ¬ n = i by omega]
    · by_cases h' : n = i
      · simp [h']
      · simp [h, h', show ¬ i < n + 1 by omega]

theorem mem_parts {x : LayoutSrc} {n : Nat} (h : x ∈ (List.range n).flatMap g.seqPart) :
    (∃ i k, i < n ∧ k < g.dsz i ∧ x = .data (g.off i + k)) ∨ ∃ i k, i < n ∧ k < g.p ∧ x = .par i k := by
  simp only [List.mem_flatMap, List.mem_range, seqPart, List.mem_append, List.mem_map] at h
  obtain ⟨i, hi, ⟨k, hk, rfl⟩ | ⟨k, hk, rfl⟩⟩ := h
  · exact .inl ⟨i, k, hi, hk, rfl⟩
  · exact .inr ⟨i, k, hi, hk, rfl⟩

theorem pairwise_parts (g : Geom) (n : Nat) : ((List.range n).flatMap g.seqPart).Pairwise g.inOrder := by
  induction n with
  | zero => simp
  | succ n ih =>
    rw [List.range_succ, List.flatMap_append, List.pairwise_append]
    refine ⟨ih, ?_, ?_⟩
    · simp only [List.flatMap_cons, List.flatMap_nil, List.append_nil, seqPart, List.pairwise_append, List.pairwise_map]
      refine ⟨List.Pairwise.imp (fun _ => trivial) List.pairwise_lt_range,
        List.Pairwise.imp (fun _ => trivial) List.pairwise_lt_range, ?_⟩
      simp only [List.mem_map, List.mem_range]
      rintro _ ⟨k, hk, rfl⟩ _ ⟨k', -, rfl⟩
      simp only [inOrder]
      rintro ⟨-, h1, -⟩
      rw [off_succ] at h1; omega
    · intro x hx y hy
      simp only [List.flatMap_cons, List.flatMap_nil, List.append_nil, seqPart, List.mem_append, List.mem_map,
        List.mem_range] at hy
      rcases mem_parts hx with ⟨i, k, hi, hk, rfl⟩ | ⟨i, k, hi, hk, rfl⟩ <;>
        obtain ⟨k', hk', rfl⟩ | ⟨k', hk', rfl⟩ := hy
      · trivial
      · simp only [inOrder]
        rintro ⟨-, h1, -⟩
        have := g.off_mono (i := i + 1) (j := n + 1) (by omega)
        rw [off_succ g i] at this
        omega
      · simp only [inOrder]
        rintro ⟨h1, h2⟩
        have := g.off_add_dsz_le hi
        omega
      · trivial

/-- R199: LAYOUT_SEQ is well formed when the OOB area holds every codeword's parity. -/
theorem layoutSeq_wf {g : Geom} {c : Cfg} (hoff : g.off g.n = c.page) (hfit : g.n * g.p ≤ c.oobSize.bytes)
    (hl : g.layout = g.layoutSeq c.oobSize.bytes) : g.WFLayout c where
  length := by
    rw [hl, layoutSeq_eq, List.length_append, length_parts, hoff, List.length_replicate]
    simp only [Cfg.total, Cfg.page]; omega
  dataOnce := by
    rw [hl, layoutSeq_eq, List.filterMap_append, data_parts, filterMap_replicate_fill _ rfl, List.append_nil, hoff]
  parOnce i hi := by
    rw [hl, layoutSeq_eq, List.filterMap_append, par_parts, filterMap_replicate_fill _ rfl, List.append_nil, if_pos hi]
  parOnly i k h := by
    rw [hl, layoutSeq_eq, List.mem_append] at h
    rcases h with h | h
    · rcases mem_parts h with ⟨i', k', -, -, he⟩ | ⟨i', k', hi', -, he⟩
      · simp at he
      · simp only [LayoutSrc.par.injEq] at he; omega
    · simp [List.mem_replicate] at h
  order := by
    rw [hl, layoutSeq_eq, List.pairwise_append]
    refine ⟨pairwise_parts g _, ?_, ?_⟩
    · rw [List.pairwise_replicate]; right; trivial
    · intro x _ y hy
      rw [List.eq_of_mem_replicate hy]
      cases x <;> trivial

end Geom

/-! ## EX is well formed -/

namespace Params

theorem msbMap_wf {n out : Nat} (h : n ≤ out) : BitMapWF (msbMap n out) n out := by
  constructor
  · simp [msbMap]; omega
  · rw [msbMap, List.filterMap_append, List.filterMap_map]
    simp

theorem ex_supported {c : Cfg} (h : ex.supported c = true) : c ∈ Cfg.five := by simpa [ex] using h

theorem ex_field : ex.mBCH4 = 13 ∧ ex.mBCH8 = 13 := by constructor <;> decide +kernel

theorem ex_geom_wf : ∀ c ∈ Cfg.five, (ex.geom c).WF c := by
  have key : ∀ c ∈ Cfg.five, 1 ≤ (ex.geom c).n ∧ 1 ≤ (ex.geom c).d ∧ 1 ≤ (ex.geom c).dl ∧
      (ex.geom c).dl ≤ (ex.geom c).d ∧ 1 ≤ (ex.geom c).p ∧
      ((ex.geom c).n - 1) * (ex.geom c).d + (ex.geom c).dl = c.page ∧ (ex.geom c).n ≤ slots ∧
      (ex.geom c).p ≤ parCap ∧ (∀ i, i < (ex.geom c).n → (ex.geom c).blockLen i ≤ encCap) ∧
      (ex.geom c).off (ex.geom c).n = c.page ∧ (ex.geom c).n * (ex.geom c).p ≤ c.oobSize.bytes := by decide +kernel
  intro c hc
  obtain ⟨h1, h2, h3, h4, h5, h6, h7, h8, h9, h10, h11⟩ := key c hc
  exact ⟨h1, h2, h3, h4, h5, h6, h7, h8, h9, Geom.layoutSeq_wf h10 h11 rfl⟩

theorem ex_lengths : ∀ c ∈ Cfg.five, ∀ i, i < (ex.geom c).n →
    symCount ((ex.geom c).blockLen i) + ex.nsym ≤ 2 ^ mRS - 1 ∧
    8 * (ex.geom c).blockLen i + deg ex.gBCH4 ≤ 2 ^ 13 - 1 ∧
    8 * (ex.geom c).blockLen i + deg ex.gBCH8 ≤ 2 ^ 13 - 1 := by decide +kernel

/-- EX meets `WF_PARAMS` (R23, R24). -/
theorem ex_wf : ex.WF where
  five := by decide
  narrow c h := by
    have : ∀ c ∈ Cfg.five, c.widebus = false := by decide
    exact this c (ex_supported h)
  geom c h := ex_geom_wf c (ex_supported h)
  parity c h := by
    have : ∀ c ∈ Cfg.five, (ex.geom c).p = ex.parityBytes c.ecc := by decide +kernel
    exact this c (ex_supported h)
  primRS := primitive_rs_example
  gRS_deg := by decide
  gRS_monic := by decide
  gRS_const := by decide
  gRS_elem := by decide
  rs_len c h _ i hi := (ex_lengths c (ex_supported h) i hi).1
  primBCH4 := by rw [ex_field.1]; exact primitive_bch_example
  primBCH8 := by rw [ex_field.2]; exact primitive_bch_example
  gBCH4_deg := by decide
  gBCH8_deg := by decide
  gBCH4_const := by decide
  gBCH8_const := by decide
  bch4_len c h _ i hi := by rw [ex_field.1]; exact (ex_lengths c (ex_supported h) i hi).2.1
  bch8_len c h _ i hi := by rw [ex_field.2]; exact (ex_lengths c (ex_supported h) i hi).2.2
  unpackRS L := msbMap_wf (by simp only [symCount, mRS]; omega)
  packRS := msbMap_wf (by decide)
  unpackBCH L := msbMap_wf le_rfl
  packBCH R := msbMap_wf (by simp only [bytesFor]; omega)

end Params

/-- The implementation's record meets `WF_PARAMS`, whatever it is (R23). -/
theorem Config.params_wf : Config.params.WF := by
  unfold Config.params
  split
  · rename_i P _; exact P.property
  · exact Params.ex_wf

/-! ## Field sizes (R17, R21) -/

section
open Gf

theorem Params.WF.primitive {P : Params} (h : P.WF) (fld : Fld) : Primitive (P.field fld).p (P.field fld).m := by
  cases fld
  · exact h.primRS
  · exact h.primBCH4
  · exact h.primBCH8

theorem foldl_max_le {l : List Nat} {a B : Nat} (ha : a ≤ B) (h : ∀ x ∈ l, x ≤ B) : l.foldl max a ≤ B := by
  induction l generalizing a with
  | nil => exact ha
  | cons x l ih => exact ih (max_le ha (h x (by simp))) fun y hy => h y (by simp [hy])

theorem le_foldl_max {l : List Nat} : ∀ {a : Nat}, a ≤ l.foldl max a ∧ ∀ x ∈ l, x ≤ l.foldl max a := by
  induction l with
  | nil => intro a; simp
  | cons y l ih =>
    intro a
    obtain ⟨h1, h2⟩ := ih (a := max a y)
    refine ⟨by simp only [List.foldl]; omega, fun x hx => ?_⟩
    simp only [List.foldl]
    rcases List.mem_cons.mp hx with rfl | hx
    · omega
    · exact h2 x hx

theorem Cfg.mem_all (c : Cfg) : c ∈ Cfg.all := by
  obtain ⟨ps, os, e, wb⟩ := c
  cases ps <;> cases os <;> cases e <;> cases wb <;> decide

/-- No block of a supported configuration is longer than the maximum of its scheme (R17). -/
theorem Params.le_maxBlock {P : Params} {e : Ecc} {c : Cfg} {i : Nat} (hs : P.supported c = true) (he : c.ecc = e)
    (hi : i < (P.geom c).n) : (P.geom c).blockLen i ≤ P.maxBlock e := by
  refine le_foldl_max.2 _ ?_
  simp only [List.mem_flatMap, List.mem_filter, List.mem_map, List.mem_range]
  exact ⟨c, ⟨Cfg.mem_all c, by simp [hs, he]⟩, i, hi, rfl⟩

theorem Params.WF.maxBlock_le {P : Params} (h : P.WF) (e : Ecc) : P.maxBlock e ≤ 1024 := by
  unfold Params.maxBlock
  refine foldl_max_le (by omega) fun x hx => ?_
  simp only [List.mem_flatMap, List.mem_filter, List.mem_map, List.mem_range, Bool.and_eq_true] at hx
  obtain ⟨c, ⟨-, hc, -⟩, i, hi, rfl⟩ := hx
  exact (h.geom c hc).block_le i hi

theorem Gf.leastWidth_le {B : Nat} (h : B < 2 ^ 14) : leastWidth B ≤ 14 := by
  unfold leastWidth
  by_cases h0 : B = 0
  · subst h0; decide
  · have := (Nat.log2_lt h0).mpr h; omega

theorem Params.WF.deg_bch_le {P : Params} (h : P.WF) : deg P.gBCH4 ≤ 512 ∧ deg P.gBCH8 ≤ 512 := by
  have h4 := h.five ⟨.p2048, .o64, .bch4, false⟩ (by decide)
  have h8 := h.five ⟨.p2048, .o128, .bch8, false⟩ (by decide)
  have a4 := (h.geom _ h4).p_le
  have a8 := (h.geom _ h8).p_le
  rw [h.parity _ h4] at a4
  rw [h.parity _ h8] at a8
  simp only [Params.parityBytes, bytesFor, parCap] at a4 a8
  omega

/-- Every field has at most 2^14 elements, so an element fits a register. -/
theorem Params.WF.field_size_le {P : Params} (h : P.WF) (fld : Fld) : (P.field fld).size ≤ 2 ^ 14 := by
  obtain ⟨h4, h8⟩ := h.deg_bch_le
  have m4 := h.maxBlock_le .bch4
  have m8 := h.maxBlock_le .bch8
  cases fld
  · exact Nat.pow_le_pow_right (by decide) (by show mRS ≤ 14; decide)
  · exact Nat.pow_le_pow_right (by decide) (leastWidth_le (by omega))
  · exact Nat.pow_le_pow_right (by decide) (leastWidth_le (by omega))

end

end Sys2Proof
end

