-- ==== Sys2Proof/Laws/Parity.lean ====
section
/-! SUPPORT. The parity functions of Machine/Params.lean: lengths, and what their bit-level parts do to an XOR of two inputs and
to zero bits (R19, R141, R143, R155, R157). -/

namespace Sys2Proof.Gf

/-- XOR of two bit lists of one length. -/
def xorBits (t t' : List Bool) : List Bool := List.zipWith xor t t'

/-- XOR of two coefficient lists of one length. -/
def xorCoeffs (r r' : List Nat) : List Nat := List.zipWith (· ^^^ ·) r r'

/-- XOR of two blocks of one length. -/
def xorBytes (s s' : List Byte) : List Byte := List.zipWith (· ^^^ ·) s s'

/-! ## Lengths -/

@[simp] theorem byteBits_length (b : Byte) : (byteBits b).length = 8 := by simp [byteBits, bitsMSB]

@[simp] theorem bits_length (s : List Byte) : (bits s).length = 8 * s.length := by
  induction s with
  | nil => rfl
  | cons b s ih =>
    rw [bits, List.flatMap_cons, List.length_append, byteBits_length, ← bits, ih, List.length_cons]; omega

@[simp] theorem groups_length (w n : Nat) (t : List Bool) : (groups w n t).length = n := by simp [groups]

@[simp] theorem applyMap_length (f : BitMap) (t : List Bool) : (applyMap f t).length = f.length := by simp [applyMap]

@[simp] theorem bytesOfBits_length (t : List Bool) : (bytesOfBits t).length = t.length / 8 := by simp [bytesOfBits]

theorem rsStep_length {F : GField} {g r : List Nat} {c n : Nat} (hn : 1 ≤ n) (hg : g.length = n + 1) (hr : r.length = n) :
    (rsStep F g r c).length = n := by
  simp [rsStep, hg, hr]; omega

theorem foldl_rsStep_length {F : GField} {g : List Nat} {n : Nat} (hn : 1 ≤ n) (hg : g.length = n + 1) (cs : List Nat) :
    ∀ r : List Nat, r.length = n → (cs.foldl (rsStep F g) r).length = n := by
  induction cs with
  | nil => exact fun r hr => hr
  | cons c cs ih => exact fun r hr => ih _ (rsStep_length hn hg hr)

theorem polyMod_length {F : GField} {g : List Nat} {n : Nat} (hn : 1 ≤ n) (hg : g.length = n + 1) (cs : List Nat) :
    (polyMod F g cs).length = n := foldl_rsStep_length hn hg cs _ (by simp [hg])

/-! ## Linearity of the bit-level parts -/

theorem ofBitsMSB_lt (t : List Bool) : ofBitsMSB t < 2 ^ t.length := by
  induction t using List.reverseRecOn with
  | nil => simp [ofBitsMSB]
  | append_singleton t b ih =>
    rw [ofBitsMSB_append, List.length_append, List.length_singleton, pow_succ]
    have := Bool.toNat_lt b
    omega

theorem two_mul_add_xor (a b : Nat) (x y : Bool) :
    (2 * a + x.toNat) ^^^ (2 * b + y.toNat) = 2 * (a ^^^ b) + (xor x y).toNat := by
  apply Nat.eq_of_testBit_eq
  intro i
  have key : ∀ (c : Nat) (z : Bool), (2 * c + z.toNat).testBit i = if i = 0 then z else c.testBit (i - 1) := by
    intro c z
    cases i with
    | zero => cases z <;> simp [Nat.testBit_zero]
    | succ i =>
      rw [Nat.testBit_succ]
      have : (2 * c + z.toNat) / 2 = c := by have := Bool.toNat_lt z; omega
      simp [this]
  rw [Nat.testBit_xor, key, key, key, Nat.testBit_xor]
  split <;> rfl

theorem ofBitsMSB_xor : ∀ {t t' : List Bool}, t.length = t'.length →
    ofBitsMSB (xorBits t t') = ofBitsMSB t ^^^ ofBitsMSB t' := by
  intro t
  induction t using List.reverseRecOn with
  | nil => intro t' h; obtain rfl := List.length_eq_zero_iff.mp h.symm; rfl
  | append_singleton t b ih =>
    intro t' h
    rcases List.eq_nil_or_concat t' with rfl | ⟨u, b', rfl⟩
    · simp at h
    · rw [List.concat_eq_append] at h ⊢
      have hl : t.length = u.length := by simpa using h
      rw [xorBits, List.zipWith_append hl, ofBitsMSB_append, ofBitsMSB_append, List.zipWith_cons_cons, List.zipWith_nil_left,
        ofBitsMSB_append, ← xorBits, ih hl, two_mul_add_xor]

theorem bitsMSB_xor (n a b : Nat) : bitsMSB n (a ^^^ b) = xorBits (bitsMSB n a) (bitsMSB n b) := by
  simp only [bitsMSB, xorBits, List.zipWith_map, List.zipWith_self]
  exact List.map_congr_left fun k _ => Nat.testBit_xor ..

theorem bits_xor : ∀ {s s' : List Byte}, s.length = s'.length → bits (xorBytes s s') = xorBits (bits s) (bits s') := by
  intro s
  induction s with
  | nil => intro s' h; obtain rfl := List.length_eq_zero_iff.mp h.symm; rfl
  | cons b s ih =>
    intro s' h
    cases s' with
    | nil => simp at h
    | cons b' s' =>
      have hb : byteBits (b ^^^ b') = xorBits (byteBits b) (byteBits b') := by
        rw [byteBits, BitVec.toNat_xor, bitsMSB_xor]; rfl
      have hc : ∀ (x : Byte) (u : List Byte), bits (x :: u) = byteBits x ++ bits u := fun _ _ => rfl
      rw [xorBytes, List.zipWith_cons_cons, hc, hc, hc, hb, ← xorBytes, ih (by simpa using h)]
      simp only [xorBits]
      rw [List.zipWith_append (by simp)]

theorem applyMap_xor (f : BitMap) {t t' : List Bool} (h : t.length = t'.length) :
    applyMap f (xorBits t t') = xorBits (applyMap f t) (applyMap f t') := by
  simp only [applyMap, xorBits, List.zipWith_map, List.zipWith_self]
  apply List.map_congr_left
  intro src _
  cases src with
  | none => rfl
  | some j =>
    simp only [List.getD_eq_getElem?_getD, List.getElem?_zipWith]
    by_cases hj : j < t.length
    · rw [List.getElem?_eq_getElem hj, List.getElem?_eq_getElem (h ▸ hj)]; rfl
    · rw [List.getElem?_eq_none (by omega), List.getElem?_eq_none (by omega)]; rfl

theorem groups_xor (w n : Nat) {t t' : List Bool} (h : t.length = t'.length) :
    groups w n (xorBits t t') = xorCoeffs (groups w n t) (groups w n t') := by
  simp only [groups, xorCoeffs, List.zipWith_map, List.zipWith_self]
  apply List.map_congr_left
  intro j _
  rw [← ofBitsMSB_xor (by simp [h])]
  simp [xorBits, List.drop_zipWith, List.take_zipWith]

theorem bytesOfBits_xor {t t' : List Bool} (h : t.length = t'.length) :
    bytesOfBits (xorBits t t') = xorBytes (bytesOfBits t) (bytesOfBits t') := by
  have hl : (xorBits t t').length = t.length := by simp [xorBits, h]
  rw [bytesOfBits, hl, groups_xor 8 _ h, bytesOfBits, bytesOfBits, ← h, xorCoeffs, xorBytes, List.map_zipWith,
    List.zipWith_map]
  congr 1
  funext a b
  apply BitVec.eq_of_toNat_eq
  simp [BitVec.toNat_ofNat, BitVec.toNat_xor]

theorem flatMap_bitsMSB_xor (w : Nat) : ∀ {r r' : List Nat}, r.length = r'.length →
    (xorCoeffs r r').flatMap (bitsMSB w) = xorBits (r.flatMap (bitsMSB w)) (r'.flatMap (bitsMSB w)) := by
  intro r
  induction r with
  | nil => intro r' h; obtain rfl := List.length_eq_zero_iff.mp h.symm; rfl
  | cons x r ih =>
    intro r' h
    cases r' with
    | nil => simp at h
    | cons x' r' =>
      rw [xorCoeffs, List.zipWith_cons_cons, List.flatMap_cons, bitsMSB_xor, ← xorCoeffs, ih (by simpa using h),
        List.flatMap_cons, List.flatMap_cons, xorBits, xorBits, xorBits, List.zipWith_append (by simp [bitsMSB])]

/-! ## Linearity of division over GF(2^m) -/

theorem getLastD_xor {r r' : List Nat} (h : r.length = r'.length) :
    (xorCoeffs r r').getLastD 0 = r.getLastD 0 ^^^ r'.getLastD 0 := by
  rw [List.getLastD_eq_getLast?, List.getLastD_eq_getLast?, List.getLastD_eq_getLast?]
  simp only [List.getLast?_eq_getElem?, xorCoeffs, List.getElem?_zipWith, List.length_zipWith, ← h, Nat.min_self]
  by_cases hr : r.length - 1 < r.length
  · rw [List.getElem?_eq_getElem hr, List.getElem?_eq_getElem (h ▸ hr)]; rfl
  · rw [List.getElem?_eq_none (by omega), List.getElem?_eq_none (by omega)]; rfl

theorem dropLast_xor {r r' : List Nat} (h : r.length = r'.length) :
    (xorCoeffs r r').dropLast = xorCoeffs r.dropLast r'.dropLast := by
  simp [xorCoeffs, List.dropLast_eq_take, List.take_zipWith, ← h]

theorem rsStep_xor {F : GField} (hF : Primitive F.p F.m) {g r r' : List Nat} (h : r.length = r'.length) (c c' : Nat) :
    rsStep F g (xorCoeffs r r') (c ^^^ c') = xorCoeffs (rsStep F g r c) (rsStep F g r' c') := by
  simp only [rsStep, getLastD_xor h, dropLast_xor h]
  apply List.ext_getElem
  · simp [xorCoeffs, h]
  · intro k h1 h2
    simp only [xorCoeffs, List.getElem_zipWith, xor_gfMul hF]
    cases k with
    | zero => simp only [List.getElem_cons_zero]; ac_rfl
    | succ k => simp only [List.getElem_cons_succ, List.getElem_zipWith]; ac_rfl

theorem foldl_rsStep_xor {F : GField} (hF : Primitive F.p F.m) {g : List Nat} {n : Nat} (hn : 1 ≤ n)
    (hg : g.length = n + 1) : ∀ (cs cs' r r' : List Nat), cs.length = cs'.length → r.length = n → r'.length = n →
    (xorCoeffs cs cs').foldl (rsStep F g) (xorCoeffs r r') =
      xorCoeffs (cs.foldl (rsStep F g) r) (cs'.foldl (rsStep F g) r') := by
  intro cs
  induction cs with
  | nil => intro cs' r r' h _ _; obtain rfl := List.length_eq_zero_iff.mp h.symm; rfl
  | cons c cs ih =>
    intro cs' r r' h hr hr'
    cases cs' with
    | nil => simp at h
    | cons c' cs' =>
      rw [show xorCoeffs (c :: cs) (c' :: cs') = (c ^^^ c') :: xorCoeffs cs cs' from rfl, List.foldl_cons, List.foldl_cons,
        List.foldl_cons, rsStep_xor hF (hr.trans hr'.symm)]
      exact ih _ _ _ (by simpa using h) (rsStep_length hn hg hr) (rsStep_length hn hg hr')

/-- Reading in at most deg g coefficients from the zero remainder only shifts them in. -/
theorem foldl_rsStep_short {F : GField} (hF : Primitive F.p F.m) {g : List Nat} {n : Nat} (hg : g.length = n + 1) :
    ∀ cs : List Nat, cs.length ≤ n →
      cs.foldl (rsStep F g) (List.replicate n 0) = cs.reverse ++ List.replicate (n - cs.length) 0 := by
  intro cs
  induction cs using List.reverseRecOn with
  | nil => intro _; simp
  | append_singleton cs c ih =>
    intro h
    rw [List.length_append, List.length_singleton] at h
    obtain ⟨k, hk⟩ : ∃ k, n - cs.length = k + 1 := ⟨n - cs.length - 1, by omega⟩
    rw [List.foldl_append, ih (by omega), hk]
    simp only [List.foldl_cons, List.foldl_nil, rsStep, List.replicate_succ', ← List.append_assoc, List.getLastD_concat,
      List.dropLast_concat, List.reverse_append, List.reverse_singleton, List.length_append, List.length_singleton,
      show n - (cs.length + 1) = k by omega, zero_gfMul hF, Nat.xor_zero, List.singleton_append]
    apply List.ext_getElem
    · simp [hg]; omega
    · intro i h1 h2
      simp

theorem rsStep_zero {F : GField} (hF : Primitive F.p F.m) {g : List Nat} {n : Nat} (hn : 1 ≤ n) (hg : g.length = n + 1) :
    rsStep F g (List.replicate n 0) 0 = List.replicate n 0 := by
  have := foldl_rsStep_short hF hg [0] (by simpa using hn)
  simp only [List.foldl_cons, List.foldl_nil, List.reverse_singleton, List.length_singleton, List.singleton_append,
    ← List.replicate_succ, Nat.sub_add_cancel hn] at this
  exact this

/-- The zero polynomial has the zero remainder. -/
theorem polyMod_zero {F : GField} (hF : Primitive F.p F.m) {g : List Nat} {n : Nat} (hn : 1 ≤ n) (hg : g.length = n + 1)
    (k : Nat) : polyMod F g (List.replicate k 0) = List.replicate n 0 := by
  rw [polyMod, hg, Nat.add_sub_cancel]
  induction k with
  | zero => rfl
  | succ k ih => rw [List.replicate_succ, List.foldl_cons, rsStep_zero hF hn hg, ih]

/-- Division's remainders are lists of field elements. -/
theorem rsStep_lt {F : GField} (hF : Primitive F.p F.m) {g r : List Nat} {c : Nat} (hc : c < F.size)
    (hr : ∀ x ∈ r, x < F.size) :
   ∀ x ∈ rsStep F g r c, x < F.size := by
  intro x hx
  unfold rsStep at hx
  rw [List.zipWith_eq_zipWith_take_min] at hx
  obtain ⟨i, hi, rfl⟩ := List.getElem_of_mem hx
  rw [List.getElem_zipWith]
  refine Nat.xor_lt_two_pow ?_ (gfMul_lt hF _ _)
  have hm : ∀ y ∈ c :: r.dropLast, y < F.size := by
    intro y hy
    rcases List.mem_cons.mp hy with rfl | h
    · exact hc
    · exact hr y (List.mem_of_mem_dropLast h)
  exact hm _ (List.mem_of_mem_take (List.getElem_mem _))

theorem foldl_rsStep_lt {F : GField} (hF : Primitive F.p F.m) {g : List Nat} (cs : List Nat) :
    ∀ r : List Nat, (∀ x ∈ cs, x < F.size) → (∀ x ∈ r, x < F.size) →
   ∀ x ∈ cs.foldl (rsStep F g) r, x < F.size := by
  induction cs with
  | nil => intro r _ h; exact h
  | cons c cs ih => intro r hc hr; exact ih _ (fun x hx => hc x (by simp [hx])) (rsStep_lt hF (hc c (by simp)) hr)

/-- Leading zero bits change no value. -/
theorem ofBitsMSB_zeros (n : Nat) (t : List Bool) : ofBitsMSB (List.replicate n false ++ t) = ofBitsMSB t := by
  unfold ofBitsMSB
  rw [List.foldl_append]
  congr 1
  induction n with
  | zero => rfl
  | succ n ih => rw [List.replicate_succ, List.foldl_cons]; exact ih

theorem xorCoeffs_reverse {a b : List Nat} (h : a.length = b.length) :
    (xorCoeffs a b).reverse = xorCoeffs a.reverse b.reverse := by
  apply List.ext_getElem
  · simp [xorCoeffs]
  · intro i h1 h2; simp [xorCoeffs, h]

theorem xorCoeffs_append {a b c d : List Nat} (h : a.length = c.length) :
    xorCoeffs (a ++ b) (c ++ d) = xorCoeffs a c ++ xorCoeffs b d := by
  unfold xorCoeffs; rw [List.zipWith_append h]

end Sys2Proof.Gf

namespace Sys2Proof

open Gf

namespace Params.WF

variable {P : Params} (h : P.WF)
include h

theorem gRS_length : P.gRS.length = P.nsym + 1 := by
  have := h.gRS_deg
  simp only [Params.nsym] at *
  omega

/-- RS_PARITY gives ceil(NSYM · M_RS / 8) bytes (R143). -/
theorem rsParity_length (s : List Byte) : (P.rsParity s).length = bytesFor (P.nsym * mRS) := by
  rw [Params.rsParity, Params.rsPack, bytesOfBits_length, applyMap_length, h.packRS.1]; omega

/-- BCH_PARITY gives ceil(R / 8) bytes (R157). -/
theorem bchParity_length (g : Nat) (s : List Byte) : (P.bchParity g s).length = bytesFor (deg g) := by
  rw [Params.bchParity, Params.bchPack, bytesOfBits_length, applyMap_length, (h.packBCH _).1]; omega

theorem encode_length (e : Ecc) (s : List Byte) : (P.encode e s).length = P.parityBytes e := by
  cases e
  · exact h.rsParity_length s
  · exact h.rsParity_length s
  · exact h.bchParity_length _ s
  · exact h.bchParity_length _ s

/-- Under `WF_PARAMS` a parity block always has P(c) bytes, so PARITY_LENGTH cannot occur (R145). -/
theorem encode_length_page {c : Cfg} (hc : P.supported c = true) (s : List Byte) :
    (P.encode c.ecc s).length = (P.geom c).p := by rw [h.encode_length, h.parity c hc]

end Params.WF

/-! ## Symbols and data polynomials (R141, R155) -/

theorem Params.rsSymbols_xor (P : Params) {s s' : List Byte} (h : s.length = s'.length) :
    P.rsSymbols (xorBytes s s') = xorCoeffs (P.rsSymbols s) (P.rsSymbols s') := by
  have hl : (xorBytes s s').length = s.length := by simp [xorBytes, h]
  unfold Params.rsSymbols
  rw [hl, bits_xor h, applyMap_xor _ (by simp [h]), groups_xor _ _ (by simp [h]), ← h]

theorem Params.rsSymbols_lt (P : Params) (s : List Byte) : ∀ x ∈ P.rsSymbols s, x < 2 ^ mRS := by
  intro x hx
  unfold Params.rsSymbols groups at hx
  obtain ⟨j, -, rfl⟩ := List.mem_map.mp hx
  refine lt_of_lt_of_le (ofBitsMSB_lt _) (Nat.pow_le_pow_right (by decide) ?_)
  simp

theorem Params.bchPoly_xor (P : Params) {s s' : List Byte} (h : s.length = s'.length) :
    P.bchPoly (xorBytes s s') = P.bchPoly s ^^^ P.bchPoly s' := by
  have hl : (xorBytes s s').length = s.length := by simp [xorBytes, h]
  unfold Params.bchPoly
  rw [hl, bits_xor h, applyMap_xor _ (by simp [h]), ofBitsMSB_xor (by simp [h]), ← h]

theorem Params.WF.rsRemainder_length {P : Params} (h : P.WF) (s : List Byte) : (P.rsRemainder s).length = P.nsym :=
  polyMod_length h.gRS_deg h.gRS_length _

/-! ## The composed page (R196) -/

namespace Geom.WFLayout

variable {g : Geom} {c : Cfg}

theorem data_lt (h : g.WFLayout c) {j : Nat} (hj : LayoutSrc.data j ∈ g.layout) : j < c.page := by
  have : j ∈ g.layout.filterMap LayoutSrc.dataIdx := List.mem_filterMap.mpr ⟨_, hj, rfl⟩
  rwa [h.dataOnce, List.mem_range] at this

theorem par_lt (h : g.WFLayout c) {i k : Nat} (hk : LayoutSrc.par i k ∈ g.layout) : i < g.n ∧ k < g.p := by
  have hi := h.parOnly i k hk
  have : k ∈ g.layout.filterMap (LayoutSrc.parIdx i) :=
    List.mem_filterMap.mpr ⟨_, hk, by simp [LayoutSrc.parIdx]⟩
  rw [h.parOnce i hi, List.mem_range] at this
  exact ⟨hi, this⟩

/-- Every source of a well-formed layout exists, given a page image and a parity block of P bytes per codeword. -/
theorem byte_isSome (h : g.WFLayout c) {raw : List Byte} {par : List (List Byte)} (hr : raw.length = c.page)
    (hp : par.length = g.n) (hq : ∀ q ∈ par, q.length = g.p) {x : LayoutSrc} (hx : x ∈ g.layout) :
    (x.byte raw par).isSome = true := by
  cases x with
  | data j =>
    have := h.data_lt hx
    simp [LayoutSrc.byte, hr, this]
  | par i k =>
    obtain ⟨hi, hk⟩ := h.par_lt hx
    have hi' : i < par.length := by omega
    have := hq _ (List.getElem_mem hi')
    simp [LayoutSrc.byte, List.getElem?_eq_getElem hi', this, hk]
  | fill => rfl
  | const v => rfl

/-- So byte p of the composed page is what LAYOUT[p] stands for. -/
theorem compose_getElem? (h : g.WFLayout c) {raw : List Byte} {par : List (List Byte)} (hr : raw.length = c.page)
    (hp : par.length = g.n) (hq : ∀ q ∈ par, q.length = g.p) (p : Nat) :
    (g.compose raw par)[p]? = (g.layout[p]?).bind (LayoutSrc.byte raw par) := by
  have key : ∀ l : List LayoutSrc, (∀ x ∈ l, (x.byte raw par).isSome = true) → ∀ p : Nat,
      (l.filterMap (LayoutSrc.byte raw par))[p]? = (l[p]?).bind (LayoutSrc.byte raw par) := by
    intro l
    induction l with
    | nil => intro _ p; simp
    | cons x l ih =>
      intro hl p
      obtain ⟨b, hb⟩ := Option.isSome_iff_exists.mp (hl x (by simp))
      rw [List.filterMap_cons_some hb]
      cases p with
      | zero => simp [hb]
      | succ p => simpa using ih (fun y hy => hl y (by simp [hy])) p
  exact key _ (fun x hx => h.byte_isSome hr hp hq hx) p

theorem compose_length (h : g.WFLayout c) {raw : List Byte} {par : List (List Byte)} (hr : raw.length = c.page)
    (hp : par.length = g.n) (hq : ∀ q ∈ par, q.length = g.p) : (g.compose raw par).length = c.total := by
  rw [← h.length, Geom.compose]
  have key : ∀ l : List LayoutSrc, (∀ x ∈ l, (x.byte raw par).isSome = true) →
      (l.filterMap (LayoutSrc.byte raw par)).length = l.length := by
    intro l
    induction l with
    | nil => intro _; rfl
    | cons x l ih =>
      intro hl
      obtain ⟨b, hb⟩ := Option.isSome_iff_exists.mp (hl x (by simp))
      rw [List.filterMap_cons_some hb, List.length_cons, List.length_cons, ih fun y hy => hl y (by simp [hy])]
  exact key _ fun x hx => h.byte_isSome hr hp hq hx

end Geom.WFLayout

end Sys2Proof
end

