-- ==== Sys2Proof/Laws/State.lean ====
section
/-! SUPPORT. What each field of the state is after each named update: one lemma per field per update, true by unfolding, so that
no later proof unfolds a record update. -/

namespace Sys2Proof.Machine

variable (s : State)

/-! ## respond -/

@[simp] theorem respond_cfg (r : Response) : (respond r s).cfg = s.cfg := rfl
@[simp] theorem respond_phase (r : Response) : (respond r s).phase = s.phase := rfl
@[simp] theorem respond_resp (r : Response) : (respond r s).resp = r := rfl
@[simp] theorem respond_opa (r : Response) : (respond r s).opa = s.opa := rfl
@[simp] theorem respond_opb (r : Response) : (respond r s).opb = s.opb := rfl
@[simp] theorem respond_res (r : Response) : (respond r s).res = s.res := rfl
@[simp] theorem respond_rawLen (r : Response) : (respond r s).rawLen = s.rawLen := rfl
@[simp] theorem respond_encLen (r : Response) : (respond r s).encLen = s.encLen := rfl
@[simp] theorem respond_parLen (r : Response) : (respond r s).parLen = s.parLen := rfl
@[simp] theorem respond_segCount (r : Response) : (respond r s).segCount = s.segCount := rfl
@[simp] theorem respond_dataLen (r : Response) : (respond r s).dataLen = s.dataLen := rfl
@[simp] theorem respond_geomN (r : Response) : (respond r s).geomN = s.geomN := rfl
@[simp] theorem respond_geomD (r : Response) : (respond r s).geomD = s.geomD := rfl
@[simp] theorem respond_geomDL (r : Response) : (respond r s).geomDL = s.geomDL := rfl
@[simp] theorem respond_geomP (r : Response) : (respond r s).geomP = s.geomP := rfl
@[simp] theorem respond_pageCfgReg (r : Response) : (respond r s).pageCfgReg = s.pageCfgReg := rfl
@[simp] theorem respond_pagecfg (r : Response) : (respond r s).pagecfg = s.pagecfg := rfl
@[simp] theorem respond_parValid (r : Response) : (respond r s).parValid = s.parValid := rfl
@[simp] theorem respond_segtab (r : Response) : (respond r s).segtab = s.segtab := rfl
@[simp] theorem respond_mem (r : Response) : (respond r s).mem = s.mem := rfl
@[simp] theorem respond_faulted (r : Response) : (respond r s).faulted = s.faulted := rfl
@[simp] theorem respond_refused (r : Response) : (respond r s).refused = s.refused := rfl
@[simp] theorem respond_pending (r : Response) : (respond r s).pending = s.pending := rfl
@[simp] theorem respond_observed (r : Response) : (respond r s).observed = s.observed := rfl

/-! ## gfResult -/

@[simp] theorem gfResult_cfg (v : Nat) : (gfResult v s).cfg = s.cfg := rfl
@[simp] theorem gfResult_phase (v : Nat) : (gfResult v s).phase = s.phase := rfl
@[simp] theorem gfResult_resp (v : Nat) : (gfResult v s).resp = .ok := rfl
@[simp] theorem gfResult_opa (v : Nat) : (gfResult v s).opa = s.opa := rfl
@[simp] theorem gfResult_opb (v : Nat) : (gfResult v s).opb = s.opb := rfl
@[simp] theorem gfResult_res (v : Nat) : (gfResult v s).res = BitVec.ofNat 32 v := rfl
@[simp] theorem gfResult_rawLen (v : Nat) : (gfResult v s).rawLen = s.rawLen := rfl
@[simp] theorem gfResult_encLen (v : Nat) : (gfResult v s).encLen = s.encLen := rfl
@[simp] theorem gfResult_parLen (v : Nat) : (gfResult v s).parLen = s.parLen := rfl
@[simp] theorem gfResult_segCount (v : Nat) : (gfResult v s).segCount = s.segCount := rfl
@[simp] theorem gfResult_dataLen (v : Nat) : (gfResult v s).dataLen = s.dataLen := rfl
@[simp] theorem gfResult_geomN (v : Nat) : (gfResult v s).geomN = s.geomN := rfl
@[simp] theorem gfResult_geomD (v : Nat) : (gfResult v s).geomD = s.geomD := rfl
@[simp] theorem gfResult_geomDL (v : Nat) : (gfResult v s).geomDL = s.geomDL := rfl
@[simp] theorem gfResult_geomP (v : Nat) : (gfResult v s).geomP = s.geomP := rfl
@[simp] theorem gfResult_pageCfgReg (v : Nat) : (gfResult v s).pageCfgReg = s.pageCfgReg := rfl
@[simp] theorem gfResult_pagecfg (v : Nat) : (gfResult v s).pagecfg = s.pagecfg := rfl
@[simp] theorem gfResult_parValid (v : Nat) : (gfResult v s).parValid = s.parValid := rfl
@[simp] theorem gfResult_segtab (v : Nat) : (gfResult v s).segtab = s.segtab := rfl
@[simp] theorem gfResult_mem (v : Nat) : (gfResult v s).mem = s.mem := rfl
@[simp] theorem gfResult_faulted (v : Nat) : (gfResult v s).faulted = s.faulted := rfl
@[simp] theorem gfResult_refused (v : Nat) : (gfResult v s).refused = s.refused := rfl
@[simp] theorem gfResult_pending (v : Nat) : (gfResult v s).pending = s.pending := rfl
@[simp] theorem gfResult_observed (v : Nat) : (gfResult v s).observed = s.observed := rfl

/-! ## invalidate -/

@[simp] theorem invalidate_cfg : (invalidate s).cfg = s.cfg := rfl
@[simp] theorem invalidate_phase : (invalidate s).phase = .unprogrammed := rfl
@[simp] theorem invalidate_resp : (invalidate s).resp = s.resp := rfl
@[simp] theorem invalidate_opa : (invalidate s).opa = s.opa := rfl
@[simp] theorem invalidate_opb : (invalidate s).opb = s.opb := rfl
@[simp] theorem invalidate_res : (invalidate s).res = s.res := rfl
@[simp] theorem invalidate_rawLen : (invalidate s).rawLen = s.rawLen := rfl
@[simp] theorem invalidate_encLen : (invalidate s).encLen = s.encLen := rfl
@[simp] theorem invalidate_parLen : (invalidate s).parLen = s.parLen := rfl
@[simp] theorem invalidate_segCount : (invalidate s).segCount = s.segCount := rfl
@[simp] theorem invalidate_dataLen : (invalidate s).dataLen = 0 := rfl
@[simp] theorem invalidate_geomN : (invalidate s).geomN = s.geomN := rfl
@[simp] theorem invalidate_geomD : (invalidate s).geomD = s.geomD := rfl
@[simp] theorem invalidate_geomDL : (invalidate s).geomDL = s.geomDL := rfl
@[simp] theorem invalidate_geomP : (invalidate s).geomP = s.geomP := rfl
@[simp] theorem invalidate_pageCfgReg : (invalidate s).pageCfgReg = s.pageCfgReg := rfl
@[simp] theorem invalidate_pagecfg : (invalidate s).pagecfg = s.pagecfg := rfl
@[simp] theorem invalidate_parValid : (invalidate s).parValid = s.parValid := rfl
@[simp] theorem invalidate_segtab : (invalidate s).segtab = s.segtab := rfl
@[simp] theorem invalidate_mem : (invalidate s).mem = s.mem.erase dataBase dataCap := rfl
@[simp] theorem invalidate_faulted : (invalidate s).faulted = s.faulted := rfl
@[simp] theorem invalidate_refused : (invalidate s).refused = s.refused := rfl
@[simp] theorem invalidate_pending : (invalidate s).pending = s.pending := rfl
@[simp] theorem invalidate_observed : (invalidate s).observed = s.observed := rfl

/-! ## clearPage -/

@[simp] theorem clearPage_cfg : (clearPage s).cfg = s.cfg := rfl
@[simp] theorem clearPage_phase : (clearPage s).phase = .noPage := rfl
@[simp] theorem clearPage_resp : (clearPage s).resp = s.resp := rfl
@[simp] theorem clearPage_opa : (clearPage s).opa = s.opa := rfl
@[simp] theorem clearPage_opb : (clearPage s).opb = s.opb := rfl
@[simp] theorem clearPage_res : (clearPage s).res = s.res := rfl
@[simp] theorem clearPage_rawLen : (clearPage s).rawLen = s.rawLen := rfl
@[simp] theorem clearPage_encLen : (clearPage s).encLen = s.encLen := rfl
@[simp] theorem clearPage_parLen : (clearPage s).parLen = 0 := rfl
@[simp] theorem clearPage_segCount : (clearPage s).segCount = 0 := rfl
@[simp] theorem clearPage_dataLen : (clearPage s).dataLen = 0 := rfl
@[simp] theorem clearPage_geomN : (clearPage s).geomN = 0 := rfl
@[simp] theorem clearPage_geomD : (clearPage s).geomD = 0 := rfl
@[simp] theorem clearPage_geomDL : (clearPage s).geomDL = 0 := rfl
@[simp] theorem clearPage_geomP : (clearPage s).geomP = 0 := rfl
@[simp] theorem clearPage_pageCfgReg : (clearPage s).pageCfgReg = 0 := rfl
@[simp] theorem clearPage_pagecfg : (clearPage s).pagecfg = none := rfl
@[simp] theorem clearPage_parValid : (clearPage s).parValid = Vector.replicate 16 false := rfl
@[simp] theorem clearPage_segtab : (clearPage s).segtab = Vector.replicate 16 ⟨0, 0⟩ := rfl
@[simp] theorem clearPage_mem : (clearPage s).mem = (s.mem.erase dataBase dataCap).erase parBase (slots * parCap) := rfl
@[simp] theorem clearPage_faulted : (clearPage s).faulted = s.faulted := rfl
@[simp] theorem clearPage_refused : (clearPage s).refused = s.refused := rfl
@[simp] theorem clearPage_pending : (clearPage s).pending = s.pending := rfl
@[simp] theorem clearPage_observed : (clearPage s).observed = s.observed := rfl

/-! ## latchPage -/

@[simp] theorem latchPage_cfg (P : Params) (c : Cfg) : (latchPage P c s).cfg = s.cfg := rfl
@[simp] theorem latchPage_phase (P : Params) (c : Cfg) : (latchPage P c s).phase = .unprogrammed := rfl
@[simp] theorem latchPage_resp (P : Params) (c : Cfg) : (latchPage P c s).resp = s.resp := rfl
@[simp] theorem latchPage_opa (P : Params) (c : Cfg) : (latchPage P c s).opa = s.opa := rfl
@[simp] theorem latchPage_opb (P : Params) (c : Cfg) : (latchPage P c s).opb = s.opb := rfl
@[simp] theorem latchPage_res (P : Params) (c : Cfg) : (latchPage P c s).res = s.res := rfl
@[simp] theorem latchPage_rawLen (P : Params) (c : Cfg) : (latchPage P c s).rawLen = s.rawLen := rfl
@[simp] theorem latchPage_encLen (P : Params) (c : Cfg) : (latchPage P c s).encLen = s.encLen := rfl
@[simp] theorem latchPage_parLen (P : Params) (c : Cfg) : (latchPage P c s).parLen = 0 := rfl
@[simp] theorem latchPage_segCount (P : Params) (c : Cfg) : (latchPage P c s).segCount = 0 := rfl
@[simp] theorem latchPage_dataLen (P : Params) (c : Cfg) : (latchPage P c s).dataLen = 0 := rfl
@[simp] theorem latchPage_geomN (P : Params) (c : Cfg) : (latchPage P c s).geomN = BitVec.ofNat 32 (P.geom c).n := rfl
@[simp] theorem latchPage_geomD (P : Params) (c : Cfg) : (latchPage P c s).geomD = BitVec.ofNat 32 (P.geom c).d := rfl
@[simp] theorem latchPage_geomDL (P : Params) (c : Cfg) : (latchPage P c s).geomDL = BitVec.ofNat 32 (P.geom c).dl := rfl
@[simp] theorem latchPage_geomP (P : Params) (c : Cfg) : (latchPage P c s).geomP = BitVec.ofNat 32 (P.geom c).p := rfl
@[simp] theorem latchPage_pageCfgReg (P : Params) (c : Cfg) : (latchPage P c s).pageCfgReg = s.cfg &&& cfgMask := rfl
@[simp] theorem latchPage_pagecfg (P : Params) (c : Cfg) : (latchPage P c s).pagecfg = some c := rfl
@[simp] theorem latchPage_parValid (P : Params) (c : Cfg) : (latchPage P c s).parValid = Vector.replicate 16 false := rfl
@[simp] theorem latchPage_segtab (P : Params) (c : Cfg) : (latchPage P c s).segtab = Vector.replicate 16 ⟨0, 0⟩ := rfl
@[simp] theorem latchPage_mem (P : Params) (c : Cfg) : (latchPage P c s).mem = (s.mem.erase dataBase dataCap).erase parBase (slots * parCap) := rfl
@[simp] theorem latchPage_faulted (P : Params) (c : Cfg) : (latchPage P c s).faulted = s.faulted := rfl
@[simp] theorem latchPage_refused (P : Params) (c : Cfg) : (latchPage P c s).refused = s.refused := rfl
@[simp] theorem latchPage_pending (P : Params) (c : Cfg) : (latchPage P c s).pending = s.pending := rfl
@[simp] theorem latchPage_observed (P : Params) (c : Cfg) : (latchPage P c s).observed = s.observed := rfl

/-! ## storeSegments -/

@[simp] theorem storeSegments_cfg (g : Geom) : (storeSegments g s).cfg = s.cfg := rfl
@[simp] theorem storeSegments_phase (g : Geom) : (storeSegments g s).phase = s.phase := rfl
@[simp] theorem storeSegments_resp (g : Geom) : (storeSegments g s).resp = s.resp := rfl
@[simp] theorem storeSegments_opa (g : Geom) : (storeSegments g s).opa = s.opa := rfl
@[simp] theorem storeSegments_opb (g : Geom) : (storeSegments g s).opb = s.opb := rfl
@[simp] theorem storeSegments_res (g : Geom) : (storeSegments g s).res = s.res := rfl
@[simp] theorem storeSegments_rawLen (g : Geom) : (storeSegments g s).rawLen = s.rawLen := rfl
@[simp] theorem storeSegments_encLen (g : Geom) : (storeSegments g s).encLen = s.encLen := rfl
@[simp] theorem storeSegments_parLen (g : Geom) : (storeSegments g s).parLen = s.parLen := rfl
@[simp] theorem storeSegments_segCount (g : Geom) : (storeSegments g s).segCount = BitVec.ofNat 32 g.n := rfl
@[simp] theorem storeSegments_dataLen (g : Geom) : (storeSegments g s).dataLen = s.dataLen := rfl
@[simp] theorem storeSegments_geomN (g : Geom) : (storeSegments g s).geomN = s.geomN := rfl
@[simp] theorem storeSegments_geomD (g : Geom) : (storeSegments g s).geomD = s.geomD := rfl
@[simp] theorem storeSegments_geomDL (g : Geom) : (storeSegments g s).geomDL = s.geomDL := rfl
@[simp] theorem storeSegments_geomP (g : Geom) : (storeSegments g s).geomP = s.geomP := rfl
@[simp] theorem storeSegments_pageCfgReg (g : Geom) : (storeSegments g s).pageCfgReg = s.pageCfgReg := rfl
@[simp] theorem storeSegments_pagecfg (g : Geom) : (storeSegments g s).pagecfg = s.pagecfg := rfl
@[simp] theorem storeSegments_parValid (g : Geom) : (storeSegments g s).parValid = s.parValid := rfl
@[simp] theorem storeSegments_segtab (g : Geom) : (storeSegments g s).segtab = segTable g := rfl
@[simp] theorem storeSegments_mem (g : Geom) : (storeSegments g s).mem = s.mem := rfl
@[simp] theorem storeSegments_faulted (g : Geom) : (storeSegments g s).faulted = s.faulted := rfl
@[simp] theorem storeSegments_refused (g : Geom) : (storeSegments g s).refused = s.refused := rfl
@[simp] theorem storeSegments_pending (g : Geom) : (storeSegments g s).pending = s.pending := rfl
@[simp] theorem storeSegments_observed (g : Geom) : (storeSegments g s).observed = s.observed := rfl

/-! ## storeParity -/

@[simp] theorem storeParity_cfg (i : Nat) (q : List Byte) : (storeParity i q s).cfg = s.cfg := rfl
@[simp] theorem storeParity_phase (i : Nat) (q : List Byte) : (storeParity i q s).phase = s.phase := rfl
@[simp] theorem storeParity_resp (i : Nat) (q : List Byte) : (storeParity i q s).resp = s.resp := rfl
@[simp] theorem storeParity_opa (i : Nat) (q : List Byte) : (storeParity i q s).opa = s.opa := rfl
@[simp] theorem storeParity_opb (i : Nat) (q : List Byte) : (storeParity i q s).opb = s.opb := rfl
@[simp] theorem storeParity_res (i : Nat) (q : List Byte) : (storeParity i q s).res = s.res := rfl
@[simp] theorem storeParity_rawLen (i : Nat) (q : List Byte) : (storeParity i q s).rawLen = s.rawLen := rfl
@[simp] theorem storeParity_encLen (i : Nat) (q : List Byte) : (storeParity i q s).encLen = s.encLen := rfl
@[simp] theorem storeParity_parLen (i : Nat) (q : List Byte) : (storeParity i q s).parLen = s.parLen := rfl
@[simp] theorem storeParity_segCount (i : Nat) (q : List Byte) : (storeParity i q s).segCount = s.segCount := rfl
@[simp] theorem storeParity_dataLen (i : Nat) (q : List Byte) : (storeParity i q s).dataLen = s.dataLen := rfl
@[simp] theorem storeParity_geomN (i : Nat) (q : List Byte) : (storeParity i q s).geomN = s.geomN := rfl
@[simp] theorem storeParity_geomD (i : Nat) (q : List Byte) : (storeParity i q s).geomD = s.geomD := rfl
@[simp] theorem storeParity_geomDL (i : Nat) (q : List Byte) : (storeParity i q s).geomDL = s.geomDL := rfl
@[simp] theorem storeParity_geomP (i : Nat) (q : List Byte) : (storeParity i q s).geomP = s.geomP := rfl
@[simp] theorem storeParity_pageCfgReg (i : Nat) (q : List Byte) : (storeParity i q s).pageCfgReg = s.pageCfgReg := rfl
@[simp] theorem storeParity_pagecfg (i : Nat) (q : List Byte) : (storeParity i q s).pagecfg = s.pagecfg := rfl
@[simp] theorem storeParity_parValid (i : Nat) (q : List Byte) : (storeParity i q s).parValid = s.parValid.setIfInBounds i true := rfl
@[simp] theorem storeParity_segtab (i : Nat) (q : List Byte) : (storeParity i q s).segtab = s.segtab := rfl
@[simp] theorem storeParity_mem (i : Nat) (q : List Byte) : (storeParity i q s).mem = s.mem.setRange (slotBase i) q := rfl
@[simp] theorem storeParity_faulted (i : Nat) (q : List Byte) : (storeParity i q s).faulted = s.faulted := rfl
@[simp] theorem storeParity_refused (i : Nat) (q : List Byte) : (storeParity i q s).refused = s.refused := rfl
@[simp] theorem storeParity_pending (i : Nat) (q : List Byte) : (storeParity i q s).pending = s.pending := rfl
@[simp] theorem storeParity_observed (i : Nat) (q : List Byte) : (storeParity i q s).observed = s.observed := rfl

/-! ## storeData -/

@[simp] theorem storeData_cfg (out : List Byte) : (storeData out s).cfg = s.cfg := rfl
@[simp] theorem storeData_phase (out : List Byte) : (storeData out s).phase = .programmed := rfl
@[simp] theorem storeData_resp (out : List Byte) : (storeData out s).resp = s.resp := rfl
@[simp] theorem storeData_opa (out : List Byte) : (storeData out s).opa = s.opa := rfl
@[simp] theorem storeData_opb (out : List Byte) : (storeData out s).opb = s.opb := rfl
@[simp] theorem storeData_res (out : List Byte) : (storeData out s).res = s.res := rfl
@[simp] theorem storeData_rawLen (out : List Byte) : (storeData out s).rawLen = s.rawLen := rfl
@[simp] theorem storeData_encLen (out : List Byte) : (storeData out s).encLen = s.encLen := rfl
@[simp] theorem storeData_parLen (out : List Byte) : (storeData out s).parLen = s.parLen := rfl
@[simp] theorem storeData_segCount (out : List Byte) : (storeData out s).segCount = s.segCount := rfl
@[simp] theorem storeData_dataLen (out : List Byte) : (storeData out s).dataLen = BitVec.ofNat 32 out.length := rfl
@[simp] theorem storeData_geomN (out : List Byte) : (storeData out s).geomN = s.geomN := rfl
@[simp] theorem storeData_geomD (out : List Byte) : (storeData out s).geomD = s.geomD := rfl
@[simp] theorem storeData_geomDL (out : List Byte) : (storeData out s).geomDL = s.geomDL := rfl
@[simp] theorem storeData_geomP (out : List Byte) : (storeData out s).geomP = s.geomP := rfl
@[simp] theorem storeData_pageCfgReg (out : List Byte) : (storeData out s).pageCfgReg = s.pageCfgReg := rfl
@[simp] theorem storeData_pagecfg (out : List Byte) : (storeData out s).pagecfg = s.pagecfg := rfl
@[simp] theorem storeData_parValid (out : List Byte) : (storeData out s).parValid = s.parValid := rfl
@[simp] theorem storeData_segtab (out : List Byte) : (storeData out s).segtab = s.segtab := rfl
@[simp] theorem storeData_mem (out : List Byte) : (storeData out s).mem = (s.mem.erase dataBase dataCap).setRange dataBase out := rfl
@[simp] theorem storeData_faulted (out : List Byte) : (storeData out s).faulted = s.faulted := rfl
@[simp] theorem storeData_refused (out : List Byte) : (storeData out s).refused = s.refused := rfl
@[simp] theorem storeData_pending (out : List Byte) : (storeData out s).pending = s.pending := rfl
@[simp] theorem storeData_observed (out : List Byte) : (storeData out s).observed = s.observed := rfl

/-! ## withCommand -/

@[simp] theorem withCommand_cfg (w : Word) : (withCommand s w).cfg = s.cfg := rfl
@[simp] theorem withCommand_phase (w : Word) : (withCommand s w).phase = s.phase := rfl
@[simp] theorem withCommand_resp (w : Word) : (withCommand s w).resp = s.resp := rfl
@[simp] theorem withCommand_opa (w : Word) : (withCommand s w).opa = s.opa := rfl
@[simp] theorem withCommand_opb (w : Word) : (withCommand s w).opb = s.opb := rfl
@[simp] theorem withCommand_res (w : Word) : (withCommand s w).res = s.res := rfl
@[simp] theorem withCommand_rawLen (w : Word) : (withCommand s w).rawLen = s.rawLen := rfl
@[simp] theorem withCommand_encLen (w : Word) : (withCommand s w).encLen = s.encLen := rfl
@[simp] theorem withCommand_parLen (w : Word) : (withCommand s w).parLen = s.parLen := rfl
@[simp] theorem withCommand_segCount (w : Word) : (withCommand s w).segCount = s.segCount := rfl
@[simp] theorem withCommand_dataLen (w : Word) : (withCommand s w).dataLen = s.dataLen := rfl
@[simp] theorem withCommand_geomN (w : Word) : (withCommand s w).geomN = s.geomN := rfl
@[simp] theorem withCommand_geomD (w : Word) : (withCommand s w).geomD = s.geomD := rfl
@[simp] theorem withCommand_geomDL (w : Word) : (withCommand s w).geomDL = s.geomDL := rfl
@[simp] theorem withCommand_geomP (w : Word) : (withCommand s w).geomP = s.geomP := rfl
@[simp] theorem withCommand_pageCfgReg (w : Word) : (withCommand s w).pageCfgReg = s.pageCfgReg := rfl
@[simp] theorem withCommand_pagecfg (w : Word) : (withCommand s w).pagecfg = s.pagecfg := rfl
@[simp] theorem withCommand_parValid (w : Word) : (withCommand s w).parValid = s.parValid := rfl
@[simp] theorem withCommand_segtab (w : Word) : (withCommand s w).segtab = s.segtab := rfl
@[simp] theorem withCommand_mem (w : Word) : (withCommand s w).mem = s.mem := rfl
@[simp] theorem withCommand_faulted (w : Word) : (withCommand s w).faulted = s.faulted := rfl
@[simp] theorem withCommand_refused (w : Word) : (withCommand s w).refused = s.refused := rfl
@[simp] theorem withCommand_pending (w : Word) : (withCommand s w).pending = .write cmdAddr 4 w :: s.pending := rfl
@[simp] theorem withCommand_observed (w : Word) : (withCommand s w).observed = s.observed := rfl

/-! ## writeReg: only CFG, OPA, OPB, RAW_LEN and ENC_LEN can change (R65) -/

@[simp] theorem writeReg_phase (r : Reg) (v : Word) : (writeReg r v s).phase = s.phase := by cases r <;> rfl
@[simp] theorem writeReg_resp (r : Reg) (v : Word) : (writeReg r v s).resp = s.resp := by cases r <;> rfl
@[simp] theorem writeReg_res (r : Reg) (v : Word) : (writeReg r v s).res = s.res := by cases r <;> rfl
@[simp] theorem writeReg_parLen (r : Reg) (v : Word) : (writeReg r v s).parLen = s.parLen := by cases r <;> rfl
@[simp] theorem writeReg_segCount (r : Reg) (v : Word) : (writeReg r v s).segCount = s.segCount := by cases r <;> rfl
@[simp] theorem writeReg_dataLen (r : Reg) (v : Word) : (writeReg r v s).dataLen = s.dataLen := by cases r <;> rfl
@[simp] theorem writeReg_geomN (r : Reg) (v : Word) : (writeReg r v s).geomN = s.geomN := by cases r <;> rfl
@[simp] theorem writeReg_geomD (r : Reg) (v : Word) : (writeReg r v s).geomD = s.geomD := by cases r <;> rfl
@[simp] theorem writeReg_geomDL (r : Reg) (v : Word) : (writeReg r v s).geomDL = s.geomDL := by cases r <;> rfl
@[simp] theorem writeReg_geomP (r : Reg) (v : Word) : (writeReg r v s).geomP = s.geomP := by cases r <;> rfl
@[simp] theorem writeReg_pageCfgReg (r : Reg) (v : Word) : (writeReg r v s).pageCfgReg = s.pageCfgReg := by cases r <;> rfl
@[simp] theorem writeReg_pagecfg (r : Reg) (v : Word) : (writeReg r v s).pagecfg = s.pagecfg := by cases r <;> rfl
@[simp] theorem writeReg_parValid (r : Reg) (v : Word) : (writeReg r v s).parValid = s.parValid := by cases r <;> rfl
@[simp] theorem writeReg_segtab (r : Reg) (v : Word) : (writeReg r v s).segtab = s.segtab := by cases r <;> rfl
@[simp] theorem writeReg_mem (r : Reg) (v : Word) : (writeReg r v s).mem = s.mem := by cases r <;> rfl
@[simp] theorem writeReg_faulted (r : Reg) (v : Word) : (writeReg r v s).faulted = s.faulted := by cases r <;> rfl
@[simp] theorem writeReg_refused (r : Reg) (v : Word) : (writeReg r v s).refused = s.refused := by cases r <;> rfl
@[simp] theorem writeReg_pending (r : Reg) (v : Word) : (writeReg r v s).pending = s.pending := by cases r <;> rfl
@[simp] theorem writeReg_observed (r : Reg) (v : Word) : (writeReg r v s).observed = s.observed := by cases r <;> rfl

/-! ## The Page a command works under -/

@[simp] theorem page?_respond (r : Response) : (respond r s).page? = s.page? := rfl

@[simp] theorem page?_invalidate : (invalidate s).page? = s.pagecfg := rfl

@[simp] theorem page?_clearPage : (clearPage s).page? = none := rfl

theorem page?_of_phase {s : State} (h : s.phase ≠ .noPage) : s.page? = s.pagecfg := by
  unfold State.page?
  split
  · exact absurd ‹_› h
  · rfl
  · rfl

theorem page?_eq_some {s : State} {c : Cfg} : s.page? = some c ↔ s.phase ≠ .noPage ∧ s.pagecfg = some c := by
  unfold State.page?
  cases s.phase <;> simp

theorem page?_of_noPage {s : State} (h : s.phase = .noPage) : s.page? = none := by
  unfold State.page?
  rw [h]

end Sys2Proof.Machine
end

