-- ==== Sys2Proof/Laws/Commands.lean ====
section
/-! SUPPORT. Everything each shared operation of the commands can do, said once: the outcomes of a Galois-field command, of the
encoder frame, of SEGMENT, COMPOSE, CONFIGURE and PROGRAM, of a host access and of a step. -/

namespace Sys2Proof.Machine

open Gf

/-! ## Galois-field commands (R111, R112) -/

theorem gfOperands_eq_some {F : GField} {s : State} (ha : s.opa.toNat < F.size) (hb : s.opb.toNat < F.size) :
    gfOperands F s = some (s.opa.toNat, s.opb.toNat) := if_neg (by omega)

theorem gfOperands_eq_none {F : GField} {s : State} (h : F.size ≤ s.opa.toNat ∨ F.size ≤ s.opb.toNat) :
    gfOperands F s = none := if_pos h

theorem gfPowOperands_eq_some {F : GField} {s : State} (ha : s.opa.toNat < F.size) :
    gfPowOperands F s = some (s.opa.toNat, s.opb.toNat) := if_neg (by omega)

theorem gfPowOperands_eq_none {F : GField} {s : State} (h : F.size ≤ s.opa.toNat) : gfPowOperands F s = none := if_pos h

/-- A Galois-field command ends in an error response that changes nothing else, or writes RES. -/
theorem gfMulCommand_cases (P : Params) (fld : Fld) (s : State) :
    (gfMulCommand P fld s = respond .operandRange s ∧
      ((P.field fld).size ≤ s.opa.toNat ∨ (P.field fld).size ≤ s.opb.toNat)) ∨
    (gfMulCommand P fld s = gfResult (gfMul (P.field fld) s.opa.toNat s.opb.toNat) s ∧
      s.opa.toNat < (P.field fld).size ∧ s.opb.toNat < (P.field fld).size) := by
  by_cases h : (P.field fld).size ≤ s.opa.toNat ∨ (P.field fld).size ≤ s.opb.toNat
  · exact .inl ⟨by rw [gfMulCommand, gfOperands_eq_none h], h⟩
  · rw [not_or, not_le, not_le] at h
    exact .inr ⟨by rw [gfMulCommand, gfOperands_eq_some h.1 h.2], h⟩

theorem gfDivCommand_cases (P : Params) (fld : Fld) (s : State) :
    (gfDivCommand P fld s = respond .operandRange s ∧
      ((P.field fld).size ≤ s.opa.toNat ∨ (P.field fld).size ≤ s.opb.toNat)) ∨
    (gfDivCommand P fld s = respond .divByZero s ∧ s.opa.toNat < (P.field fld).size ∧ s.opb.toNat = 0) ∨
    (gfDivCommand P fld s = gfResult (gfDiv (P.field fld) s.opa.toNat s.opb.toNat) s ∧
      s.opa.toNat < (P.field fld).size ∧ s.opb.toNat < (P.field fld).size ∧ s.opb.toNat ≠ 0) := by
  by_cases h : (P.field fld).size ≤ s.opa.toNat ∨ (P.field fld).size ≤ s.opb.toNat
  · exact .inl ⟨by rw [gfDivCommand, gfOperands_eq_none h], h⟩
  · rw [not_or, not_le, not_le] at h
    by_cases h0 : s.opb.toNat = 0
    · exact .inr (.inl ⟨by simp only [gfDivCommand, gfOperands_eq_some h.1 h.2]; rw [if_pos h0], h.1, h0⟩)
    · exact .inr (.inr ⟨by simp only [gfDivCommand, gfOperands_eq_some h.1 h.2]; rw [if_neg h0], h.1, h.2, h0⟩)

theorem gfPowCommand_cases (P : Params) (fld : Fld) (s : State) :
    (gfPowCommand P fld s = respond .operandRange s ∧ (P.field fld).size ≤ s.opa.toNat) ∨
    (gfPowCommand P fld s = gfResult (gfPow (P.field fld) s.opa.toNat s.opb.toNat) s ∧
      s.opa.toNat < (P.field fld).size) := by
  by_cases h : (P.field fld).size ≤ s.opa.toNat
  · exact .inl ⟨by rw [gfPowCommand, gfPowOperands_eq_none h], h⟩
  · rw [not_le] at h
    exact .inr ⟨by rw [gfPowCommand, gfPowOperands_eq_some h], h⟩

/-! ## The encoder frame (R145) -/

/-- Every outcome of `ENC_FRAME`, with the condition it is reached under. -/
theorem encFrame_cases (P : Params) (e : Ecc) (i : Nat) (s : State) :
    (s.page? = none ∧ encFrame P e i s = .next (respond .notConfigured s)) ∨
    ∃ c, s.page? = some c ∧
      ((c.ecc ≠ e ∧ encFrame P e i s = .next (respond .schemeMismatch s)) ∨
       (c.ecc = e ∧ (P.geom c).n ≤ i ∧ encFrame P e i s = .next (respond .slotRange s)) ∨
       (c.ecc = e ∧ i < (P.geom c).n ∧ s.encLen.toNat ≠ (P.geom c).blockLen i ∧
          encFrame P e i s = .next (respond .blockLength s)) ∨
       (c.ecc = e ∧ i < (P.geom c).n ∧ s.encLen.toNat = (P.geom c).blockLen i ∧
          encBlock ((P.geom c).blockLen i) s = none ∧ encFrame P e i s = .fault .undefinedRead) ∨
       (c.ecc = e ∧ i < (P.geom c).n ∧ s.encLen.toNat = (P.geom c).blockLen i ∧
          ∃ blk, encBlock ((P.geom c).blockLen i) s = some blk ∧
            encFrame P e i s = .next (encStore P e (P.geom c) i blk s))) := by
  unfold encFrame
  cases hp : s.page? with
  | none => exact .inl ⟨rfl, rfl⟩
  | some c =>
    refine .inr ⟨c, rfl, ?_⟩
    by_cases h1 : c.ecc ≠ e
    · exact .inl ⟨h1, by simp only [if_pos h1]⟩
    by_cases h2 : (P.geom c).n ≤ i
    · exact .inr (.inl ⟨not_not.mp h1, h2, by simp only [if_neg h1, if_pos h2]⟩)
    by_cases h3 : s.encLen.toNat ≠ (P.geom c).blockLen i
    · exact .inr (.inr (.inl ⟨not_not.mp h1, by omega, h3, by simp only [if_neg h1, if_neg h2, if_pos h3]⟩))
    simp only [if_neg h1, if_neg h2, if_neg h3]
    cases hb : encBlock ((P.geom c).blockLen i) s with
    | none => exact .inr (.inr (.inr (.inl ⟨not_not.mp h1, by omega, not_not.mp h3, rfl, rfl⟩)))
    | some blk => exact .inr (.inr (.inr (.inr ⟨not_not.mp h1, by omega, not_not.mp h3, blk, rfl, rfl⟩)))

/-- Which slots are valid after a parity block is stored. -/
theorem storeParity_slotValid (s : State) (i j : Nat) (q : List Byte) :
    (storeParity i q s).slotValid j = if j = i ∧ j < 16 then true else s.slotValid j := by
  simp only [State.slotValid, storeParity, Vector.getElem?_setIfInBounds]
  by_cases h : i = j
  · subst h
    by_cases h2 : i < 16
    · simp [h2]
    · simp [h2]
  · simp [h, Ne.symm h]

theorem clearPage_slotValid (s : State) (i : Nat) : (clearPage s).slotValid i = false := by
  simp only [State.slotValid, clearPage, Vector.getElem?_replicate]
  split <;> rfl

/-- On a supported Page of the command's scheme the parity always has P bytes and is stored. -/
theorem encStore_eq {P : Params} (hP : P.WF) {c : Cfg} (hc : P.supported c = true) {e : Ecc} (he : c.ecc = e) (i : Nat)
    (blk : List Byte) (s : State) :
    encStore P e (P.geom c) i blk s =
      respond .ok { storeParity i (P.encode e blk) s with parLen := BitVec.ofNat 32 (P.geom c).p } := by
  subst he
  rw [encStore, if_neg (not_not.mpr (hP.encode_length_page hc blk))]

/-! ## SEGMENT (R185) -/

theorem segmentCommand_eq {P : Params} (hP : P.WF) {s : State} {c : Cfg} (hp : s.page? = some c)
    (hc : P.supported c = true) : segmentCommand P s = respond .ok (storeSegments (P.geom c) s) := by
  simp only [segmentCommand, hp]
  rw [if_pos (hP.geom c hc).segOk]

theorem segmentCommand_none {P : Params} {s : State} (hp : s.page? = none) :
    segmentCommand P s = respond .notConfigured s := by simp only [segmentCommand, hp]

/-! ## COMPOSE and PROGRAM (R203, R223) -/

theorem finishPage_eq {c : Cfg} {out : List Byte} (h : out.length = c.total) (s : State) :
    finishPage c out s = respond .ok (storeData out s) := if_neg (not_not.mpr h)

theorem slotParities_some {p n : Nat} {s : State} {par : List (List Byte)} (h : slotParities p s n = some par) :
    par.length = n ∧ ∀ i, i < n → ∃ q, par[i]? = some q ∧ s.mem.getRange (slotBase i) p = some q := by
  induction n generalizing par with
  | zero => simp only [slotParities, Option.some.injEq] at h; subst h; simp
  | succ n ih =>
    simp only [slotParities, Option.bind_eq_some_iff, Option.map_eq_some_iff] at h
    obtain ⟨qs, hqs, q, hq, rfl⟩ := h
    obtain ⟨hl, hi⟩ := ih hqs
    refine ⟨by simp [hl], fun i hin => ?_⟩
    by_cases hi' : i < n
    · obtain ⟨q', h1, h2⟩ := hi i hi'
      exact ⟨q', by rw [List.getElem?_append_left (by omega), h1], h2⟩
    · obtain rfl : i = n := by omega
      exact ⟨q, by rw [List.getElem?_append_right (by omega), hl, Nat.sub_self]; rfl, hq⟩

theorem slotParities_eq_some {p n : Nat} {s : State} (h : ∀ i, i < n → ∃ q, s.mem.getRange (slotBase i) p = some q) :
    ∃ par, slotParities p s n = some par := by
  induction n with
  | zero => exact ⟨[], rfl⟩
  | succ n ih =>
    obtain ⟨qs, hqs⟩ := ih fun i hi => h i (by omega)
    obtain ⟨q, hq⟩ := h n (by omega)
    exact ⟨qs ++ [q], by simp [slotParities, hqs, hq]⟩

/-- Every outcome of COMPOSE, with the condition it is reached under. -/
theorem composeCommand_cases (P : Params) (s : State) :
    (s.page? = none ∧ composeCommand P s = .next (respond .notConfigured s)) ∨
    ∃ c, s.page? = some c ∧
      ((s.rawLen.toNat ≠ c.page ∧ composeCommand P s = .next (respond .invalidInput (invalidate s))) ∨
       (s.rawLen.toNat = c.page ∧ slotsValid (P.geom c).n s = false ∧
          composeCommand P s = .next (respond .parityMissing (invalidate s))) ∨
       (s.rawLen.toNat = c.page ∧ slotsValid (P.geom c).n s = true ∧
          (rawPage c s = none ∨ slotParities (P.geom c).p s (P.geom c).n = none) ∧
          composeCommand P s = .fault .undefinedRead) ∨
       (s.rawLen.toNat = c.page ∧ slotsValid (P.geom c).n s = true ∧ ∃ raw par, rawPage c s = some raw ∧
          slotParities (P.geom c).p s (P.geom c).n = some par ∧
          composeCommand P s = .next (finishPage c ((P.geom c).compose raw par) s))) := by
  unfold composeCommand
  cases hp : s.page? with
  | none => exact .inl ⟨rfl, rfl⟩
  | some c =>
    refine .inr ⟨c, rfl, ?_⟩
    by_cases h1 : s.rawLen.toNat ≠ c.page
    · exact .inl ⟨h1, by simp only [if_pos h1]⟩
    by_cases h2 : slotsValid (P.geom c).n s = false
    · exact .inr (.inl ⟨not_not.mp h1, h2, by simp only [if_neg h1, if_pos h2]⟩)
    have h2' : slotsValid (P.geom c).n s = true := by simpa using h2
    simp only [if_neg h1, if_neg h2]
    cases h3 : rawPage c s with
    | none => exact .inr (.inr (.inl ⟨not_not.mp h1, h2', .inl rfl, rfl⟩))
    | some raw =>
      cases h4 : slotParities (P.geom c).p s (P.geom c).n with
      | none => exact .inr (.inr (.inl ⟨not_not.mp h1, h2', .inr rfl, rfl⟩))
      | some par => exact .inr (.inr (.inr ⟨not_not.mp h1, h2', raw, par, rfl, rfl, rfl⟩))

/-- The state PROGRAM's loop leaves when every block and parity has its length. -/
def storeAll (P : Params) (c : Cfg) (raw : List Byte) (is : List Nat) (s : State) : State :=
  is.foldl (fun t i => storeParity i (P.encode c.ecc ((P.geom c).block i raw)) t) s

theorem encodeSlots_eq {P : Params} (hP : P.WF) {c : Cfg} (hc : P.supported c = true) {raw : List Byte}
    (hr : raw.length = c.page) : ∀ (is : List Nat) (s : State), (∀ i ∈ is, i < (P.geom c).n) →
      encodeSlots P c raw is s = .ok (storeAll P c raw is s) := by
  intro is
  induction is with
  | nil => intro s _; rfl
  | cons i is ih =>
    intro s h
    rw [encodeSlots, if_neg (not_not.mpr ((hP.geom c hc).block_length (h i (by simp)) hr)),
      if_neg (not_not.mpr (hP.encode_length_page hc _)), ih _ fun j hj => h j (by simp [hj])]
    rfl

theorem pageParities_length (P : Params) (c : Cfg) (raw : List Byte) :
    (pageParities P c raw).length = (P.geom c).n := by simp [pageParities]

theorem pageParities_mem {P : Params} (hP : P.WF) {c : Cfg} (hc : P.supported c = true) {raw q : List Byte}
    (hq : q ∈ pageParities P c raw) : q.length = (P.geom c).p := by
  simp only [pageParities, List.mem_map] at hq
  obtain ⟨i, -, rfl⟩ := hq
  exact hP.encode_length_page hc _

/-- On a supported Page a PROGRAM that has read its page image succeeds: SEGTAB, every codeword's parity, PAR_LEN, DATA. -/
theorem programPage_eq {P : Params} (hP : P.WF) {c : Cfg} (hc : P.supported c = true) {raw : List Byte}
    (hr : raw.length = c.page) (s : State) :
    programPage P c raw s = respond .ok (storeData ((P.geom c).compose raw (pageParities P c raw))
      { storeAll P c raw (List.range (P.geom c).n) (storeSegments (P.geom c) s) with
        parLen := BitVec.ofNat 32 (P.geom c).p }) := by
  rw [programPage, if_pos (hP.geom c hc).segOk, encodeSlots_eq hP hc hr _ _ fun i hi => List.mem_range.mp hi]
  exact finishPage_eq ((hP.geom c hc).layout.compose_length hr (pageParities_length P c raw)
    fun q hq => pageParities_mem hP hc hq) _

/-- Every outcome of PROGRAM, with the condition it is reached under. -/
theorem programCommand_cases (P : Params) (s : State) :
    (s.page? = none ∧ programCommand P s = .next (respond .notConfigured s)) ∨
    ∃ c, s.page? = some c ∧
      ((s.rawLen.toNat ≠ c.page ∧ programCommand P s = .next (respond .invalidInput (invalidate s))) ∨
       (s.rawLen.toNat = c.page ∧ rawPage c s = none ∧ programCommand P s = .fault .undefinedRead) ∨
       (s.rawLen.toNat = c.page ∧ ∃ raw, rawPage c s = some raw ∧
          programCommand P s = .next (programPage P c raw s))) := by
  unfold programCommand
  cases hp : s.page? with
  | none => exact .inl ⟨rfl, rfl⟩
  | some c =>
    refine .inr ⟨c, rfl, ?_⟩
    by_cases h1 : s.rawLen.toNat ≠ c.page
    · exact .inl ⟨h1, by simp only [if_pos h1]⟩
    simp only [if_neg h1]
    cases h3 : rawPage c s with
    | none => exact .inr (.inl ⟨not_not.mp h1, rfl, rfl⟩)
    | some raw => exact .inr (.inr ⟨not_not.mp h1, raw, rfl, rfl⟩)

/-! ## What the loop of PROGRAM leaves alone -/

theorem storeAll_fields (P : Params) (c : Cfg) (raw : List Byte) (is : List Nat) (s : State) :
    storeAll P c raw is s = { s with
      mem := (storeAll P c raw is s).mem, parValid := (storeAll P c raw is s).parValid } := by
  induction is using List.reverseRecOn with
  | nil => rfl
  | append_singleton is i ih =>
    have hs : storeAll P c raw (is ++ [i]) s =
        storeParity i (P.encode c.ecc ((P.geom c).block i raw)) (storeAll P c raw is s) := by
      simp [storeAll, List.foldl_append]
    rw [hs, ih]
    rfl

/-- What PROGRAM's loop leaves alone, whether it ends or stops. -/
theorem encodeSlots_fields (P : Params) (c : Cfg) (raw : List Byte) : ∀ (is : List Nat) (s : State),
    (∀ t, encodeSlots P c raw is s = .ok t → t = { s with mem := t.mem, parValid := t.parValid }) ∧
    ∀ t, encodeSlots P c raw is s = .error t → t = { s with
      resp := t.resp, phase := .unprogrammed, dataLen := 0, mem := t.mem, parValid := t.parValid } ∧ t.resp ≠ .ok := by
  intro is
  induction is with
  | nil => intro s; exact ⟨fun t h => by obtain rfl := Except.ok.inj h; rfl, fun t h => by simp [encodeSlots] at h⟩
  | cons i is ih =>
    intro s
    unfold encodeSlots
    split
    · exact ⟨fun t h => by simp at h, fun t h => by obtain rfl := Except.error.inj h; exact ⟨rfl, by simp⟩⟩
    split
    · exact ⟨fun t h => by simp at h, fun t h => by obtain rfl := Except.error.inj h; exact ⟨rfl, by simp⟩⟩
    · obtain ⟨h1, h2⟩ := ih (storeParity i (P.encode c.ecc ((P.geom c).block i raw)) s)
      refine ⟨fun t h => ?_, fun t h => ?_⟩
      · rw [h1 t h]; rfl
      · obtain ⟨e, h'⟩ := h2 t h
        exact ⟨by rw [e]; rfl, h'⟩

/-- What PROGRAM can change once the page image is read. -/
theorem programPage_fields (P : Params) (c : Cfg) (raw : List Byte) (s t : State) (h : programPage P c raw s = t) :
    t = { s with
      resp := t.resp, phase := t.phase, dataLen := t.dataLen, segtab := t.segtab, segCount := t.segCount,
      parLen := t.parLen, parValid := t.parValid, mem := t.mem } ∧
    ((t.resp = .ok ∧ t.phase = .programmed) ∨ (t.resp ≠ .ok ∧ t.phase = .unprogrammed ∧ t.dataLen = 0)) := by
  subst h
  unfold programPage
  split
  · obtain ⟨h1, h2⟩ := encodeSlots_fields P c raw (List.range (P.geom c).n) (storeSegments (P.geom c) s)
    split
    · rename_i t ht
      obtain ⟨e, hr⟩ := h2 t ht
      exact ⟨by rw [e]; rfl, .inr ⟨hr, by rw [e], by rw [e]⟩⟩
    · rename_i t ht
      have e := h1 t ht
      unfold finishPage
      split
      · exact ⟨by rw [e]; rfl, .inr ⟨by simp, rfl, rfl⟩⟩
      · exact ⟨by rw [e]; rfl, .inl ⟨rfl, rfl⟩⟩
  · exact ⟨rfl, .inr ⟨by simp, rfl, rfl⟩⟩
/-! ## Bytes and slots a command leaves -/

theorem storeAll_succ (P : Params) (c : Cfg) (raw : List Byte) (n : Nat) (s : State) :
    storeAll P c raw (List.range (n + 1)) s =
      storeParity n (P.encode c.ecc ((P.geom c).block n raw)) (storeAll P c raw (List.range n) s) := by
  simp [storeAll, List.range_succ, List.foldl_append]

theorem storeParity_get? (s : State) (i : Nat) (q : List Byte) (a : Nat) :
    (storeParity i q s).mem.get? a =
      if slotBase i ≤ a ∧ a < slotBase i + q.length then q[a - slotBase i]? else s.mem.get? a :=
  Memory.get?_setRange _ _ _ _

/-- Slots do not overlap. -/
theorem slotBase_le {i j : Nat} (h : i < j) : slotBase i + 64 ≤ slotBase j := by
  unfold slotBase parCap; omega

/-- The bytes PROGRAM's loop leaves in the slots it wrote. -/
theorem storeAll_get?_slot {P : Params} (hP : P.WF) {c : Cfg} (hc : P.supported c = true) (raw : List Byte) (s : State)
    {n i k : Nat} (hi : i < n) (hk : k < (P.geom c).p) :
    (storeAll P c raw (List.range n) s).mem.get? (slotBase i + k) = (P.encode c.ecc ((P.geom c).block i raw))[k]? := by
  have hp : (P.geom c).p ≤ 64 := (hP.geom c hc).p_le
  induction n with
  | zero => omega
  | succ n ih =>
    rw [storeAll_succ, storeParity_get?, hP.encode_length_page hc]
    by_cases h : i < n
    · have := slotBase_le h
      rw [if_neg (by omega), ih h]
    · obtain rfl : i = n := by omega
      rw [if_pos (by omega), show slotBase i + k - slotBase i = k by omega]

/-- PROGRAM's loop changes no other byte. -/
theorem storeAll_get?_other {P : Params} (hP : P.WF) {c : Cfg} (hc : P.supported c = true) (raw : List Byte) (s : State)
    {n a : Nat} (h : ∀ i k, i < n → k < (P.geom c).p → a ≠ slotBase i + k) :
    (storeAll P c raw (List.range n) s).mem.get? a = s.mem.get? a := by
  induction n with
  | zero => rfl
  | succ n ih =>
    rw [storeAll_succ, storeParity_get?, hP.encode_length_page hc, if_neg, ih fun i k hi hk => h i k (by omega) hk]
    intro h'
    exact h n (a - slotBase n) (by omega) (by omega) (by omega)

theorem storeAll_slotValid (P : Params) (c : Cfg) (raw : List Byte) (s : State) (n j : Nat) :
    (storeAll P c raw (List.range n) s).slotValid j = true ↔ (j < n ∧ j < 16) ∨ s.slotValid j = true := by
  induction n with
  | zero => simp [storeAll]
  | succ n ih =>
    rw [storeAll_succ, storeParity_slotValid]
    split
    · rename_i h; simp only [true_iff]; left; omega
    · rename_i h; rw [ih]
      constructor
      · rintro (h | h)
        · exact .inl ⟨by omega, h.2⟩
        · exact .inr h
      · rintro (h' | h')
        · exact .inl ⟨by omega, h'.2⟩
        · exact .inr h'

/-- The bytes of a DATA that was stored, and all the others. -/
theorem storeData_get? (out : List Byte) (s : State) (a : Nat) (h : out.length ≤ dataCap) :
    (storeData out s).mem.get? a =
      if dataBase ≤ a ∧ a < dataBase + dataCap then out[a - dataBase]? else s.mem.get? a := by
  simp only [storeData, Memory.get?_setRange, Memory.get?_erase]
  by_cases h1 : dataBase ≤ a ∧ a < dataBase + dataCap
  · by_cases h2 : a < dataBase + out.length
    · rw [if_pos ⟨h1.1, h2⟩, if_pos h1]
    · rw [if_neg (by omega), if_pos h1, if_pos h1, List.getElem?_eq_none (by omega)]
  · rw [if_neg (by omega), if_neg h1, if_neg h1]

theorem invalidate_get? (s : State) (a : Nat) :
    (invalidate s).mem.get? a = if dataBase ≤ a ∧ a < dataBase + dataCap then none else s.mem.get? a :=
  Memory.get?_erase _ _ _ _

theorem clearPage_get? (s : State) (a : Nat) :
    (clearPage s).mem.get? a =
      if (dataBase ≤ a ∧ a < dataBase + dataCap) ∨ (parBase ≤ a ∧ a < parBase + slots * parCap) then none
      else s.mem.get? a := by
  simp only [clearPage, Memory.get?_erase]
  by_cases h1 : parBase ≤ a ∧ a < parBase + slots * parCap
  · rw [if_pos h1, if_pos (.inr h1)]
  · rw [if_neg h1]
    by_cases h2 : dataBase ≤ a ∧ a < dataBase + dataCap
    · rw [if_pos h2, if_pos (.inl h2)]
    · rw [if_neg h2, if_neg (not_or.mpr ⟨h2, h1⟩)]

/-- A composed page fits DATA. -/
theorem total_le_dataCap (c : Cfg) : c.total ≤ dataCap := by
  unfold Cfg.total PageSize.bytes OobSize.bytes dataCap
  split <;> split <;> omega

/-! ## CONFIGURE (R217) -/

/-- The configuration a CFG value requests, field by field (R36). -/
theorem cfgRequest_fields (w : Word) :
    (cfgRequest w = none ↔ w.toNat / 2 % 4 = 3) ∧ ∀ c, cfgRequest w = some c →
      c.page = (if w.toNat % 2 = 0 then 2048 else 4096) ∧ c.oobSize.bytes = 64 * 2 ^ (w.toNat / 2 % 4) ∧
      [Ecc.rs, .rsSbl, .bch4, .bch8][w.toNat / 8 % 4]? = some c.ecc ∧ (c.widebus = true ↔ w.toNat / 32 % 2 = 1) ∧
      (cfgWord c).toNat = w.toNat % 64 := by
  have hx : ∀ k l : Nat, (w.extractLsb' k l).toNat = w.toNat / 2 ^ k % 2 ^ l := by
    intro k l; rw [BitVec.extractLsb'_toNat, Nat.shiftRight_eq_div_pow]
  have hb : ∀ k, w.getLsbD k = decide (w.toNat / 2 ^ k % 2 = 1) := by
    intro k; rw [← BitVec.testBit_toNat, Nat.testBit_eq_decide_div_mod_eq]
  have hsum : w.toNat % 64 = w.toNat / 2 ^ 0 % 2 + 2 * (w.toNat / 2 ^ 1 % 2 ^ 2) + 8 * (w.toNat / 2 ^ 3 % 2 ^ 2) +
      32 * (w.toNat / 2 ^ 5 % 2) := by omega
  unfold cfgRequest cfgOobSize cfgPageSize cfgEcc cfgWidebus
  rw [hx 1 2, hx 3 2, hb 0, hb 5, hsum]
  have h0 : w.toNat / 2 ^ 0 % 2 < 2 := Nat.mod_lt _ (by decide)
  have h1 : w.toNat / 2 ^ 1 % 2 ^ 2 < 4 := Nat.mod_lt _ (by decide)
  have h2 : w.toNat / 2 ^ 3 % 2 ^ 2 < 4 := Nat.mod_lt _ (by decide)
  have h5 : w.toNat / 2 ^ 5 % 2 < 2 := Nat.mod_lt _ (by decide)
  rw [show w.toNat / 2 % 4 = w.toNat / 2 ^ 1 % 2 ^ 2 by norm_num, show w.toNat / 8 % 4 = w.toNat / 2 ^ 3 % 2 ^ 2 by norm_num,
    show w.toNat / 32 % 2 = w.toNat / 2 ^ 5 % 2 by norm_num, show w.toNat % 2 = w.toNat / 2 ^ 0 % 2 by norm_num]
  generalize w.toNat / 2 ^ 0 % 2 = a at *
  generalize w.toNat / 2 ^ 1 % 2 ^ 2 = b at *
  generalize w.toNat / 2 ^ 3 % 2 ^ 2 = e at *
  generalize w.toNat / 2 ^ 5 % 2 = d at *
  clear hx hb hsum
  refine ⟨by interval_cases b <;> simp, fun c hc => ?_⟩
  interval_cases b <;> simp only [Option.map_some, Option.map_none, reduceCtorEq] at hc <;>
    obtain rfl := Option.some.inj hc <;> interval_cases a <;> interval_cases e <;> interval_cases d <;> decide

/-- CFG holding a configuration in its own layout requests it. -/
theorem cfgRequest_cfgWord (c : Cfg) : cfgRequest (cfgWord c) = some c := by
  obtain ⟨ps, os, e, wb⟩ := c
  cases ps <;> cases os <;> cases e <;> cases wb <;> decide

/-- PAGECFG, a copy of CFG's bits [5:0], is the configuration in CFG's layout (R48). -/
theorem cfg_and_mask {w : Word} {c : Cfg} (h : cfgRequest w = some c) : w &&& cfgMask = cfgWord c := by
  apply BitVec.eq_of_toNat_eq
  rw [((cfgRequest_fields w).2 c h).2.2.2.2, BitVec.toNat_and]
  exact Nat.and_two_pow_sub_one_eq_mod _ 6

/-- Every outcome of CONFIGURE, with the condition it is reached under. -/
theorem configureCommand_cases (P : Params) (s : State) :
    (cfgRequest s.cfg = none ∧ configureCommand P s = .next (respond .reservedOobSelect (clearPage s))) ∨
    ∃ c, cfgRequest s.cfg = some c ∧
      ((c.widebus = true ∧ configureCommand P s = .refused .widebusUnmodelled) ∨
       (c.widebus = false ∧ P.supported c = false ∧
          configureCommand P s = .next (respond .unsupportedTuple (clearPage s))) ∨
       (c.widebus = false ∧ P.supported c = true ∧ configureCommand P s = .next (respond .ok (latchPage P c s)))) := by
  unfold configureCommand
  cases hr : cfgRequest s.cfg with
  | none => exact .inl ⟨rfl, rfl⟩
  | some c =>
    refine .inr ⟨c, rfl, ?_⟩
    cases hw : c.widebus with
    | true => exact .inl ⟨rfl, by simp only [hw, if_true]⟩
    | false =>
      cases hs : P.supported c with
      | true => exact .inr (.inr ⟨rfl, rfl, by simp [hw, constructPage, hs]⟩)
      | false => exact .inr (.inl ⟨rfl, rfl, by simp [hw, constructPage, hs]⟩)

/-! ## Steps -/

/-- An unmarked state with an access pending performs that access. -/
theorem step_pending {s : State} {x : HostAccess} {rest : List HostAccess} (hf : s.faulted = none) (hr : s.refused = none)
    (hp : s.pending = x :: rest) : step s = access x { s with pending := rest } := by
  simp only [step, nextStep, hf, hr, hp]

theorem step_idle {s : State} (hf : s.faulted = none) (hr : s.refused = none) (hp : s.pending = []) : step s = .next s := by
  simp only [step, nextStep, hf, hr, hp]

/-- A step answers a next state only from an unmarked state, by idling or by performing the oldest pending access. -/
theorem step_next {s t : State} (h : step s = .next t) :
    s.faulted = none ∧ s.refused = none ∧
      ((s.pending = [] ∧ t = s) ∨ ∃ x rest, s.pending = x :: rest ∧ access x { s with pending := rest } = .next t) := by
  unfold step nextStep at h
  cases hr : s.refused with
  | some r => simp [hr] at h
  | none =>
    cases hf : s.faulted with
    | some f => simp [hr, hf] at h
    | none =>
      refine ⟨rfl, rfl, ?_⟩
      cases hp : s.pending with
      | nil => simp [hr, hf, hp] at h; exact .inl ⟨rfl, h.symm⟩
      | cons x rest => simp only [hr, hf, hp] at h; exact .inr ⟨x, rest, rfl, h⟩

/-- The write of a word to CMD issues it. -/
theorem access_cmd (w : Word) (s : State) : access (.write cmdAddr 4 w) s = issue w s := rfl

theorem issue_ok {w : Word} {i : Instr} (h : decodeWord w = .ok i) (s : State) : issue w s = exec i s := by
  simp only [issue, h]

theorem issue_error {w : Word} {e : DecodeError} (h : decodeWord w = .error e) (s : State) :
    issue w s = .next (respond (illegalResponse e) s) := by simp only [issue, h]

end Sys2Proof.Machine
end

