-- ==== Sys2Proof/Laws/Bus.lean ====
section
/-! SUPPORT. The address map and host accesses: where each region lies, that a legal access lies in one region, and what a read
and a write of each region answer. -/

namespace Sys2Proof.Machine

/-! ## Regions (R61) -/

/-- The map with its bounds as numbers. -/
theorem regionOf_eq (a : Nat) : regionOf a =
    if a < 0x40 then some .regs
    else if 0x1000 ≤ a ∧ a < 0x3000 then some .raw
    else if 0x3000 ≤ a ∧ a < 0x3400 then some .encIn
    else if 0x3400 ≤ a ∧ a < 0x3800 then some .parbuf
    else if 0x3800 ≤ a ∧ a < 0x3880 then some .segtab
    else if 0x4000 ≤ a ∧ a < 0x6000 then some .data
    else none := rfl

theorem regionOf_regs {a : Nat} (h : a < 0x40) : regionOf a = some .regs := if_pos h

theorem regionOf_gap {a : Nat} (h : 0x40 ≤ a) (h' : a < 0x1000) : regionOf a = none := by
  rw [regionOf_eq, if_neg (by omega), if_neg (by omega), if_neg (by omega), if_neg (by omega), if_neg (by omega), if_neg (by omega)]

theorem regionOf_raw {a : Nat} (h : 0x1000 ≤ a) (h' : a < 0x3000) : regionOf a = some .raw := by
  rw [regionOf_eq, if_neg (by omega), if_pos (by omega)]

theorem regionOf_encIn {a : Nat} (h : 0x3000 ≤ a) (h' : a < 0x3400) : regionOf a = some .encIn := by
  rw [regionOf_eq, if_neg (by omega), if_neg (by omega), if_pos (by omega)]

theorem regionOf_parbuf {a : Nat} (h : 0x3400 ≤ a) (h' : a < 0x3800) : regionOf a = some .parbuf := by
  rw [regionOf_eq, if_neg (by omega), if_neg (by omega), if_neg (by omega), if_pos (by omega)]

theorem regionOf_segtab {a : Nat} (h : 0x3800 ≤ a) (h' : a < 0x3880) : regionOf a = some .segtab := by
  rw [regionOf_eq, if_neg (by omega), if_neg (by omega), if_neg (by omega), if_neg (by omega), if_pos (by omega)]

theorem regionOf_hole {a : Nat} (h : 0x3880 ≤ a) (h' : a < 0x4000) : regionOf a = none := by
  rw [regionOf_eq, if_neg (by omega), if_neg (by omega), if_neg (by omega), if_neg (by omega), if_neg (by omega), if_neg (by omega)]

theorem regionOf_data {a : Nat} (h : 0x4000 ≤ a) (h' : a < 0x6000) : regionOf a = some .data := by
  rw [regionOf_eq, if_neg (by omega), if_neg (by omega), if_neg (by omega), if_neg (by omega), if_neg (by omega), if_pos (by omega)]

theorem regionOf_top {a : Nat} (h : 0x6000 ≤ a) : regionOf a = none := by
  rw [regionOf_eq, if_neg (by omega), if_neg (by omega), if_neg (by omega), if_neg (by omega), if_neg (by omega), if_neg (by omega)]

/-- The regions' bounds, for any address. -/
theorem regionOf_cases (a : Nat) :
    (a < 0x40 ∧ regionOf a = some .regs) ∨ (0x40 ≤ a ∧ a < 0x1000 ∧ regionOf a = none) ∨
    (0x1000 ≤ a ∧ a < 0x3000 ∧ regionOf a = some .raw) ∨ (0x3000 ≤ a ∧ a < 0x3400 ∧ regionOf a = some .encIn) ∨
    (0x3400 ≤ a ∧ a < 0x3800 ∧ regionOf a = some .parbuf) ∨ (0x3800 ≤ a ∧ a < 0x3880 ∧ regionOf a = some .segtab) ∨
    (0x3880 ≤ a ∧ a < 0x4000 ∧ regionOf a = none) ∨ (0x4000 ≤ a ∧ a < 0x6000 ∧ regionOf a = some .data) ∨
    (0x6000 ≤ a ∧ regionOf a = none) := by
  by_cases h1 : a < 0x40
  · exact .inl ⟨h1, regionOf_regs h1⟩
  by_cases h2 : a < 0x1000
  · exact .inr (.inl ⟨by omega, h2, regionOf_gap (by omega) h2⟩)
  by_cases h3 : a < 0x3000
  · exact .inr (.inr (.inl ⟨by omega, h3, regionOf_raw (by omega) h3⟩))
  by_cases h4 : a < 0x3400
  · exact .inr (.inr (.inr (.inl ⟨by omega, h4, regionOf_encIn (by omega) h4⟩)))
  by_cases h5 : a < 0x3800
  · exact .inr (.inr (.inr (.inr (.inl ⟨by omega, h5, regionOf_parbuf (by omega) h5⟩))))
  by_cases h6 : a < 0x3880
  · exact .inr (.inr (.inr (.inr (.inr (.inl ⟨by omega, h6, regionOf_segtab (by omega) h6⟩)))))
  by_cases h7 : a < 0x4000
  · exact .inr (.inr (.inr (.inr (.inr (.inr (.inl ⟨by omega, h7, regionOf_hole (by omega) h7⟩))))))
  by_cases h8 : a < 0x6000
  · exact .inr (.inr (.inr (.inr (.inr (.inr (.inr (.inl ⟨by omega, h8, regionOf_data (by omega) h8⟩)))))))
  · exact .inr (.inr (.inr (.inr (.inr (.inr (.inr (.inr ⟨by omega, regionOf_top (by omega)⟩)))))))

/-! ## Legal accesses (R63) -/

/-- The last byte of an aligned access lies in the region of the first. -/
theorem regionOf_last {a n : Nat} (hn : n = 1 ∨ n = 2 ∨ n = 4) (ha : a % n = 0) {k : Nat} (hk : k < n) :
    regionOf (a + k) = regionOf a := by
  have hb : ∀ b : Nat, b % 4 = 0 → a < b → a + k < b := by
    rcases hn with rfl | rfl | rfl <;> intro b _ _ <;> omega
  rcases regionOf_cases a with ⟨h, e⟩ | ⟨l, h, e⟩ | ⟨l, h, e⟩ | ⟨l, h, e⟩ | ⟨l, h, e⟩ | ⟨l, h, e⟩ | ⟨l, h, e⟩ | ⟨l, h, e⟩ |
    ⟨l, e⟩ <;> rw [e]
  · exact regionOf_regs (hb _ (by decide) h)
  · exact regionOf_gap (by omega) (hb _ (by decide) h)
  · exact regionOf_raw (by omega) (hb _ (by decide) h)
  · exact regionOf_encIn (by omega) (hb _ (by decide) h)
  · exact regionOf_parbuf (by omega) (hb _ (by decide) h)
  · exact regionOf_segtab (by omega) (hb _ (by decide) h)
  · exact regionOf_hole (by omega) (hb _ (by decide) h)
  · exact regionOf_data (by omega) (hb _ (by decide) h)
  · exact regionOf_top (by omega)

theorem accessRegion_eq {a n : Nat} (hn : n = 1 ∨ n = 2 ∨ n = 4) (ha : a % n = 0) (h : regionOf a ≠ some .regs ∨ n = 4) :
    accessRegion a n = regionOf a := by
  have hl := regionOf_last hn ha (k := n - 1) (by omega)
  unfold accessRegion
  rw [if_pos ⟨hn, ha⟩]
  cases hr : regionOf a with
  | none => rfl
  | some r =>
    rw [hr] at hl h
    refine if_neg ?_
    rintro (⟨rfl, h4⟩ | h')
    · exact h.elim (fun h => h rfl) h4
    · exact h' hl

theorem accessRegion_eq_none_iff {a n : Nat} :
    accessRegion a n = none ↔ ¬ (n = 1 ∨ n = 2 ∨ n = 4) ∨ a % n ≠ 0 ∨ (a < 0x40 ∧ n ≠ 4) ∨ (0x40 ≤ a ∧ a < 0x1000) ∨
      (0x3880 ≤ a ∧ a < 0x4000) ∨ 0x6000 ≤ a := by
  by_cases hn : n = 1 ∨ n = 2 ∨ n = 4
  swap
  · exact iff_of_true (if_neg fun h => hn h.1) (.inl hn)
  by_cases ha : a % n = 0
  swap
  · exact iff_of_true (if_neg fun h => ha h.2) (.inr (.inl ha))
  by_cases h4 : a < 0x40 ∧ n ≠ 4
  · refine iff_of_true ?_ (.inr (.inr (.inl h4)))
    unfold accessRegion
    rw [if_pos ⟨hn, ha⟩, regionOf_regs h4.1]
    exact if_pos (.inl ⟨rfl, h4.2⟩)
  have hne : regionOf a ≠ some .regs ∨ n = 4 := by
    by_cases h : n = 4
    · exact .inr h
    · refine .inl fun hr => ?_
      rcases regionOf_cases a with ⟨h', e⟩ | ⟨_, _, e⟩ | ⟨_, _, e⟩ | ⟨_, _, e⟩ | ⟨_, _, e⟩ | ⟨_, _, e⟩ | ⟨_, _, e⟩ | ⟨_, _, e⟩ |
        ⟨_, e⟩
      · exact h4 ⟨h', h⟩
      all_goals rw [e] at hr; simp at hr
  rw [accessRegion_eq hn ha hne]
  rcases regionOf_cases a with ⟨h, e⟩ | ⟨l, h, e⟩ | ⟨l, h, e⟩ | ⟨l, h, e⟩ | ⟨l, h, e⟩ | ⟨l, h, e⟩ | ⟨l, h, e⟩ | ⟨l, h, e⟩ |
    ⟨l, e⟩ <;> simp only [e, reduceCtorEq, false_iff, true_iff] <;> omega

/-- A legal access: its region, its width and its alignment. -/
theorem accessRegion_eq_some {a n : Nat} {r : Region} (h : accessRegion a n = some r) :
    (n = 1 ∨ n = 2 ∨ n = 4) ∧ a % n = 0 ∧ regionOf a = some r ∧ (r = .regs → n = 4) := by
  have hnone := mt accessRegion_eq_none_iff.mpr (by rw [h]; simp)
  rw [not_or, not_not, not_or, not_not, not_or] at hnone
  obtain ⟨hn, ha, h4, -⟩ := hnone
  by_cases hr : regionOf a = some .regs
  · have h40 : a < 0x40 := by
      rcases regionOf_cases a with ⟨h', e⟩ | ⟨_, _, e⟩ | ⟨_, _, e⟩ | ⟨_, _, e⟩ | ⟨_, _, e⟩ | ⟨_, _, e⟩ | ⟨_, _, e⟩ | ⟨_, _, e⟩ |
        ⟨_, e⟩
      · exact h'
      all_goals rw [e] at hr; simp at hr
    have hn4 : n = 4 := by omega
    rw [accessRegion_eq hn ha (.inr hn4)] at h
    exact ⟨hn, ha, h, fun _ => hn4⟩
  · rw [accessRegion_eq hn ha (.inl hr)] at h
    exact ⟨hn, ha, h, fun e => absurd (e ▸ h) hr⟩

/-- Every aligned offset of the register range is a register's. -/
theorem regAt_isSome {a : Nat} (h : a < 0x40) (ha : a % 4 = 0) : ∃ r, regAt a = some r := by
  interval_cases a <;> simp at ha <;> exact ⟨_, rfl⟩

/-- Only offset 4 is CMD's. -/
theorem regAt_cmd {a : Nat} (h : regAt a = some .cmd) : a = 4 := by
  unfold regAt at h
  split at h <;> simp_all

theorem regionOf_lt_regs {a : Nat} (h : regionOf a = some .regs) : a < 0x40 := by
  rcases regionOf_cases a with ⟨h', e⟩ | ⟨_, _, e⟩ | ⟨_, _, e⟩ | ⟨_, _, e⟩ | ⟨_, _, e⟩ | ⟨_, _, e⟩ | ⟨_, _, e⟩ | ⟨_, _, e⟩ | ⟨_, e⟩
  · exact h'
  all_goals rw [e] at h; simp at h

/-! ## Reads (R65 to R70) -/

theorem readBytes_length {P : Params} {s : State} {a n : Nat} {bs : List Byte} (h : readBytes P s a n = some bs) :
    bs.length = n := by
  induction n generalizing a bs with
  | zero => simp only [readBytes, Option.some.injEq] at h; simp [← h]
  | succ n ih =>
    simp only [readBytes, Option.bind_eq_some_iff, Option.map_eq_some_iff] at h
    obtain ⟨b, -, bs', hbs, rfl⟩ := h
    simp [ih hbs]

theorem readBytes_eq_some {P : Params} {s : State} {a n : Nat} {bs : List Byte} :
    readBytes P s a n = some bs ↔ bs.length = n ∧ ∀ k, k < n → readByte P s (a + k) = bs[k]? := by
  induction n generalizing a bs with
  | zero =>
    simp only [readBytes, Option.some.injEq]
    exact ⟨fun h => ⟨by simp [← h], by simp⟩, fun h => (List.eq_nil_of_length_eq_zero h.1).symm⟩
  | succ n ih =>
    simp only [readBytes, Option.bind_eq_some_iff, Option.map_eq_some_iff]
    constructor
    · rintro ⟨b, hb, bs', hbs, rfl⟩
      obtain ⟨hl, hk⟩ := ih.mp hbs
      refine ⟨by simp [hl], fun k hkn => ?_⟩
      cases k with
      | zero => simpa using hb
      | succ k => rw [List.getElem?_cons_succ, ← hk k (by omega)]; congr 1; omega
    · rintro ⟨hl, hk⟩
      cases bs with
      | nil => simp at hl
      | cons b bs =>
        refine ⟨b, by simpa using hk 0 (by omega), bs, ih.mpr ⟨by simpa using hl, fun k hkn => ?_⟩, rfl⟩
        have := hk (k + 1) (by omega)
        rw [List.getElem?_cons_succ] at this
        rw [← this]; congr 1; omega

theorem readBytes_eq_none {P : Params} {s : State} {a n : Nat} :
    readBytes P s a n = none ↔ ∃ k, k < n ∧ readByte P s (a + k) = none := by
  induction n generalizing a with
  | zero => simp [readBytes]
  | succ n ih =>
    simp only [readBytes, Option.bind_eq_none_iff, Option.map_eq_none_iff, ih]
    constructor
    · intro h
      cases hb : readByte P s a with
      | none => exact ⟨0, by omega, by simpa using hb⟩
      | some b =>
        obtain ⟨k, hk, h'⟩ := h b hb
        exact ⟨k + 1, by omega, by rw [← h']; congr 1; omega⟩
    · rintro ⟨k, hk, h'⟩ b hb
      cases k with
      | zero => rw [Nat.add_zero, hb] at h'; simp at h'
      | succ k => exact ⟨k, by omega, by rw [← h']; congr 1; omega⟩

/-- A read of a buffer region: the bytes little-endian, or UNDEFINED_READ. -/
theorem busRead_buffer {P : Params} {s : State} {a n : Nat} {r : Region} (h : accessRegion a n = some r) (hr : r ≠ .regs) :
    busRead P a n s = match readBytes P s a n with
      | none => .error .undefinedRead
      | some bs => .ok (leWord bs) := by
  unfold busRead
  rw [h]
  cases r <;> first | rfl | exact absurd rfl hr

theorem busRead_none {P : Params} {s : State} {a n : Nat} (h : accessRegion a n = none) :
    busRead P a n s = .error .busError := by unfold busRead; rw [h]

theorem busRead_reg {P : Params} {s : State} {a : Nat} {r : Reg} (h : regAt a = some r) (h' : a < 0x40) (ha : a % 4 = 0) :
    busRead P a 4 s = .ok (readReg r s) := by
  unfold busRead
  rw [accessRegion_eq (.inr (.inr rfl)) ha (.inr rfl), regionOf_regs h']
  simp only [h]

/-- RAW and ENC_IN bytes read as they are stored. -/
theorem readByte_mem {P : Params} {s : State} {a : Nat} (h : 0x1000 ≤ a) (h' : a < 0x3400) : readByte P s a = s.mem.get? a := by
  unfold readByte
  by_cases h2 : a < 0x3000
  · rw [regionOf_raw h h2]
  · rw [regionOf_encIn (by omega) h']

/-! ## Little-endian values (R62) -/

theorem leWord_single (b : Byte) : leWord [b] = b.setWidth 32 := by
  simp only [leWord]
  ext i hi
  simp

theorem leBytes_length (n : Nat) (v : Word) : (leBytes n v).length = n := by simp [leBytes]

theorem leBytes_getElem? {n k : Nat} (v : Word) (h : k < n) : (leBytes n v)[k]? = some (v.extractLsb' (8 * k) 8) := by
  simp [leBytes, h]

/-- Writing the low n bytes and reading them back gives the value modulo 256^n. -/
theorem leWord_leBytes {n : Nat} (hn : n = 1 ∨ n = 2 ∨ n = 4) (v : Word) :
    leWord (leBytes n v) = BitVec.ofNat 32 (v.toNat % 256 ^ n) := by
  have h := v.isLt
  rcases hn with rfl | rfl | rfl
  · have : BitVec.ofNat 32 (v.toNat % 256 ^ 1) = v &&& 0xff := by
      apply BitVec.eq_of_toNat_eq
      rw [BitVec.toNat_ofNat, BitVec.toNat_and, show (0xff : Word).toNat = 2 ^ 8 - 1 from rfl,
        Nat.and_two_pow_sub_one_eq_mod]
      omega
    rw [this]; simp only [leBytes, leWord, List.range, List.range.loop, List.map]; ext i hi; simp; interval_cases i <;> simp
  · have : BitVec.ofNat 32 (v.toNat % 256 ^ 2) = v &&& 0xffff := by
      apply BitVec.eq_of_toNat_eq
      rw [BitVec.toNat_ofNat, BitVec.toNat_and, show (0xffff : Word).toNat = 2 ^ 16 - 1 from rfl,
        Nat.and_two_pow_sub_one_eq_mod]
      omega
    rw [this]; simp only [leBytes, leWord, List.range, List.range.loop, List.map]; ext i hi; simp; interval_cases i <;> simp
  · have : BitVec.ofNat 32 (v.toNat % 256 ^ 4) = v := by
      apply BitVec.eq_of_toNat_eq
      rw [BitVec.toNat_ofNat]; omega
    rw [this]; simp only [leBytes, leWord, List.range, List.range.loop, List.map]; ext i hi; simp; interval_cases i <;> simp

theorem extractLsb'_byte (v : Word) (k : Nat) : v.extractLsb' (8 * k) 8 = BitVec.ofNat 8 (v.toNat / 256 ^ k) := by
  apply BitVec.eq_of_toNat_eq
  rw [BitVec.extractLsb'_toNat, BitVec.toNat_ofNat, Nat.shiftRight_eq_div_pow, show (256 : Nat) = 2 ^ 8 from rfl, ← pow_mul]

/-- Reading n bytes and writing the value back gives the same bytes. -/
theorem leBytes_leWord {n : Nat} (hn : n = 1 ∨ n = 2 ∨ n = 4) {bs : List Byte} (hl : bs.length = n) :
    leBytes n (leWord bs) = bs := by
  rcases hn with rfl | rfl | rfl
  · obtain ⟨a, rfl⟩ := List.length_eq_one_iff.mp hl
    simp only [leBytes, leWord, List.range, List.range.loop, List.map]
    congr 1; ext i hi; simp; interval_cases i <;> simp
  · obtain ⟨a, b, rfl⟩ := List.length_eq_two.mp hl
    simp only [leBytes, leWord, List.range, List.range.loop, List.map]
    congr 1
    · ext i hi; simp; interval_cases i <;> simp
    · congr 1; ext i hi; simp; interval_cases i <;> simp
  · obtain ⟨a, b, c, d, rfl⟩ : ∃ a b c d, bs = [a, b, c, d] := by
      match bs, hl with
      | [a, b, c, d], _ => exact ⟨a, b, c, d, rfl⟩
    simp only [leBytes, leWord, List.range, List.range.loop, List.map]
    congr 1
    · ext i hi; simp; interval_cases i <;> simp
    · congr 1
      · ext i hi; simp; interval_cases i <;> simp
      · congr 1
        · ext i hi; simp; interval_cases i <;> simp
        · congr 1; ext i hi; simp; interval_cases i <;> simp

/-! ## Whole accesses -/

theorem access_read (a : Addr) (n : Nat) (s : State) :
    access (.read a n) s = match busRead Config.params a.toNat n s with
      | .ok v => .next { s with observed := s.observed ++ [v] }
      | .error f => .fault f := rfl

/-- The buffer regions. -/
theorem regionOf_buffer {a : Nat} (h : 0x1000 ≤ a ∧ a < 0x3880 ∨ 0x4000 ≤ a ∧ a < 0x6000) :
    ∃ r, regionOf a = some r ∧ r ≠ .regs := by
  rcases regionOf_cases a with ⟨_, e⟩ | ⟨_, _, e⟩ | ⟨_, _, e⟩ | ⟨_, _, e⟩ | ⟨_, _, e⟩ | ⟨_, _, e⟩ | ⟨_, _, e⟩ | ⟨_, _, e⟩ | ⟨_, e⟩
  · omega
  · omega
  · exact ⟨_, e, by simp⟩
  · exact ⟨_, e, by simp⟩
  · exact ⟨_, e, by simp⟩
  · exact ⟨_, e, by simp⟩
  · omega
  · exact ⟨_, e, by simp⟩
  · omega

/-- An aligned read in a buffer region. -/
theorem busRead_bytes {P : Params} {a n : Nat} {s : State} (hn : n = 1 ∨ n = 2 ∨ n = 4) (ha : a % n = 0)
    (h : 0x1000 ≤ a ∧ a < 0x3880 ∨ 0x4000 ≤ a ∧ a < 0x6000) :
    busRead P a n s = match readBytes P s a n with
      | none => .error .undefinedRead
      | some bs => .ok (leWord bs) := by
  obtain ⟨r, e, hr⟩ := regionOf_buffer h
  exact busRead_buffer (r := r) (by rw [accessRegion_eq hn ha (.inl (by rw [e]; simpa using hr)), e]) hr

/-- A one-byte read in a buffer region. -/
theorem access_read_byte {s : State} {a : Nat} (h : 0x1000 ≤ a ∧ a < 0x3880 ∨ 0x4000 ≤ a ∧ a < 0x6000) :
    access (.read (BitVec.ofNat 16 a) 1) s = match readByte Config.params s a with
      | some b => .next { s with observed := s.observed ++ [b.setWidth 32] }
      | none => .fault .undefinedRead := by
  rw [access_read, BitVec.toNat_ofNat, Nat.mod_eq_of_lt (by omega), busRead_bytes (.inl rfl) (Nat.mod_one _) h]
  cases hb : readByte Config.params s a <;> simp [readBytes, hb, leWord_single]

/-- Every outcome of a write, with the condition it is reached under. -/
theorem busWrite_cases (a n : Nat) (v : Word) (s : State) :
    (accessRegion a n = none ∧ busWrite a n v s = .fault .busError) ∨
    (a = 4 ∧ n = 4 ∧ busWrite a n v s = issue v s) ∨
    (∃ r, regAt a = some r ∧ r ≠ .cmd ∧ a < 0x40 ∧ n = 4 ∧ busWrite a n v s = .next (writeReg r v s)) ∨
    ((n = 1 ∨ n = 2 ∨ n = 4) ∧ a % n = 0 ∧ 0x1000 ≤ a ∧ a + n ≤ 0x3400 ∧
      busWrite a n v s = .next { s with mem := s.mem.setRange a (leBytes n v) }) ∨
    ((n = 1 ∨ n = 2 ∨ n = 4) ∧ a % n = 0 ∧ 0x3400 ≤ a ∧ busWrite a n v s = .next s) := by
  cases hr : accessRegion a n with
  | none => exact .inl ⟨rfl, by simp only [busWrite, hr]⟩
  | some r =>
    obtain ⟨hn, ha, hreg, h4⟩ := accessRegion_eq_some hr
    rcases regionOf_cases a with ⟨l, e⟩ | ⟨_, _, e⟩ | ⟨l, u, e⟩ | ⟨l, u, e⟩ | ⟨l, u, e⟩ | ⟨l, u, e⟩ | ⟨_, _, e⟩ | ⟨l, u, e⟩ | ⟨_, e⟩
      <;> rw [e] at hreg <;> simp only [reduceCtorEq, Option.some.injEq] at hreg <;> subst hreg
    · obtain rfl := h4 rfl
      obtain ⟨q, hq⟩ := regAt_isSome l ha
      by_cases hc : q = .cmd
      · subst hc
        obtain rfl := regAt_cmd hq
        exact .inr (.inl ⟨rfl, rfl, by simp only [busWrite, hr, hq]⟩)
      · refine .inr (.inr (.inl ⟨q, hq, hc, l, rfl, ?_⟩))
        simp only [busWrite, hr, hq]
    · exact .inr (.inr (.inr (.inl ⟨hn, ha, l, by rcases hn with rfl | rfl | rfl <;> omega, by simp only [busWrite, hr]⟩)))
    · exact .inr (.inr (.inr (.inl ⟨hn, ha, by omega, by rcases hn with rfl | rfl | rfl <;> omega,
        by simp only [busWrite, hr]⟩)))
    · exact .inr (.inr (.inr (.inr ⟨hn, ha, l, by simp only [busWrite, hr]⟩)))
    · exact .inr (.inr (.inr (.inr ⟨hn, ha, by omega, by simp only [busWrite, hr]⟩)))
    · exact .inr (.inr (.inr (.inr ⟨hn, ha, by omega, by simp only [busWrite, hr]⟩)))

/-- A write that is not a command: only the five writable registers and RAW and ENC_IN bytes can change. -/
theorem busWrite_next {a n : Nat} {v : Word} {s t : State} (ha : a ≠ 4) (h : busWrite a n v s = .next t) :
    t = { s with cfg := t.cfg, opa := t.opa, opb := t.opb, rawLen := t.rawLen, encLen := t.encLen, mem := t.mem } := by
  rcases busWrite_cases a n v s with ⟨-, e⟩ | ⟨h4, -, -⟩ | ⟨r, -, -, -, -, e⟩ | ⟨-, -, -, -, e⟩ | ⟨-, -, -, e⟩
  · rw [e] at h; simp at h
  · exact absurd h4 ha
  · rw [e] at h; obtain rfl := Host.Outcome.next.inj h; cases r <;> rfl
  · rw [e] at h; obtain rfl := Host.Outcome.next.inj h; rfl
  · rw [e] at h; obtain rfl := Host.Outcome.next.inj h; rfl

end Sys2Proof.Machine
end

