-- ==== Sys2Proof/Laws/Invariant.lean ====
section
/-! SUPPORT. Each named operation keeps the invariant. -/

namespace Sys2Proof.Machine

/-- The invariant depends on these fields only. -/
theorem inv_congr {s t : State} (h : s.Inv) (h1 : t.mem = s.mem) (h2 : t.cfg &&& cfgMask = t.cfg)
    (h3 : t.phase = s.phase) (h4 : t.pagecfg = s.pagecfg)
   (h5 : t.geomN = s.geomN ∧ t.geomD = s.geomD ∧ t.geomDL = s.geomDL ∧ t.geomP = s.geomP ∧ t.pageCfgReg = s.pageCfgReg)
   (h6 : t.dataLen = s.dataLen) (h7 : t.parValid = s.parValid) (h8 : t.parLen = s.parLen)
    (h9 : t.segCount = s.segCount ∧ t.segtab = s.segtab)
   (h10 : ∃ fld, t.res.toNat < (Config.params.field fld).size) : t.Inv := by
  have hsv : ∀ i, t.slotValid i = s.slotValid i := fun i => by simp only [State.slotValid, h7]
  have hpl : t.parityLen Config.params = s.parityLen Config.params := by simp only [State.parityLen, h4]
  obtain ⟨g1, g2, g3, g4, g5⟩ := h5
  constructor
  · rw [h1]; exact h.mem_wf
  · rw [h1]; exact h.mem_place
  · exact h2
  · rw [h3, h4]; exact h.page_phase
  · rw [h4]; exact h.page_supported
  · have := h.shows
    unfold State.showsPage at *
    rw [h4, g1, g2, g3, g4, g5]; exact this
  · have := h.data_len
    unfold State.dataLenOf at *
    rw [h3, h4, h6]; exact this
  · rw [h1, h6]; exact h.data_defined
  · intro i hi; rw [hsv] at hi; rw [h4]; exact h.slot_lt i hi
  · intro i k hi hk; rw [h1, hsv, hpl]; exact h.par_defined i k hi hk
  · rw [h8, h4]; exact h.par_len
  · rw [h9.1, h9.2, h4]; exact h.segs
  · exact h10

theorem inv_respond {s : State} (h : s.Inv) (r : Response) : (respond r s).Inv :=
  inv_congr h rfl h.cfg_legal rfl rfl ⟨rfl, rfl, rfl, rfl, rfl⟩ rfl rfl rfl ⟨rfl, rfl⟩ h.res_elem

theorem cell_par {i k : Nat} (hi : i < slots) (hk : k < parCap) : isCellAddr (slotBase i + k) = true := by
  unfold isCellAddr
  rw [regionOf_parbuf]
  all_goals unfold slotBase parBase parCap slots at *; omega
theorem cell_data {k : Nat} (hk : k < dataCap) : isCellAddr (dataBase + k) = true := by
  unfold isCellAddr
  rw [regionOf_data]
  all_goals unfold dataBase dataCap at *; omega
theorem cell_buf {a : Nat} (h : 0x1000 ≤ a) (h' : a < 0x3400) : isCellAddr a = true := by
  unfold isCellAddr
  by_cases h2 : a < 0x3000
  · rw [regionOf_raw h h2]
  · rw [regionOf_encIn (by omega) h']

theorem mem_place_set {m : Memory} (h : ∀ x ∈ m, isCellAddr x.1 = true) (a : Nat) (bs : List Byte)
    (hb : ∀ k, k < bs.length → isCellAddr (a + k) = true) :
   ∀ x ∈ m.setRange a bs, isCellAddr x.1 = true := by
  intro x hx
  unfold Memory.setRange at hx
  rcases List.mem_append.mp hx with hx | hx
  · rcases List.mem_append.mp hx with hx | hx
    · exact h x (List.mem_filter.mp hx).1
    · have := Memory.mem_cellsFrom hx
      have := hb (x.1 - a) (by omega)
      rwa [show a + (x.1 - a) = x.1 by omega] at this
  · exact h x (List.mem_filter.mp hx).1
theorem mem_place_erase {m : Memory} (h : ∀ x ∈ m, isCellAddr x.1 = true) (a n : Nat) :
   ∀ x ∈ m.erase a n, isCellAddr x.1 = true := by
  intro x hx
  unfold Memory.erase at hx
  rcases List.mem_append.mp hx with hx | hx <;> exact h x (List.mem_filter.mp hx).1

theorem inv_write {s : State} (h : s.Inv) {a : Nat} (bs : List Byte) (h1 : 0x1000 ≤ a)
    (h2 : a + bs.length ≤ 0x3400) :
   State.Inv { s with mem := s.mem.setRange a bs } := by
  constructor
  · exact Memory.wf_setRange h.mem_wf _ _
  · exact mem_place_set h.mem_place _ _ (fun k hk => cell_buf (by omega) (by omega))
  · exact h.cfg_legal
  · exact h.page_phase
  · exact h.page_supported
  · exact h.shows
  · exact h.data_len
  · intro k hk
    show ((s.mem.setRange a bs).get? _).isSome = true ↔ _
    rw [Memory.get?_setRange_of_ge (by unfold dataBase; omega)]; exact h.data_defined k hk
  · exact h.slot_lt
  · intro i k hi hk
    show ((s.mem.setRange a bs).get? _).isSome = true ↔ _
    rw [Memory.get?_setRange_of_ge (by unfold slotBase parBase; omega)]; exact h.par_defined i k hi hk
  · exact h.par_len
  · exact h.segs
  · exact h.res_elem

theorem inv_invalidate {s : State} (h : s.Inv) (hc : s.pagecfg ≠ none) : (invalidate s).Inv := by
  constructor
  · exact Memory.wf_erase h.mem_wf _ _
  · exact mem_place_erase h.mem_place _ _
  · exact h.cfg_legal
  · exact iff_of_false (by simp [invalidate]) hc
  · exact h.page_supported
  · exact h.shows
  · rfl
  · intro k hk
    rw [invalidate_get?, if_pos (by omega)]
    simp [invalidate]
  · exact h.slot_lt
  · intro i k hi hk
    rw [invalidate_get?, if_neg (by unfold slotBase parBase parCap slots dataBase at *; omega)]
    exact h.par_defined i k hi hk
  · exact h.par_len
  · exact h.segs
  · exact h.res_elem

theorem inv_clearPage {s : State} (h : s.Inv) : (clearPage s).Inv := by
  constructor
  · exact Memory.wf_erase (Memory.wf_erase h.mem_wf _ _) _ _
  · exact mem_place_erase (mem_place_erase h.mem_place _ _) _ _
  · exact h.cfg_legal
  · exact iff_of_true rfl rfl
  · intro c hc; simp [clearPage] at hc
  · exact ⟨rfl, rfl, rfl, rfl, rfl⟩
  · rfl
  · intro k hk
    rw [clearPage_get?, if_pos (.inl (by omega))]
    simp [clearPage]
  · intro i hi; rw [clearPage_slotValid] at hi; simp at hi
  · intro i k hi hk
    rw [clearPage_get?, if_pos
    (.inr (by unfold slotBase parBase parCap slots at *; omega)), clearPage_slotValid]; simp
  · exact .inl rfl
  · exact .inl ⟨rfl, rfl⟩
  · exact h.res_elem

theorem inv_latchPage {s : State} (h : s.Inv) {c : Cfg} (hr : cfgRequest s.cfg = some c)
    (hs : Config.params.supported c = true) : (latchPage Config.params c s).Inv := by
  have hi := inv_clearPage h
  constructor
  · exact hi.mem_wf
  · exact hi.mem_place
  · exact h.cfg_legal
  · exact iff_of_false (by simp [latchPage]) (by simp [latchPage])
  · intro c' hc; obtain rfl := Option.some.inj hc; exact hs
  · exact ⟨rfl, rfl, rfl, rfl, cfg_and_mask hr⟩
  · rfl
  · exact hi.data_defined
  · intro i hx
    have : (latchPage Config.params c s).slotValid i = (clearPage s).slotValid i := rfl
    rw [this, clearPage_slotValid] at hx; simp at hx
  · intro i k h1 h2
    have e : (latchPage Config.params c s).slotValid i = false := clearPage_slotValid s i
    have e2 : (latchPage Config.params c s).mem = (clearPage s).mem := rfl
    rw [e, e2, clearPage_get?, if_pos (.inr (by unfold slotBase parBase parCap slots at *; omega))]; simp
  · exact .inl rfl
  · exact .inl ⟨rfl, rfl⟩
  · exact h.res_elem

theorem inv_storeSegments {s : State} (h : s.Inv) {c : Cfg} (hc : s.pagecfg = some c) :
    (storeSegments (Config.params.geom c) s).Inv := by
  constructor
  · exact h.mem_wf
  · exact h.mem_place
  · exact h.cfg_legal
  · exact h.page_phase
  · exact h.page_supported
  · exact h.shows
  · exact h.data_len
  · exact h.data_defined
  · exact h.slot_lt
  · exact h.par_defined
  · exact h.par_len
  · exact .inr ⟨c, hc, rfl, rfl⟩
  · exact h.res_elem

theorem slotBase_ne {i j k k' : Nat} (hk : k < parCap) (hk' : k' < parCap)
    (h : slotBase i + k = slotBase j + k') : i = j ∧ k = k' := by
  unfold slotBase parCap at *; omega

theorem inv_storeParity {s : State} (h : s.Inv) {c : Cfg} (hc : s.pagecfg = some c) {i : Nat}
    (hi : i < (Config.params.geom c).n) {q : List Byte} (hq : q.length = (Config.params.geom c).p) :
   (storeParity i q s).Inv := by
  have hs := h.page_supported c hc
  have G := Config.params_wf.geom c hs
  have hn := G.n_le
  have hp := G.p_le
  have hi16 : i < 16 := by simp only [slots] at hn; omega
  have hpl : s.parityLen Config.params = (Config.params.geom c).p := by simp only [State.parityLen, hc]
  constructor
  · exact Memory.wf_setRange h.mem_wf _ _
  · exact mem_place_set h.mem_place _ _ (fun k hk => cell_par hi16 (by omega))
  · exact h.cfg_legal
  · exact h.page_phase
  · exact h.page_supported
  · exact h.shows
  · exact h.data_len
  · intro k hk
    rw [storeParity_get?, if_neg]
    · exact h.data_defined k hk
    · unfold slotBase parBase parCap slots dataBase at *; omega
  · intro j hj
    rw [storeParity_slotValid] at hj
    split at hj
    · rename_i hx; exact ⟨c, hc, by omega⟩
    · exact h.slot_lt j hj
  · intro j k hj hk
    have e : (storeParity i q s).parityLen Config.params = (Config.params.geom c).p := hpl
    rw [e, storeParity_get?, storeParity_slotValid]
    by_cases hij : j = i
    · subst hij
      rw [if_pos (show j = j ∧ j < 16 from ⟨rfl, hi16⟩)]
      simp only [true_and]
      by_cases hkp : k < (Config.params.geom c).p
      · rw [if_pos (by omega)]
        simp [show slotBase j + k - slotBase j = k by omega, hq, hkp]
      · rw [if_neg (by omega)]
        have := h.par_defined j k hj hk
        rw [hpl] at this
        rw [this]; constructor
        · rintro ⟨-, h⟩; exact h
        · intro h; exact absurd h hkp
    · rw [if_neg, if_neg (fun h => hij h.1)]
      · have := h.par_defined j k hj hk
        rw [hpl] at this; exact this
      · rintro ⟨h1, h2⟩
        have := slotBase_ne (k' := slotBase j + k - slotBase i) hk (by omega)
          (show slotBase j + k = slotBase i + (slotBase j + k - slotBase i) by omega)
        exact hij this.1
  · exact h.par_len
  · exact h.segs
  · exact h.res_elem

theorem inv_storeAll {s : State} (h : s.Inv) {c : Cfg} (hc : s.pagecfg = some c) (raw : List Byte) : ∀ n, n ≤
    (Config.params.geom c).n → (storeAll Config.params c raw (List.range n) s).Inv := by
  have hs := h.page_supported c hc
  intro n
  induction n with
  | zero => intro _; exact h
  | succ n ih =>
    intro hn
    rw [storeAll_succ]
    refine inv_storeParity (ih (by omega)) ?_ (by omega) (Config.params_wf.encode_length_page hs _)
    rw [storeAll_fields]; exact hc

theorem inv_parLen {s : State} (h : s.Inv) {c : Cfg} (hc : s.pagecfg = some c) : State.Inv
    { s with parLen := BitVec.ofNat 32 (Config.params.geom c).p } :=
  { h with par_len := .inr ⟨c, hc, rfl⟩ }

theorem inv_storeData {s : State} (h : s.Inv) {c : Cfg} (hc : s.pagecfg = some c) {out : List Byte}
    (ho : out.length = c.total) : (storeData out s).Inv := by
  have hd := total_le_dataCap c
  have ht : (BitVec.ofNat 32 out.length).toNat = out.length := by rw [BitVec.toNat_ofNat]; unfold dataCap at hd; omega
  constructor
  · exact Memory.wf_setRange (Memory.wf_erase h.mem_wf _ _) _ _
  · exact mem_place_set (mem_place_erase h.mem_place _ _) _ _ (fun k hk => cell_data (by omega))
  · exact h.cfg_legal
  · exact iff_of_false (by simp [storeData]) (by simp [storeData, hc])
  · exact h.page_supported
  · exact h.shows
  · simp [State.dataLenOf, storeData, hc, ho]
  · intro k hk
    rw [storeData_get? _ _ _ (by omega), if_pos (by omega), show dataBase + k - dataBase = k by omega]
    show _ ↔ k < (BitVec.ofNat 32 out.length).toNat
    rw [ht]; simp
  · exact h.slot_lt
  · intro i k hi hk
    rw [storeData_get? _ _ _ (by omega), if_neg (by unfold slotBase parBase parCap slots dataBase at *; omega)]
    exact h.par_defined i k hi hk
  · exact h.par_len
  · exact h.segs
  · exact h.res_elem

theorem inv_gfResult {s : State} (h : s.Inv) (fld : Fld) (v : Nat) (hv : v < (Config.params.field fld).size) :
    (gfResult v s).Inv := by
  have := Config.params_wf.field_size_le fld
  refine inv_congr h rfl h.cfg_legal rfl rfl ⟨rfl, rfl, rfl, rfl, rfl⟩ rfl rfl rfl ⟨rfl, rfl⟩ ⟨fld, ?_⟩
  show (BitVec.ofNat 32 v).toNat < _
  rw [BitVec.toNat_ofNat]; omega

end Sys2Proof.Machine
end

