-- ==== Sys2Proof/Laws/PerInstr.lean ====
section
/-! SUPPORT. Facts of every instruction as syntax: its word matches its row's mask and match of the opcode table (R95). -/

namespace Sys2Proof.Laws.TableMatch

/-- The mask and match an instruction's row has in the opcode table (R95). -/
def row : Instr → Word × Word
  | .gfMul _ => (0xF3FFFFFF, 0x10000000)
  | .gfDiv _ => (0xF3FFFFFF, 0x20000000)
  | .gfPow _ => (0xF3FFFFFF, 0x30000000)
  | .rsEnc _ => (0xFF0FFFFF, 0x40000000)
  | .rsSblEnc _ => (0xFF0FFFFF, 0x50000000)
  | .bch4Enc _ => (0xFF0FFFFF, 0x60000000)
  | .bch8Enc _ => (0xFF0FFFFF, 0x70000000)
  | .segment => (0xFFFFFFFF, 0x80000000)
  | .compose => (0xFFFFFFFF, 0x90000000)
  | .configure => (0xFFFFFFFF, 0xA0000000)
  | .program => (0xFFFFFFFF, 0xB0000000)

/-- A well-formed instruction's word is one of its row's words. -/
def Statement (i : Instr) : Prop := i.wellFormed = true → encode i &&& (row i).1 = (row i).2

theorem gfMul (fld : Fld) : Statement (.gfMul fld) := by intro _; cases fld <;> decide
theorem gfDiv (fld : Fld) : Statement (.gfDiv fld) := by intro _; cases fld <;> decide
theorem gfPow (fld : Fld) : Statement (.gfPow fld) := by intro _; cases fld <;> decide

/-- A format E word with a 4-bit SLOT matches its opcode's row. -/
theorem slot_match : ∀ op < 16, ∀ slot < 16, commandWord op 0 slot &&& 0xFF0FFFFF = BitVec.ofNat 32 op <<< 28 := by decide

theorem rsEnc (slot : Nat) : Statement (.rsEnc slot) := fun h => slot_match 4 (by decide) slot (of_decide_eq_true h)
theorem rsSblEnc (slot : Nat) : Statement (.rsSblEnc slot) := fun h => slot_match 5 (by decide) slot (of_decide_eq_true h)
theorem bch4Enc (slot : Nat) : Statement (.bch4Enc slot) := fun h => slot_match 6 (by decide) slot (of_decide_eq_true h)
theorem bch8Enc (slot : Nat) : Statement (.bch8Enc slot) := fun h => slot_match 7 (by decide) slot (of_decide_eq_true h)
theorem segment : Statement .segment := by intro _; decide
theorem compose : Statement .compose := by intro _; decide
theorem configure : Statement .configure := by intro _; decide
theorem program : Statement .program := by intro _; decide

end Sys2Proof.Laws.TableMatch
end

