-- ==== Sys2Proof/Laws/Runs.lean ====
section
/-! SUPPORT. Runs of host accesses: one step at a time, and a whole sequence of byte writes at once. -/

namespace Sys2Proof.Machine

/-- A run of n + 1 steps whose first access answers a next state goes on from that state. -/
theorem run_step {s t : State} {x : HostAccess} {rest : List HostAccess} (hf : s.faulted = none) (hr : s.refused = none)
    (h : access x { s with pending := rest } = .next t) (n : Nat) :
    State.run (n + 1) { s with pending := x :: rest } = State.run n t := by
  have hs : step { s with pending := x :: rest } = .next t :=
    (step_pending (s := { s with pending := x :: rest }) hf hr rfl).trans h
  rw [State.run, State.after, hs]
  rfl

theorem Memory.setRange_nil {m : Memory} (h : m.wf = true) (a : Nat) : m.setRange a [] = m := by
  refine Memory.ext (Memory.wf_setRange h _ _) h fun x => ?_
  rw [Memory.get?_setRange, if_neg (by simp)]

theorem Memory.setRange_cons {m : Memory} (h : m.wf = true) (a : Nat) (b : Byte) (bs : List Byte) :
    (m.setRange a [b]).setRange (a + 1) bs = m.setRange a (b :: bs) := by
  refine Memory.ext (Memory.wf_setRange (Memory.wf_setRange h _ _) _ _) (Memory.wf_setRange h _ _) fun x => ?_
  rw [Memory.get?_setRange, Memory.get?_setRange, Memory.get?_setRange]
  simp only [List.length_cons, List.length_nil, Nat.zero_add]
  by_cases h1 : x = a
  · subst h1
    rw [if_neg (by omega), if_pos (by omega), if_pos (by omega), Nat.sub_self]; rfl
  · by_cases h2 : a + 1 ≤ x ∧ x < a + 1 + bs.length
    · rw [if_pos h2, if_pos (by omega), show x - a = (x - (a + 1)) + 1 by omega, List.getElem?_cons_succ]
    · rw [if_neg h2, if_neg (by omega), if_neg (by omega)]

/-- An aligned write in RAW or ENC_IN. -/
theorem busWrite_mem {a n : Nat} {v : Word} {s : State} (hn : n = 1 ∨ n = 2 ∨ n = 4) (ha : a % n = 0) (h : 0x1000 ≤ a)
    (h' : a + n ≤ 0x3400) : busWrite a n v s = .next { s with mem := s.mem.setRange a (leBytes n v) } := by
  unfold busWrite
  by_cases h2 : a < 0x3000
  · rw [accessRegion_eq hn ha (.inl (by rw [regionOf_raw h h2]; simp)), regionOf_raw h h2]
  · rw [accessRegion_eq hn ha (.inl (by rw [regionOf_encIn (by omega) (by omega)]; simp)),
      regionOf_encIn (by omega) (by omega)]

theorem access_writeByte {a : Nat} (b : Byte) (s : State) (h : 0x1000 ≤ a) (h' : a < 0x3400) :
    access (writeAt a 1 (b.setWidth 32)) s = .next { s with mem := s.mem.setRange a [b] } := by
  show busWrite (BitVec.ofNat 16 a).toNat 1 _ s = _
  rw [BitVec.toNat_ofNat, Nat.mod_eq_of_lt (by omega), busWrite_mem (.inl rfl) (Nat.mod_one _) h (by omega)]
  have : leBytes 1 (b.setWidth 32) = [b] := by
    simp only [leBytes, List.range, List.range.loop, List.map]
    congr 1; ext i hi; simp [show i < 32 by omega, BitVec.getLsbD_eq_getElem hi]
  rw [this]

/-- Byte writes from an address up leave the bytes there, and nothing else changes. -/
theorem run_writeBytes (n : Nat) (rest : List HostAccess) : ∀ (bs : List Byte) (a : Nat) (s : State), s.mem.wf = true →
    s.faulted = none → s.refused = none → 0x1000 ≤ a → a + bs.length ≤ 0x3400 →
    State.run (bs.length + n) { s with pending := writeBytes a bs ++ rest } =
      State.run n { s with mem := s.mem.setRange a bs, pending := rest } := by
  intro bs
  induction bs with
  | nil =>
    intro a s hm _ _ _ _
    rw [Memory.setRange_nil hm]
    simp [writeBytes]
  | cons b bs ih =>
    intro a s hm hf hr h h'
    rw [List.length_cons] at h'
    rw [List.length_cons, show bs.length + 1 + n = bs.length + n + 1 by omega]
    show State.run _ { s with pending := writeAt a 1 (b.setWidth 32) :: (writeBytes (a + 1) bs ++ rest) } = _
    rw [run_step hf hr (access_writeByte b _ h (by omega))]
    have := ih (a + 1) { s with mem := s.mem.setRange a [b] } (Memory.wf_setRange hm _ _) hf hr (by omega) (by omega)
    rw [Memory.setRange_cons hm] at this
    exact this

theorem writeBytes_length (bs : List Byte) (a : Nat) : (writeBytes a bs).length = bs.length := by
  induction bs generalizing a with
  | nil => rfl
  | cons b bs ih => rw [writeBytes, List.length_cons, ih, List.length_cons]

end Sys2Proof.Machine
end

