-- ==== Sys2Proof/Machine/Script.lean ====
section
/-! DEFINITION. The host that drives the block, as the host-script notation of R96 to R98 describes it. Host variables and host
control are the host's, not the block's (R96): they are no part of `State`, and the block sees only the accesses. -/

namespace Sys2Proof.Machine

/-- A value: a number or a host variable t0 to t7 (R96). -/
inductive ScriptVal where
  | num (v : Word)
  | var (k : Fin 8)
deriving DecidableEq, Repr

/-- An address: a number, or a region base plus a host variable (R96). -/
inductive ScriptAddr where
  | at (a : Nat)
  | offset (base : Nat) (k : Fin 8)
deriving DecidableEq, Repr

/-- One statement of a host script (R96). -/
inductive ScriptStmt where
  /-- `sw`, `sh`, `sb`: a write of n bytes. -/
  | store (n : Nat) (a : ScriptAddr) (v : ScriptVal)
  /-- `lw`, `lh`, `lb`: a read of n bytes into a host variable, zero-extended. -/
  | load (n : Nat) (k : Fin 8) (a : ScriptAddr)
  /-- An encoder mnemonic whose slot is a host variable: one `sw CMD, base + (tK << 20)` (R97), base the mnemonic's word for slot 0.
  What the sum is for a variable above 15 is `encVarWord`'s choice (log entry 15). -/
  | encVar (base : Word) (k : Fin 8)
  | label (name : String)
  | li (k : Fin 8) (imm : Word)
  | addi (k j : Fin 8) (imm : Word)
  | andi (k j : Fin 8) (imm : Word)
  | bnez (k : Fin 8) (name : String)
  | beqz (k : Fin 8) (name : String)
  | expect (k : Fin 8) (v : ScriptVal)
deriving DecidableEq, Repr

abbrev Script := List ScriptStmt

/-- How a script stands. -/
inductive ScriptStatus where
  | running
  /-- The script is at its end (R259). -/
  | finished
  /-- An `expect` was false, or a branch named no label: the script stops (R96). -/
  | stopped
  /-- The block is marked faulted or refused: no further step (R246; of a refused block log entry 5). -/
  | halted
deriving DecidableEq, Repr

/-- The host's variables and place, and the block. -/
structure ScriptState where
  vars : Vector Word 8
  place : Nat
  status : ScriptStatus
  block : State
deriving DecidableEq, Repr

/-- A script starts at its first statement with every host variable 0, the block after reset (R96, R259). -/
def ScriptState.start : ScriptState := ⟨Vector.replicate 8 0, 0, .running, State.reset⟩

def ScriptVal.eval (v : ScriptVal) (vars : Vector Word 8) : Word :=
  match v with
  | .num w => w
  | .var k => vars[k]

/-- The address an access is made at. DESIGN CHOICE (log entry 15): a number, or a base plus a variable, above 0xFFFF, of which R96
and R60 do not say what it means, is taken modulo 2^16. -/
def ScriptAddr.eval (a : ScriptAddr) (vars : Vector Word 8) : Addr :=
  match a with
  | .at n => BitVec.ofNat 16 n
  | .offset base k => BitVec.ofNat 16 (base + vars[k].toNat)

/-- The word an encoder mnemonic with a host variable as its slot writes to CMD (R97). DESIGN CHOICE (log entry 15): R97 gives the
word only for a variable that holds 0 to 15; for a larger value the same sum is taken modulo 2^32, so that it carries into
bits [31:24]. -/
def encVarWord (base slot : Word) : Word := base + (slot <<< 20)

/-- The block after one host access, marks included. -/
def State.hostAccess (s : State) (x : HostAccess) : State := State.after { s with pending := [x] }

/-- The statement a branch to a label continues at: the first with that label (log entry 15), none if there is none. -/
def Script.find (p : Script) (name : String) : Option Nat := p.findIdx? fun st => decide (st = .label name)

/-- The host after an access that left the block in `b`. -/
def ScriptState.accessed (h : ScriptState) (vars : Vector Word 8) (b : State) : ScriptState :=
  match b.faulted, b.refused with
  | none, none => { h with vars := vars, place := h.place + 1, block := b }
  | _, _ => { h with status := .halted, block := b }

/-- The host takes a branch. -/
def ScriptState.branch (h : ScriptState) (p : Script) (taken : Bool) (name : String) : ScriptState :=
  if taken = true then
    match Script.find p name with
    | some i => { h with place := i }
    | none => { h with status := .stopped }
  else { h with place := h.place + 1 }

/-- One statement of a running script (R96). -/
def ScriptState.exec (h : ScriptState) (p : Script) (st : ScriptStmt) : ScriptState :=
  match st with
  | .store n a v => h.accessed h.vars (h.block.hostAccess (.write (a.eval h.vars) n (v.eval h.vars)))
  | .load n k a =>
    let b := h.block.hostAccess (.read (a.eval h.vars) n)
    h.accessed (h.vars.set k (b.observed.getLastD 0)) b
  | .encVar base k => h.accessed h.vars (h.block.hostAccess (.write cmdAddr 4 (encVarWord base h.vars[k])))
  | .label _ => { h with place := h.place + 1 }
  | .li k imm => { h with vars := h.vars.set k imm, place := h.place + 1 }
  | .addi k j imm => { h with vars := h.vars.set k (h.vars[j] + imm), place := h.place + 1 }
  | .andi k j imm => { h with vars := h.vars.set k (h.vars[j] &&& imm), place := h.place + 1 }
  | .bnez k name => h.branch p (decide (h.vars[k] ≠ 0)) name
  | .beqz k name => h.branch p (decide (h.vars[k] = 0)) name
  | .expect k v => if h.vars[k] = v.eval h.vars then { h with place := h.place + 1 } else { h with status := .stopped }

/-- One step of a script. -/
def ScriptState.step (p : Script) (h : ScriptState) : ScriptState :=
  match h.status with
  | .running =>
    match p[h.place]? with
    | some st => h.exec p st
    | none => { h with status := .finished }
  | .finished => h
  | .stopped => h
  | .halted => h

/-- At most n steps of a script. -/
def ScriptState.run (p : Script) : Nat → ScriptState → ScriptState
  | 0, h => h
  | n + 1, h => ScriptState.run p n (ScriptState.step p h)

/-! ## Pseudo-instructions (R97, R98) -/

/-- `sw A, v` at a fixed address, v a number. -/
def sw (a : Nat) (v : Word) : ScriptStmt := .store 4 (.at a) (.num v)

/-- A command mnemonic: one `sw CMD, w` with the instruction's word (R97); `cmd w` is `sw 4 w`. DESIGN CHOICE (log
entry 15): a slot above 15 as a number, for which R97 gives no word, is the word `encode` makes of it. -/
def command (i : Instr) : ScriptStmt := sw 0x04 (encode i)

/-- `setcfg ps, oob, ecc, wb` (R98). -/
def setcfg (c : Cfg) : Script := [sw 0x00 (cfgWord c)]

/-- `gfop OP.F a, b` (R98). -/
def gfop (i : Instr) (a b : ScriptVal) : Script := [.store 4 (.at 0x0C) a, .store 4 (.at 0x10) b, command i]

/-- The byte writes of `loadraw` and `loadenc`. -/
def loadBytes (base : Nat) (s : List Byte) : Script :=
  (List.range s.length).map fun k => .store 1 (.at (base + k)) (.num ((s.getD k 0).setWidth 32))

/-- `loadraw s` (R98). -/
def loadraw (s : List Byte) : Script := loadBytes rawBase s ++ [sw 0x18 (BitVec.ofNat 32 s.length)]

/-- `loadenc s` (R98). -/
def loadenc (s : List Byte) : Script := loadBytes encBase s ++ [sw 0x1C (BitVec.ofNat 32 s.length)]

/-- `fillraw n, v` (R98). -/
def fillraw (n : Nat) (v : ScriptVal) : Script :=
  (List.range n).map (fun k => .store 1 (.at (rawBase + k)) v) ++ [sw 0x18 (BitVec.ofNat 32 n)]

/-- `poll`: reads STATUS while BUSY (R98); `name` is the label of this use. -/
def poll (name : String) : Script := [.label name, .load 4 7 (.at 0x08), .andi 7 7 4, .bnez 7 name]

end Sys2Proof.Machine
end

