-- ==== Sys2Proof/Tests/Slice0.lean ====
section
/-! SUPPORT. Tests of the model on values the spec gives (the words of R97, the vectors of 95_test_vectors.md, the examples of
the rules), and a witness for every statement that has hypotheses. -/

namespace Sys2Proof.Tests

open Sys2Proof.Machine Sys2Proof.Gf

/-! ## Well-formedness: SLOT has four bits (R89) -/

theorem test_wf_rsEnc : Instr.wellFormed (.rsEnc 16) = false ∧ Instr.wellFormed (.rsEnc 15) = true := by decide
theorem test_wf_rsSblEnc : Instr.wellFormed (.rsSblEnc 16) = false ∧ Instr.wellFormed (.rsSblEnc 15) = true := by decide
theorem test_wf_bch4Enc : Instr.wellFormed (.bch4Enc 16) = false ∧ Instr.wellFormed (.bch4Enc 15) = true := by decide
theorem test_wf_bch8Enc : Instr.wellFormed (.bch8Enc 16) = false ∧ Instr.wellFormed (.bch8Enc 15) = true := by decide

/-! ## Decoding: the words of R86 to R91, bit by bit: OPCODE, FLD, 00, SLOT, then twenty zeros -/

theorem test_decode_gfMul : decodeWord (0b0001#4 ++ 0b01#2 ++ 0b00#2 ++ 0b0000#4 ++ 0#20) = .ok (.gfMul .bch4) := by rfl
theorem test_decode_gfDiv : decodeWord (0b0010#4 ++ 0b10#2 ++ 0b00#2 ++ 0b0000#4 ++ 0#20) = .ok (.gfDiv .bch8) := by rfl
theorem test_decode_gfPow : decodeWord (0b0011#4 ++ 0b00#2 ++ 0b00#2 ++ 0b0000#4 ++ 0#20) = .ok (.gfPow .rs) := by rfl
theorem test_decode_rsEnc : decodeWord (0b0100#4 ++ 0b00#2 ++ 0b00#2 ++ 0b0011#4 ++ 0#20) = .ok (.rsEnc 3) := by rfl
theorem test_decode_rsSblEnc : decodeWord (0b0101#4 ++ 0b00#2 ++ 0b00#2 ++ 0b1000#4 ++ 0#20) = .ok (.rsSblEnc 8) := by rfl
theorem test_decode_bch4Enc : decodeWord (0b0110#4 ++ 0b00#2 ++ 0b00#2 ++ 0b0001#4 ++ 0#20) = .ok (.bch4Enc 1) := by rfl
theorem test_decode_bch8Enc : decodeWord (0b0111#4 ++ 0b00#2 ++ 0b00#2 ++ 0b1101#4 ++ 0#20) = .ok (.bch8Enc 13) := by rfl
theorem test_decode_segment : decodeWord (0b1000#4 ++ 0b00#2 ++ 0b00#2 ++ 0b0000#4 ++ 0#20) = .ok .segment := by rfl
theorem test_decode_compose : decodeWord (0b1001#4 ++ 0b00#2 ++ 0b00#2 ++ 0b0000#4 ++ 0#20) = .ok .compose := by rfl
theorem test_decode_configure : decodeWord (0b1010#4 ++ 0b00#2 ++ 0b00#2 ++ 0b0000#4 ++ 0#20) = .ok .configure := by rfl
theorem test_decode_program : decodeWord (0b1011#4 ++ 0b00#2 ++ 0b00#2 ++ 0b0000#4 ++ 0#20) = .ok .program := by rfl

/-- The rejected words of V-D, with their sub-causes. -/
theorem test_decode_rejects :
    [0x00000000, 0x00000001, 0xC0000000, 0xF0000000, 0xFFFFFFFF].map decodeWord =
      List.replicate 5 (.error .reservedOpcode) ∧
    [0x10000001, 0x11000000, 0x12000000, 0x10100000, 0x1C100000, 0x44000000, 0x40000001, 0x80100000, 0x80000001,
      0xA1000000].map decodeWord = List.replicate 10 (.error .reservedBits) ∧
    [0x1C000000, 0x2C000000, 0x3C000000].map decodeWord = List.replicate 3 (.error .reservedFieldSelect) := by
  refine ⟨?_, ?_, ?_⟩ <;> rfl

theorem test_decodeTableWord : decodeTableWord 32 0x40300000 = some (.rsEnc 3) ∧ decodeTableWord 32 0xC0000000 = none ∧
    decodeTableWord 32 0x110000000 = some (.gfMul .rs) := by decide

/-! ## Steps -/

/-- The state an outcome answers. -/
def nextState : Host.Outcome State Fault Refusal → Option State
  | .next s => some s
  | .fault _ => none
  | .refused _ => none

/-- The reason an outcome faults. -/
def faultOf : Host.Outcome State Fault Refusal → Option Fault
  | .next _ => none
  | .fault f => some f
  | .refused _ => none

/-- The first step after reset runs the word placed: PROGRAM and SEGMENT are NOT_CONFIGURED there (V-D), a reserved word is
ILLEGAL_COMMAND. -/
theorem test_step_from_reset :
    nextState (step (State.reset.withFetchWord 32 0xB0000000)) = some { State.reset with resp := .notConfigured } ∧
    nextState (step (State.reset.withFetchWord 32 0x80000000)) = some { State.reset with resp := .notConfigured } ∧
    nextState (step (State.reset.withFetchWord 32 0x1C100000)) = some { State.reset with resp := .reservedBits } := by
  decide +kernel

/-- STATUS after them (V-D): 0x050 and 0x240. -/
theorem test_status : statusWord { State.reset with resp := .notConfigured } = 0x050 ∧
    statusWord { State.reset with resp := .reservedBits } = 0x240 ∧
    statusWord { State.reset with resp := .divByZero, phase := .programmed } = 0x132 := by decide

/-! ## The Galois-field commands under EX (V-G0, V-G1, V-G2) -/

/-- Reset with OPA and OPB. -/
def ops (a b : Word) : State := { State.reset with opa := a, opb := b }

theorem test_gfMul : gfMulCommand Params.ex .rs (ops 0x123 0x2AB) = { ops 0x123 0x2AB with res := 0x0DA } ∧
    gfMulCommand Params.ex .bch4 (ops 0x1FFF 0x1FFF) = { ops 0x1FFF 0x1FFF with res := 0x151A } := by decide +kernel
theorem test_gfMul_range : gfMulCommand Params.ex .rs (ops 1 0x400) = { ops 1 0x400 with resp := .operandRange } := by
  decide +kernel
theorem test_gfDiv : gfDivCommand Params.ex .rs (ops 0x123 0x2AB) = { ops 0x123 0x2AB with res := 0x261 } ∧
    gfDivCommand Params.ex .bch8 (ops 0x1234 0x0ABC) = { ops 0x1234 0x0ABC with res := 0x15AC } := by decide +kernel
theorem test_gfDiv_checks : gfDivCommand Params.ex .rs (ops 0x400 0) = { ops 0x400 0 with resp := .operandRange } ∧
    gfDivCommand Params.ex .rs (ops 0 0) = { ops 0 0 with resp := .divByZero } := by decide +kernel
theorem test_gfPow : gfPowCommand Params.ex .rs (ops 0x123 0xFFFFFFFF) = { ops 0x123 0xFFFFFFFF with res := 0x3DD } ∧
    gfPowCommand Params.ex .bch4 (ops 0x1FFF 3) = { ops 0x1FFF 3 with res := 0x114B } := by decide +kernel
theorem test_gfPow_zero : gfPowCommand Params.ex .rs (ops 0 0) = { ops 0 0 with res := 1 } ∧
    gfPowCommand Params.ex .rs (ops 0x400 0) = { ops 0x400 0 with resp := .operandRange } := by decide +kernel

/-! ## The parity functions under EX (V-E1 to V-E3), and the encoders' frame -/

theorem test_rsParity : Params.ex.encode .rs [0x01] = [0xFC, 0x4C, 0xC4, 0x16, 0x4E, 0xA6, 0xCE, 0x84, 0xF9, 0x0B] ∧
    Params.ex.encode .rsSbl [0xFF, 0xFF, 0xFF, 0xFF] = [0x14, 0x66, 0x04, 0x98, 0x89, 0x56, 0xCC, 0xBC, 0x90, 0xF5] := by
  decide +kernel
theorem test_bchParity : Params.ex.encode .bch4 [0x01] = [0x45, 0x23, 0x04, 0x3A, 0xB8, 0x6A, 0xB0] ∧
    Params.ex.encode .bch4 [0x80] = [0x1C, 0xFA, 0xBB, 0xDE, 0xFB, 0x5B, 0x80] ∧
    Params.ex.encode .bch8 [0x01] =
      [0x15, 0xF9, 0x14, 0xE0, 0x7B, 0x0C, 0x13, 0x87, 0x41, 0xC5, 0xC4, 0xFB, 0x23] := by decide +kernel

/-- EX with two codewords, of two bytes and of one: small enough to encode a block in a test. -/
def small (e : Ecc) : Params :=
  { Params.ex with
    geom := fun _ =>
      ⟨2, 2, 1, (Params.ex.geom ⟨.p2048, .o64, e, false⟩).p, fun _ => [], [.data 1, .par 0 2, .fill, .const 7]⟩ }

/-- A Page of scheme e with ENC_IN = 01, ENC_LEN = 1. -/
def smallPage (e : Ecc) : State :=
  { State.reset with phase := .unprogrammed, pagecfg := some ⟨.p2048, .o64, e, false⟩, encLen := 1, mem := [(0x3000, 1)] }

/-- Encoding block 01 in slot 1 stores its parity at 0x3440 and sets PARVALID[1] and PAR_LEN, nothing else. -/
theorem test_rsEnc : nextState (encFrame (small .rs) .rs 1 (smallPage .rs)) =
    some { smallPage .rs with
      parLen := 10, parValid := (Vector.replicate 16 false).set 1 true,
      mem := [(0x3000, 1), (0x3440, 0xFC), (0x3441, 0x4C), (0x3442, 0xC4), (0x3443, 0x16), (0x3444, 0x4E), (0x3445, 0xA6),
        (0x3446, 0xCE), (0x3447, 0x84), (0x3448, 0xF9), (0x3449, 0x0B)] } := by decide +kernel
theorem test_rsSblEnc : nextState (encFrame (small .rsSbl) .rsSbl 0 (smallPage .rsSbl)) =
    some { smallPage .rsSbl with resp := .blockLength } := by decide +kernel
theorem test_bch4Enc : nextState (encFrame (small .bch4) .bch4 1 (smallPage .bch4)) =
    some { smallPage .bch4 with
      parLen := 7, parValid := (Vector.replicate 16 false).set 1 true,
      mem := [(0x3000, 1), (0x3440, 0x45), (0x3441, 0x23), (0x3442, 0x04), (0x3443, 0x3A), (0x3444, 0xB8), (0x3445, 0x6A),
        (0x3446, 0xB0)] } := by decide +kernel
theorem test_bch8Enc : nextState (encFrame (small .bch8) .bch8 2 (smallPage .bch8)) =
    some { smallPage .bch8 with resp := .slotRange } := by decide +kernel

/-- The scheme is checked before the slot and the length (V-E0); an undefined block byte faults. -/
theorem test_encoder_checks : nextState (encFrame (small .rs) .bch4 9 (smallPage .rs)) =
      some { smallPage .rs with resp := .schemeMismatch } ∧
    faultOf (encFrame (small .rs) .rs 1 { smallPage .rs with mem := [] }) = some .undefinedRead := by decide +kernel

/-! ## SEGMENT, COMPOSE, CONFIGURE, PROGRAM under EX -/

/-- A Page that EX's CONFIGURE leaves. -/
def exPage (c : Cfg) : State := latchPage Params.ex c State.reset

/-- V-S1 (R187). -/
theorem test_segment : segmentCommand Params.ex (exPage ⟨.p2048, .o64, .rs, false⟩) =
    { exPage ⟨.p2048, .o64, .rs, false⟩ with
      segCount := 4
      segtab := ((((Vector.replicate 16 ⟨0, 0⟩).set 0 ⟨0, 516⟩).set 1 ⟨516, 516⟩).set 2 ⟨1032, 516⟩).set 3 ⟨1548, 500⟩ } ∧
    (segmentCommand Params.ex (exPage ⟨.p4096, .o256, .bch4, false⟩)).segtab[7] = ⟨3612, 484⟩ := by decide +kernel

/-- R196: each source gives its byte; and V-C1 (R206): EX's layout of (2048, 64, RS) at the ends of its pieces. -/
theorem test_compose_layout :
    ((small .rs).geom ⟨.p2048, .o64, .rs, false⟩).compose [0x11, 0x22] [[0x33, 0x44, 0x55]] = [0x22, 0x55, 0xFF, 0x07] ∧
    [515, 516, 525, 526, 2077, 2078, 2087, 2088, 2111, 2112].map
      (fun p => (Params.ex.geom ⟨.p2048, .o64, .rs, false⟩).layout[p]?) =
    [some (.data 515), some (.par 0 0), some (.par 0 9), some (.data 516), some (.data 2047), some (.par 3 0),
      some (.par 3 9), some .fill, some .fill, none] := by decide +kernel

/-- V-K: CFG = 0x1A constructs a Page with its geometry. -/
theorem test_configure : nextState (configureCommand Params.ex { State.reset with cfg := 0x1A }) =
    some { State.reset with
      cfg := 0x1A, phase := .unprogrammed, pagecfg := some ⟨.p2048, .o128, .bch8, false⟩,
      geomN := 4, geomD := 516, geomDL := 500, geomP := 13, pageCfgReg := 0x1A } := by decide +kernel

/-- V-K: the answers in their order: 0x36 is RESERVED_OOB_SELECT although WB = 1, 0x20 is refused, 0x01 is unsupported. -/
theorem test_configure_checks :
    nextState (configureCommand Params.ex { State.reset with cfg := 0x36 }) =
      some { State.reset with cfg := 0x36, resp := .reservedOobSelect } ∧
    nextState (configureCommand Params.ex { State.reset with cfg := 0x20 }) = none ∧
    nextState (configureCommand Params.ex { State.reset with cfg := 0x01 }) =
      some { State.reset with cfg := 0x01, resp := .unsupportedTuple } := by decide +kernel

/-- R224: RAW_LEN = 2047 is INVALID_INPUT_ERROR although no RAW byte is defined; DATA is discarded. -/
theorem test_program_length : nextState (programCommand Params.ex
      { exPage ⟨.p2048, .o64, .rs, false⟩ with rawLen := 2047, phase := .programmed, dataLen := 2112, mem := [(0x4000, 9)] }) =
    some { exPage ⟨.p2048, .o64, .rs, false⟩ with rawLen := 2047, resp := .invalidInput } := by decide +kernel

/-- R223: with the length right, an undefined RAW byte faults. -/
theorem test_program_undefined :
    faultOf (programCommand Params.ex { exPage ⟨.p2048, .o64, .rs, false⟩ with rawLen := 2048 }) = some .undefinedRead := by
  decide +kernel

/-- R203: COMPOSE with a slot not valid is PARITY_MISSING. -/
theorem test_compose_parity : nextState (composeCommand Params.ex
      { exPage ⟨.p2048, .o64, .rs, false⟩ with rawLen := 2048, parValid := (Vector.replicate 16 true).set 3 false }) =
    some { exPage ⟨.p2048, .o64, .rs, false⟩ with
      rawLen := 2048, parValid := (Vector.replicate 16 true).set 3 false, resp := .parityMissing } := by decide +kernel

/-! ## Host accesses -/

/-- A little-endian word written to RAW, and its bytes read back (R62, R66). -/
theorem test_raw_write : nextState (access (writeAt 0x1004 4 0x11223344) State.reset) =
      some { State.reset with mem := [(0x1004, 0x44), (0x1005, 0x33), (0x1006, 0x22), (0x1007, 0x11)] } ∧
    (nextState (access (.read 0x1006 2)
      { State.reset with mem := [(0x1004, 0x44), (0x1005, 0x33), (0x1006, 0x22), (0x1007, 0x11)] })).map State.observed =
      some [0x1122] := by decide +kernel

/-- BUS_ERROR: misaligned, narrow on a register, unmapped, another width (R63, R64); UNDEFINED_READ of an unwritten byte. -/
theorem test_access_faults :
    [HostAccess.read 0x1001 2, .write 0x0C 1 0, .read 0x40 4, .read 0x3880 1, .read 0x6000 1, .read 0x1000 8,
      .read 0x1000 1, .read 0x4000 1, .read 0x3400 1].map (fun x => faultOf (access x State.reset)) =
      List.replicate 6 (some .busError) ++ List.replicate 3 (some .undefinedRead) := by decide +kernel

/-- R36: CFG = 0xFFFFFFFF reads back 0x3F; a write to RES is ignored (R41). -/
theorem test_registers : nextState (access (writeAt 0x00 4 0xFFFFFFFF) State.reset) = some { State.reset with cfg := 0x3F } ∧
    nextState (access (writeAt 0x14 4 5) State.reset) = some State.reset := by decide +kernel

/-- R68: SEGTAB reads zero past SEG_COUNT; entry 1's LEN is at 0x380C. -/
theorem test_segtab :
    let s := segmentCommand Params.ex (exPage ⟨.p2048, .o64, .rs, false⟩)
    (nextState (access (.read 0x380C 4) s)).map State.observed = some [516] ∧
    (nextState (access (.read 0x3820 4) s)).map State.observed = some [0] := by decide +kernel

/-! ## A host script (R96 to R98) -/

/-- `gfop`, then STATUS read and expected: OPERAND_RANGE in every field of R88 for a value no field has. -/
theorem test_script : (ScriptState.run (gfop (.gfMul .rs) (.num 0xFFFFFFFF) (.num 1) ++ [.load 4 0 (.at 0x08), .expect 0 (.num 0x640)]) 20
    (ScriptState.start)).status = .finished := by
  decide +kernel

/-- R97: `rs.enc tK` with tK = 15, and `bch8.enc tK` with tK = 0. -/
theorem test_encVarWord : encVarWord 0x40000000 15 = 0x40F00000 ∧ encVarWord 0x70000000 0 = 0x70000000 := by decide

/-! ## States for the witnesses -/

/-- The configuration (2048, 64, RS, false). -/
def c0 : Cfg := ⟨.p2048, .o64, .rs, false⟩

theorem c0_supported : Config.params.supported c0 = true := Config.params_wf.five _ (by decide)
theorem c0_geom : (Config.params.geom c0).WF c0 := Config.params_wf.geom _ c0_supported

/-- Reset with OPA = 3 and OPB = 5. -/
def base : State := { State.reset with opa := 3, opb := 5 }

/-- base, with CONFIGURE's Page for c0. -/
def page : State := latchPage Config.params c0 base

/-- n zero bytes. -/
def zeros (n : Nat) : List Byte := List.replicate n 0

theorem zeros_length (n : Nat) : (zeros n).length = n := List.length_replicate

theorem zeros_getElem? {n k : Nat} (h : k < n) : (zeros n)[k]? = some 0 := by simp [zeros, h]

/-- A Page with RAW and ENC_IN all zero, RAW_LEN the page size and ENC_LEN codeword i's block length. -/
def fullPage (i : Nat) : State :=
  { page with
    mem := (page.mem.setRange rawBase (zeros 2048)).setRange encBase (zeros 1024)
    rawLen := 2048
    encLen := BitVec.ofNat 32 ((Config.params.geom c0).blockLen i) }

/-- The Page with every codeword's parity in its slot. -/
def parityPage : State := storeAll Config.params c0 (zeros 2048) (List.range (Config.params.geom c0).n) (fullPage 0)

/-- The Page with DATA composed. -/
def dataPage : State := storeData (zeros 2112) parityPage

theorem base_inv : base.Inv := by
  constructor
  · decide
  · decide
  · decide
  · simp [base, State.reset]
  · simp [base, State.reset]
  · exact ⟨rfl, rfl, rfl, rfl, rfl⟩
  · rfl
  · intro k _; simp [base, State.reset, Memory.get?]
  · intro i hi; simp [base, State.reset, State.slotValid, Vector.getElem?_replicate] at hi
    revert hi; split <;> simp
  · intro i k _ _
    have : base.slotValid i = false := by
      simp only [base, State.reset, State.slotValid, Vector.getElem?_replicate]; split <;> rfl
    simp [this]; rfl
  · exact .inl rfl
  · exact .inl ⟨rfl, rfl⟩
  · exact ⟨.rs, by decide⟩

theorem page_inv : page.Inv := inv_latchPage base_inv (c := c0) (by decide) c0_supported

theorem fullPage_inv (i : Nat) : (fullPage i).Inv :=
  inv_congr (inv_write (inv_write page_inv (zeros 2048) (a := rawBase) (by decide) (by rw [zeros_length]; decide)) (zeros 1024)
    (a := encBase) (by decide) (by rw [zeros_length]; decide)) rfl page_inv.cfg_legal rfl rfl ⟨rfl, rfl, rfl, rfl, rfl⟩ rfl rfl rfl ⟨rfl, rfl⟩
    page_inv.res_elem

theorem parityPage_inv : parityPage.Inv := inv_storeAll (fullPage_inv 0) rfl _ _ (le_refl _)

theorem parityPage_fields : parityPage.phase = .unprogrammed ∧ parityPage.pagecfg = some c0 ∧ parityPage.rawLen = 2048 := by
  unfold parityPage; rw [storeAll_fields]; exact ⟨rfl, rfl, rfl⟩

theorem dataPage_inv : dataPage.Inv := inv_storeData parityPage_inv parityPage_fields.2.1 (zeros_length _)

theorem fullPage_raw (i k : Nat) (hk : k < 2048) : (fullPage i).mem.get? (rawBase + k) = some 0 := by
  simp only [fullPage]
  rw [Memory.get?_setRange_of_lt (by unfold rawBase encBase; omega), Memory.get?_setRange, if_pos]
  · rw [show rawBase + k - rawBase = k by omega, zeros_getElem? hk]
  · rw [zeros_length]; omega

theorem fullPage_enc (i k : Nat) (hk : k < 1024) : (fullPage i).mem.get? (encBase + k) = some 0 := by
  simp only [fullPage]
  rw [Memory.get?_setRange, if_pos]
  · rw [show encBase + k - encBase = k by omega, zeros_getElem? hk]
  · rw [zeros_length]; omega

theorem fullPage_zeros (i k : Nat) (hk : k < 2048) : (fullPage i).mem.get? (rawBase + k) = (zeros 2048)[k]? := by
  rw [fullPage_raw i k hk, zeros_getElem? hk]

theorem fullPage_encLen {i : Nat} (hi : i < (Config.params.geom c0).n) :
    (fullPage i).encLen.toNat = (Config.params.geom c0).blockLen i := by
  have := c0_geom.block_le i hi
  simp only [fullPage, BitVec.toNat_ofNat]; unfold encCap at this; omega

theorem fullPage_slot (i j : Nat) : (fullPage i).slotValid j = false := by
  simp only [fullPage, page, latchPage, clearPage, State.slotValid, Vector.getElem?_replicate]; split <;> rfl

theorem parityPage_raw (k : Nat) (hk : k < 2048) : parityPage.mem.get? (rawBase + k) = some 0 := by
  unfold parityPage
  rw [storeAll_get?_other Config.params_wf c0_supported _ _ _, fullPage_raw 0 k hk]
  intro i k' _ _; unfold slotBase parBase rawBase parCap; omega

theorem parityPage_slot {i : Nat} (hi : i < (Config.params.geom c0).n) : parityPage.slotValid i = true := by
  have := c0_geom.n_le
  unfold slots at this
  exact (storeAll_slotValid _ _ _ _ _ _).mpr (.inl ⟨hi, by omega⟩)

theorem parityPage_par {i k : Nat} (hi : i < (Config.params.geom c0).n) (hk : k < (Config.params.geom c0).p) :
    (parityPage.mem.get? (slotBase i + k)).isSome = true := by
  have h1 := c0_geom.n_le
  have h2 := c0_geom.p_le
  refine (parityPage_inv.par_defined i k (by omega) (by omega)).mpr ⟨parityPage_slot hi, ?_⟩
  rw [State.parityLen, parityPage_fields.2.1]; exact hk

theorem n_pos : 0 < (Config.params.geom c0).n := c0_geom.n_pos
theorem p_pos : 0 < (Config.params.geom c0).p := c0_geom.p_pos
theorem size_rs : (Config.params.field .rs).size = 1024 := rfl

/-! ## Witnesses: a concrete state and operands that meet a statement's hypotheses, clause by clause, at the ends of ranges -/

theorem witness_DecodeReadsEncodedInstruction :
    Instr.wellFormed (.rsEnc 15) = true ∧ Instr.wellFormed (.bch8Enc 0) = true ∧ Instr.wellFormed .program = true := by decide

theorem witness_DecodedWordIsItsEncoding :
    decodeWord 0x40F00000 = .ok (.rsEnc 15) ∧ decodeWord 0x18000000 = .ok (.gfMul .bch8) := ⟨rfl, rfl⟩

/-- The three clauses: opcodes 0x0 and 0xC; a set bit 25, a set bit 0, SLOT in format G and P, FLD in format E and P; FLD = 3. -/
theorem witness_RejectedWordsAreIllegalCommands :
    (base.faulted = none ∧ base.refused = none ∧
      (withCommand base 0xC0000000).pending = .write cmdAddr 4 0xC0000000 :: base.pending) ∧
    ((0x00000001#32).toNat / 2 ^ 28 = 0 ∧ 12 ≤ (0xC0000000#32).toNat / 2 ^ 28) ∧
    (∀ w ∈ [0x12000000#32, 0xB0000001#32], 1 ≤ w.toNat / 2 ^ 28 ∧ w.toNat / 2 ^ 28 ≤ 11 ∧
      (w.toNat / 2 ^ 24 % 4 ≠ 0 ∨ w.toNat % 2 ^ 20 ≠ 0)) ∧
    ((0x3F100000#32).toNat / 2 ^ 28 ≤ 3 ∧ (0x3F100000#32).toNat / 2 ^ 20 % 16 ≠ 0) ∧
    (∀ w ∈ [0x44000000#32, 0x7C000000#32], 4 ≤ w.toNat / 2 ^ 28 ∧ w.toNat / 2 ^ 28 ≤ 7 ∧ w.toNat / 2 ^ 26 % 4 ≠ 0) ∧
    (∀ w ∈ [0x84000000#32, 0xB0100000#32], 8 ≤ w.toNat / 2 ^ 28 ∧
      (w.toNat / 2 ^ 26 % 4 ≠ 0 ∨ w.toNat / 2 ^ 20 % 16 ≠ 0)) ∧
    (∀ w ∈ [0x1C000000#32, 0x3C000000#32], 1 ≤ w.toNat / 2 ^ 28 ∧ w.toNat / 2 ^ 28 ≤ 3 ∧ w.toNat / 2 ^ 24 % 4 = 0 ∧
      w.toNat % 2 ^ 20 = 0 ∧ w.toNat / 2 ^ 20 % 16 = 0 ∧ w.toNat / 2 ^ 26 % 4 = 3) :=
  ⟨⟨rfl, rfl, rfl⟩, by decide, by simp, by decide, by simp, by simp, by simp⟩

theorem witness_StepRunsDecodedCommand : base.faulted = none ∧ base.refused = none ∧
    (withCommand base 0x40F00000).pending = .write cmdAddr 4 0x40F00000 :: base.pending ∧
    decodeWord 0x40F00000 = .ok (.rsEnc 15) := ⟨rfl, rfl, rfl, rfl⟩

theorem witness_StepPerformsOldestHostAccess :
    ({ base with pending := [.read 0x08 4, .read 0x0C 4] } : State).pending = .read 0x08 4 :: [.read 0x0C 4] ∧
    base.faulted = none ∧ base.refused = none ∧ base.pending = [] := ⟨rfl, rfl, rfl, rfl⟩

theorem witness_MarkedStateIsStuck :
    step { base with pending := [.read 0x40 4] } = .fault .busError ∧
    step { base with cfg := 0x20, pending := [issueAt .configure] } = .refused .widebusUnmodelled := ⟨rfl, rfl⟩

theorem witness_StatusShowsPhaseAndResponse : access (.write 0x0C 4 7) base = .next { base with opa := 7 } ∧
    ∀ n v, HostAccess.write 0x0C 4 7 ≠ .write cmdAddr n v := by
  refine ⟨rfl, fun n v h => ?_⟩
  injection h with h1
  exact absurd h1 (by decide)

theorem witness_OnlyCommandsChangeStatus :
    step { base with pending := [.write 0x0C 4 7] } = .next { base with opa := 7 } ∧
    ∀ n v, HostAccess.write 0x0C 4 7 ≠ .write cmdAddr n v := by
  refine ⟨rfl, fun n v h => ?_⟩
  injection h with h1
  exact absurd h1 (by decide)

theorem witness_GfCommandsChangeOnlyResAndStatus : Instr.gfDiv .bch8 = .gfMul .bch8 ∨ Instr.gfDiv .bch8 = .gfDiv .bch8 ∨
    Instr.gfDiv .bch8 = .gfPow .bch8 := .inr (.inl rfl)

/-- The operands at both sides of 2^10 in F_RS, and one that is out of range in every field. -/
theorem witness_GfOperandsAreRangeChecked :
    (Config.params.field .rs).size ≤ (0x400#32).toNat ∧ (0x3FF#32).toNat < (Config.params.field .rs).size ∧
    ∀ fld, (Config.params.field fld).size ≤ (0x4000#32).toNat ∧ (1#32).toNat < (Config.params.field fld).size :=
  ⟨by decide, by decide, fun fld =>
    ⟨Config.params_wf.field_size_le fld, (Config.params_wf.primitive fld).size_pos⟩⟩

theorem witness_GfMulWritesFieldProduct :
    (Config.params.field .rs).size ≤ (0x400#32).toNat ∧ (0x3FF#32).toNat < (Config.params.field .rs).size ∧
    base.opa = 3 ∧ base.opb = 5 := by decide

theorem witness_GfMulIsAFieldMultiplication : (0x3FF#32).toNat < (Config.params.field .rs).size ∧
    (0x200#32).toNat < (Config.params.field .rs).size ∧ (0#32).toNat < (Config.params.field .rs).size := by decide

theorem witness_GfMulIsTheLogTableForm : 0 < 0x3FF ∧ 0x3FF < (Config.params.field .rs).size ∧
    1022 < (Config.params.field .rs).size - 1 ∧ 0 < (Config.params.field .rs).size - 1 := by decide

theorem witness_GfDivWritesUniqueQuotient :
    (Config.params.field .rs).size ≤ (0x400#32).toNat ∧ (0x3FF#32).toNat < (Config.params.field .rs).size ∧
    (1#32).toNat < (Config.params.field .rs).size ∧ (1#32) ≠ 0 ∧
    ({ base with opa := 0xF, opb := 5 } : State).opa = 0xF ∧ ({ base with opa := 0xF, opb := 5 } : State).opb = 5 := by decide

theorem witness_GfDivCornerCases : (0#32).toNat < (Config.params.field .rs).size ∧
    (0x3FF#32).toNat < (Config.params.field .rs).size ∧ (0x3FF#32) ≠ 0 ∧ 1022 < (Config.params.field .rs).size - 1 := by decide

theorem witness_GfDivAndMulUndoEachOther : base.opa.toNat < (Config.params.field .rs).size ∧
    base.opb.toNat < (Config.params.field .rs).size ∧ base.opb ≠ 0 := by decide

theorem witness_GfPowMultipliesExponentTimes :
    (Config.params.field .rs).size ≤ (0x400#32).toNat ∧ (0x3FF#32).toNat < (Config.params.field .rs).size ∧
    ({ base with opb := 2 } : State).opa = 3 ∧ ({ base with opb := 2 } : State).opb = 2 := by decide

theorem witness_GfPowCornerCases : (0x3FF#32).toNat < (Config.params.field .rs).size ∧ (0x3FF#32) ≠ 0 ∧
    (0xFFFFFFFF#32) ≠ 0 ∧ 1022 < (Config.params.field .rs).size - 1 := by decide

theorem witness_ResIsWrittenOnlyByGfCommands :
    exec (.gfMul .rs) { base with opa := 0x400 } = .next { base with opa := 0x400, resp := .operandRange } ∧
    access (.write cmdAddr 4 0) base = .next { base with resp := .reservedOpcode } ∧
    ∀ n w i, decodeWord w = .ok i → HostAccess.write cmdAddr 4 0 ≠ .write cmdAddr n w := by
  refine ⟨rfl, rfl, fun n w i hw h => ?_⟩
  injection h with _ _ h3
  rw [← h3] at hw
  cases hw

/-- NO_PAGE; then a Page: another scheme, slot N and slot 16, a wrong length, an undefined block byte, and a block of zeros in
slots 0 and N − 1. -/
theorem witness_EncoderCommandFollowsTheFrame :
    base.phase = .noPage ∧
    ((fullPage 0).phase ≠ .noPage ∧ (fullPage 0).pagecfg = some c0 ∧ Config.params.supported c0 = true) ∧
    c0.ecc ≠ .rsSbl ∧ (c0.ecc = .rs ∧ (Config.params.geom c0).n ≤ 16) ∧
    (0 < (Config.params.geom c0).n ∧
      ({ fullPage 0 with encLen := 0xFFFFFFFF } : State).encLen.toNat ≠ (Config.params.geom c0).blockLen 0) ∧
    (0 < (Config.params.geom c0).blockLen 0 ∧ ({ fullPage 0 with mem := [] } : State).mem.get? (encBase + 0) = none) ∧
    ∀ i, i < (Config.params.geom c0).n → (fullPage i).encLen.toNat = (Config.params.geom c0).blockLen i ∧
      (zeros ((Config.params.geom c0).blockLen i)).length = (Config.params.geom c0).blockLen i ∧
      ∀ k, k < (zeros ((Config.params.geom c0).blockLen i)).length →
        (fullPage i).mem.get? (encBase + k) = (zeros ((Config.params.geom c0).blockLen i))[k]? := by
  have hb := fun i hi => c0_geom.block_le i hi
  unfold encCap at hb
  refine ⟨rfl, ⟨by decide, rfl, c0_supported⟩, by decide, ⟨rfl, c0_geom.n_le⟩, ⟨n_pos, ?_⟩, ⟨?_, rfl⟩, fun i hi =>
    ⟨fullPage_encLen hi, zeros_length _, fun k hk => ?_⟩⟩
  · have := hb 0 n_pos
    show (0xFFFFFFFF#32).toNat ≠ _
    rw [show (0xFFFFFFFF#32).toNat = 4294967295 from rfl]; omega
  · have := c0_geom.dsz_pos 0
    unfold Geom.blockLen; omega
  · rw [zeros_length] at hk
    have := hb i hi
    rw [fullPage_enc i k (by omega), zeros_getElem? hk]

theorem witness_RsCodewordIsMultipleOfGenerator : Params.ex.WF := Params.ex_wf

theorem witness_RsParityIsLinear : Params.ex.WF ∧ [0x01#8, 0xFF#8].length = [0x80#8, 0x00#8].length := ⟨Params.ex_wf, rfl⟩

theorem witness_BchParityIsLinearAndSystematic : Params.ex.WF ∧ [0x01#8].length = [0x80#8].length ∧
    ∀ L, Params.ex.unpackBCH L = Params.msbMap (8 * L) (8 * L) := ⟨Params.ex_wf, rfl, fun _ => rfl⟩

theorem witness_SegmentWritesTheSegmentation : base.phase = .noPage ∧ page.phase ≠ .noPage ∧ page.pagecfg = some c0 ∧
    Config.params.supported c0 = true := ⟨rfl, by decide, rfl, c0_supported⟩

theorem segment_page : exec .segment page = .next (respond .ok (storeSegments (Config.params.geom c0) page)) := by
  simp only [exec, execSegment, segmentCommand_eq Config.params_wf (s := page) (c := c0) rfl c0_supported]

theorem witness_SegmentTablePartitionsThePage : page.phase ≠ .noPage ∧ page.pagecfg = some c0 ∧
    Config.params.supported c0 = true ∧
    exec .segment page = .next (respond .ok (storeSegments (Config.params.geom c0) page)) :=
  ⟨by decide, rfl, c0_supported, segment_page⟩

theorem witness_SegmentIsIdempotent :
    exec .segment base = .next { base with resp := .notConfigured } ∧
    exec .segment page = .next (respond .ok (storeSegments (Config.params.geom c0) page)) := ⟨rfl, segment_page⟩

/-- NO_PAGE; RAW_LEN one less and one more than the page; a slot without parity; an undefined RAW byte; all present. -/
theorem witness_ComposeWritesTheLayout :
    base.phase = .noPage ∧
    (parityPage.phase ≠ .noPage ∧ parityPage.pagecfg = some c0 ∧ Config.params.supported c0 = true) ∧
    ((2047#32).toNat ≠ c0.page ∧ (2049#32).toNat ≠ c0.page) ∧
    ((fullPage 0).rawLen.toNat = c0.page ∧ 0 < (Config.params.geom c0).n ∧ (fullPage 0).slotValid 0 = false) ∧
    parityPage.rawLen.toNat = c0.page ∧ (∀ i, i < (Config.params.geom c0).n → parityPage.slotValid i = true) ∧
    (2047 < c0.page ∧ ({ parityPage with mem := [] } : State).mem.get? (rawBase + 2047) = none) ∧
    (∀ k, k < c0.page → (parityPage.mem.get? (rawBase + k)).isSome = true) ∧
    ∀ i k, i < (Config.params.geom c0).n → k < (Config.params.geom c0).p →
      (parityPage.mem.get? (slotBase i + k)).isSome = true := by
  obtain ⟨h1, h2, h3⟩ := parityPage_fields
  exact ⟨rfl, ⟨by rw [h1]; decide, h2, c0_supported⟩, by decide, ⟨rfl, n_pos, fullPage_slot 0 0⟩, by rw [h3]; rfl,
    fun _ hi => parityPage_slot hi, ⟨by decide, rfl⟩, fun k hk => by rw [parityPage_raw k hk]; rfl,
    fun _ _ hi hk => parityPage_par hi hk⟩

/-- The reserved selection, the refusal, and an 8-bit bus; whether a configuration beyond the five is supported is open, so the
unsupported case is shown for EX. -/
theorem witness_ConfigureConstructsThePage :
    (0x36#32).toNat / 2 % 4 = 3 ∧ ((0x20#32).toNat / 2 % 4 ≠ 3 ∧ (0x20#32).toNat / 32 % 2 = 1) ∧
    ((0x00#32).toNat / 2 % 4 ≠ 3 ∧ (0x00#32).toNat / 32 % 2 = 0) ∧ Config.params.supported c0 = true ∧
    Params.ex.supported ⟨.p2048, .o128, .rs, false⟩ = false ∧
    exec .configure { base with cfg := 0x36 } =
      .next { base with cfg := 0x36, resp := .reservedOobSelect } := by
  exact ⟨by decide, by decide, by decide, c0_supported, by decide, rfl⟩

theorem witness_FiveTuplesConstructAPage : c0 ∈ Cfg.five ∧ (⟨.p4096, .o256, .bch4, false⟩ : Cfg) ∈ Cfg.five ∧
    base.cfg = cfgWord c0 ∧ c0.widebus = false := by decide

theorem witness_WidebusConfigureIsRefused :
    let s : State := { base with cfg := 0x20, pending := [issueAt .configure] }
    s.faulted = none ∧ s.refused = none ∧ s.pending = issueAt .configure :: [] ∧ s.cfg.getLsbD 5 = true ∧
    ¬ (s.cfg.getLsbD 1 = true ∧ s.cfg.getLsbD 2 = true) := by decide

theorem witness_FailedConfigureStaysFailed :
    exec .configure { base with cfg := 6 } = .next { base with cfg := 6, resp := .reservedOobSelect } ∧
    ({ base with cfg := 6, resp := .reservedOobSelect } : State).resp ≠ .ok ∧
    ({ page with cfg := 6 } : State).cfg = ({ base with cfg := 6 } : State).cfg := ⟨rfl, by decide, rfl⟩

theorem configure_base : exec .configure base = .next (respond .ok page) := by
  have h : cfgRequest base.cfg = some c0 := by decide
  simp only [exec, execConfigure, configureCommand, h, constructPage, c0_supported, if_true]; rfl

theorem witness_CfgActsOnlyAtConfigure : Instr.segment ≠ .configure ∧
    exec .segment page = .next (respond .ok (storeSegments (Config.params.geom c0) page)) ∧
    exec .configure base = .next (respond .ok page) ∧ access (.read 0x3C 4) base = .next { base with observed := [0] } ∧
    ∀ n w i, decodeWord w = .ok i → HostAccess.read 0x3C 4 ≠ .write cmdAddr n w :=
  ⟨by decide, segment_page, configure_base, rfl, by intro n w i _ h; cases h⟩

/-- NO_PAGE; RAW_LEN one less and one more than the page; an undefined RAW byte; the whole page image. -/
theorem witness_ProgramEncodesThePage :
    base.phase = .noPage ∧
    ((fullPage 0).phase ≠ .noPage ∧ (fullPage 0).pagecfg = some c0 ∧ Config.params.supported c0 = true) ∧
    ((2047#32).toNat ≠ c0.page ∧ (2049#32).toNat ≠ c0.page) ∧
    (2047 < c0.page ∧ ({ fullPage 0 with mem := [] } : State).mem.get? (rawBase + 2047) = none) ∧
    (fullPage 0).rawLen.toNat = c0.page ∧ (zeros 2048).length = c0.page ∧
    ∀ k, k < c0.page → (fullPage 0).mem.get? (rawBase + k) = (zeros 2048)[k]? :=
  ⟨rfl, ⟨by decide, rfl, c0_supported⟩, by decide, ⟨by decide, rfl⟩, rfl, zeros_length _, fun k hk => fullPage_zeros 0 k hk⟩

theorem witness_ProgramRejectsWrongLength : (fullPage 0).phase ≠ .noPage ∧ (fullPage 0).pagecfg = some c0 ∧
    ({ fullPage 0 with rawLen := 2047 } : State).rawLen.toNat + 1 = c0.page ∧
    ({ fullPage 0 with rawLen := 2049 } : State).rawLen.toNat = c0.page + 1 := ⟨by decide, rfl, rfl, rfl⟩

theorem program_short : exec .program { fullPage 0 with rawLen := 2047 } =
    .next (respond .invalidInput (invalidate { fullPage 0 with rawLen := 2047 })) := rfl

theorem witness_FailedProgramKeepsThePage : (fullPage 0).phase ≠ .noPage ∧ (fullPage 0).pagecfg = some c0 ∧
    Config.params.supported c0 = true ∧
    exec .program { fullPage 0 with rawLen := 2047 } =
      .next (respond .invalidInput (invalidate { fullPage 0 with rawLen := 2047 })) ∧
    (respond .invalidInput (invalidate { fullPage 0 with rawLen := 2047 })).resp ≠ .ok ∧
    ∀ k, k < c0.page → ((fullPage 0).mem.get? (rawBase + k)).isSome = true :=
  ⟨by decide, rfl, c0_supported, program_short, by decide, fun k hk => by rw [fullPage_raw 0 k hk]; rfl⟩

/-- Two different states, an empty ENC_IN and PARBUF against full ones. -/
theorem witness_ProgramDependsOnPageAndRawOnly : (fullPage 0).phase ≠ .noPage ∧ parityPage.phase ≠ .noPage ∧
    (fullPage 0).pagecfg = some c0 ∧ parityPage.pagecfg = some c0 ∧ Config.params.supported c0 = true ∧
    (fullPage 0).rawLen.toNat = c0.page ∧ parityPage.rawLen.toNat = c0.page ∧
    (∀ k, k < c0.page → ((fullPage 0).mem.get? (rawBase + k)).isSome = true) ∧
    (∀ k, k < c0.page → parityPage.mem.get? (rawBase + k) = (fullPage 0).mem.get? (rawBase + k)) ∧ fullPage 0 ≠ parityPage := by
  obtain ⟨h1, h2, h3⟩ := parityPage_fields
  refine ⟨by decide, by rw [h1]; decide, rfl, h2, c0_supported, rfl, by rw [h3]; rfl,
    fun k hk => by rw [fullPage_raw 0 k hk]; rfl, fun k hk => by rw [fullPage_raw 0 k hk, parityPage_raw k hk], fun h => ?_⟩
  have := parityPage_slot n_pos
  rw [← h, fullPage_slot] at this
  exact absurd this (by decide)

/-- The last byte of RAW outside codeword 0 may differ: the two states agree on codeword 0's slice. -/
theorem witness_ParityDependsOnItsCodewordOnly : (fullPage 0).phase ≠ .noPage ∧ parityPage.phase ≠ .noPage ∧
    (fullPage 0).pagecfg = some c0 ∧ parityPage.pagecfg = some c0 ∧ Config.params.supported c0 = true ∧
    0 < (Config.params.geom c0).n ∧ (fullPage 0).rawLen.toNat = c0.page ∧ parityPage.rawLen.toNat = c0.page ∧
    (∀ k, k < c0.page → ((fullPage 0).mem.get? (rawBase + k)).isSome = true) ∧
    (∀ k, k < c0.page → (parityPage.mem.get? (rawBase + k)).isSome = true) ∧
    ∀ k, (Config.params.geom c0).off 0 ≤ k → k < (Config.params.geom c0).off 0 + (Config.params.geom c0).dsz 0 →
      parityPage.mem.get? (rawBase + k) = (fullPage 0).mem.get? (rawBase + k) := by
  obtain ⟨h1, h2, h3⟩ := parityPage_fields
  refine ⟨by decide, by rw [h1]; decide, rfl, h2, c0_supported, n_pos, rfl, by rw [h3]; rfl,
    fun k hk => by rw [fullPage_raw 0 k hk]; rfl, fun k hk => by rw [parityPage_raw k hk]; rfl, fun k _ hk => ?_⟩
  have := c0_geom.off_add_dsz_le_page n_pos
  have hp : c0.page = 2048 := rfl
  rw [fullPage_raw 0 k (by omega), parityPage_raw k (by omega)]

theorem witness_ProgramEqualsTheStagedSequence : (fullPage 0).Inv ∧ (fullPage 0).good ∧ (fullPage 0).phase ≠ .noPage ∧
    (fullPage 0).pagecfg = some c0 ∧ (fullPage 0).rawLen.toNat = c0.page ∧ (zeros 2048).length = c0.page ∧
    ∀ k, k < c0.page → (fullPage 0).mem.get? (rawBase + k) = (zeros 2048)[k]? :=
  ⟨fullPage_inv 0, ⟨rfl, rfl⟩, by decide, rfl, rfl, zeros_length _, fun k hk => fullPage_zeros 0 k hk⟩

theorem witness_ZeroPageHasZeroParity : Params.ex.WF ∧ Params.ex.supported c0 = true ∧
    (∀ i, i < (Params.ex.geom c0).n → ∀ b ∈ (Params.ex.geom c0).encpad i, b = 0) ∧ (fullPage 0).phase ≠ .noPage ∧
    (fullPage 0).pagecfg = some c0 ∧ (fullPage 0).rawLen.toNat = c0.page ∧
    ∀ k, k < c0.page → (fullPage 0).mem.get? (rawBase + k) = some 0 :=
  ⟨Params.ex_wf, by decide, fun i _ b hb => absurd hb (List.not_mem_nil (a := b)), by decide, rfl, rfl,
    fun k hk => fullPage_raw 0 k hk⟩

theorem witness_BootOrderProgramsThePage : c0 ∈ Cfg.five ∧ (zeros 2048).length = c0.page := ⟨by decide, zeros_length _⟩

/-- Every kind of illegal access, at the ends of the gaps; a legal one at the end of each region. -/
theorem witness_BusErrorsAreExactlyTheIllegalAccesses :
    [(0x1000, 8), (0x1001, 2), (0x3C, 2), (0x40, 4), (0xFFF, 1), (0x3880, 4), (0x3FFF, 1), (0x6000, 1), (0xFFFC, 4)].map
      (fun x => faultOf (access (.read (BitVec.ofNat 16 x.1) x.2) base)) = List.replicate 9 (some .busError) ∧
    [(0x3C, 4), (0x1000, 1), (0x33FC, 4), (0x3400, 4), (0x387C, 4), (0x4000, 4), (0x5FFF, 1)].map
      (fun x => faultOf (access (.write (BitVec.ofNat 16 x.1) x.2 0) base)) = List.replicate 7 none := by decide +kernel

theorem witness_BufferWriteThenRead : ((0x1000#16).toNat % 4 = 0 ∧ 0x1000 ≤ (0x1000#16).toNat) ∧
    ((0x33FF#16).toNat % 1 = 0 ∧ (0x33FF#16).toNat < 0x3400) ∧ (2 < 4 ∧ base.mem.get? (0x1000 + 2) = none) ∧
    [0x22#8, 0x11#8].length = 2 ∧ ∀ k, k < 2 → ({ base with mem := [(0x1002, 0x22), (0x1003, 0x11)] } : State).mem.get?
      ((0x1002#16).toNat + k) = [0x22#8, 0x11#8][k]? := by
  refine ⟨by decide, by decide, ⟨by decide, rfl⟩, rfl, fun k hk => ?_⟩
  interval_cases k <;> rfl

/-- A valid slot's first and last byte; an invalid slot; a byte past P (the whole slot, when there is no Page). -/
theorem witness_ParbufReadsValidParityOnly : parityPage.Inv ∧ (fullPage 0).Inv ∧ base.Inv ∧ parityPage.slotValid 0 = true ∧
    0 < parityPage.parityLen Config.params ∧
    parityPage.parityLen Config.params - 1 < parityPage.parityLen Config.params ∧
    parityPage.parityLen Config.params - 1 < 64 ∧ (fullPage 0).slotValid 15 = false ∧
    base.parityLen Config.params < 60 + 4 ∧ 60 % 4 = 0 := by
  have h : parityPage.parityLen Config.params = (Config.params.geom c0).p := by
    rw [State.parityLen, parityPage_fields.2.1]
  have h1 := p_pos
  have h2 := c0_geom.p_le
  unfold parCap at h2
  rw [h]
  exact ⟨parityPage_inv, fullPage_inv 0, base_inv, parityPage_slot n_pos, h1, by omega, by omega, fullPage_slot 0 15,
    by decide, by decide⟩

/-- An entry below SEG_COUNT, and one past it. -/
theorem witness_SegtabReadsLittleEndianEntries :
    (0 : Fin 16).val < (storeSegments (Params.ex.geom c0) base).segCount.toNat ∧
    ¬ (15 : Fin 16).val < (storeSegments (Params.ex.geom c0) base).segCount.toNat ∧ 0 < 4 ∧ 0 % 4 = 0 ∧ 3 < 4 ∧
    3 % 1 = 0 ∧ 2 < 4 ∧ 2 % 2 = 0 := by decide +kernel

/-- The first and the last byte of DATA; the byte past DATA_LEN; a phase that is not PROGRAMMED. -/
theorem witness_DataIsReadableOnlyWhenProgrammed : dataPage.Inv ∧ dataPage.phase = .programmed ∧
    dataPage.dataLen.toNat = 2112 ∧ 0 < dataPage.dataLen.toNat ∧ 2111 < dataPage.dataLen.toNat ∧
    dataPage.dataLen.toNat ≤ 2112 ∧ (fullPage 0).Inv ∧ (fullPage 0).phase ≠ .programmed ∧ 8188 < 8192 ∧ 8188 % 4 = 0 := by
  have h : dataPage.dataLen.toNat = 2112 := by
    show (BitVec.ofNat 32 (zeros 2112).length).toNat = 2112
    rw [zeros_length]; rfl
  rw [h]
  exact ⟨dataPage_inv, rfl, rfl, by decide, by decide, le_refl _, fullPage_inv 0, by decide, by decide, by decide⟩

/-- Bytes that hold a value, at the start of RAW; a byte that holds none, at the end of DATA. -/
theorem witness_WideAccessIsItsByteAccesses :
    0x1000 % 4 = 0 ∧ [0x44#8, 0x33#8, 0x22#8, 0x11#8].length = 4 ∧
    [0, 1, 2, 3].map (fun k => (nextState (access (.read (BitVec.ofNat 16 (0x1000 + k)) 1)
      { base with mem := [(0x1000, 0x44), (0x1001, 0x33), (0x1002, 0x22), (0x1003, 0x11)] })).map State.observed) =
      [some [0x44], some [0x33], some [0x22], some [0x11]] ∧
    0x5FFE % 2 = 0 ∧ 0x5FFE < 0x6000 ∧ access (.read (BitVec.ofNat 16 (0x5FFE + 1)) 1) base = .fault .undefinedRead := by
  exact ⟨by decide, rfl, by decide +kernel, by decide, by decide, rfl⟩

theorem witness_OnlyCmdWritesHaveSideEffects :
    access (.read 0x0C 4) base = .next { base with observed := base.observed ++ [3] } ∧ base.Inv ∧ (0x0C : Addr) ≠ cmdAddr ∧
    access (.write 0x00 4 9) base = .next { base with cfg := 9 } ∧
    access (.write 0x0C 4 9) base = .next { base with opa := 9 } ∧
    access (.write 0x10 4 9) base = .next { base with opb := 9 } ∧
    access (.write 0x18 4 9) base = .next { base with rawLen := 9 } ∧
    access (.write 0x1C 4 9) base = .next { base with encLen := 9 } ∧
    access (.write 0x1000 1 9) base = .next { base with mem := [(0x1000, 9)] } ∧
    access (.write 0x33FF 1 9) base = .next { base with mem := [(0x33FF, 9)] } ∧
    access (.write 0x3C 4 9) base = .next base ∧ access (.write 0x3400 1 9) base = .next base ∧
    access (.write 0x5FFF 1 9) base = .next base := by
  exact ⟨rfl, base_inv, by decide, rfl, rfl, rfl, rfl, rfl, rfl, rfl, rfl, rfl, rfl⟩

/-- A supported configuration of each BCH scheme with a codeword, and a width that covers every block: 14. -/
theorem witness_FldSelectsTheSchemesField :
    0x3C000000#32 ∈ [0x1C000000#32, 0x2C000000#32, 0x3C000000#32] ∧
    Config.params.supported ⟨.p4096, .o256, .bch4, false⟩ = true ∧
    0 < (Config.params.geom ⟨.p4096, .o256, .bch4, false⟩).n ∧
    Config.params.supported ⟨.p2048, .o128, .bch8, false⟩ = true ∧
    0 < (Config.params.geom ⟨.p2048, .o128, .bch8, false⟩).n ∧
    ∀ (c : Cfg) (i : Nat), Config.params.supported c = true → i < (Config.params.geom c).n →
      8 * (Config.params.geom c).blockLen i + deg Config.params.gBCH8 ≤ 2 ^ 14 - 1 := by
  have h4 := Config.params_wf.five ⟨.p4096, .o256, .bch4, false⟩ (by decide)
  have h8 := Config.params_wf.five ⟨.p2048, .o128, .bch8, false⟩ (by decide)
  refine ⟨by decide, h4, (Config.params_wf.geom _ h4).n_pos, h8, (Config.params_wf.geom _ h8).n_pos, fun c i hc hi => ?_⟩
  have h1 := (Config.params_wf.geom c hc).block_le i hi
  have h2 := Config.params_wf.deg_bch_le.2
  unfold encCap at h1
  omega

/-- The invariant in each phase, with a step that is a command. -/
theorem witness_StepKeepsTheInvariant : base.Inv ∧ page.Inv ∧ dataPage.Inv ∧ (withCommand base 0x80000000).Inv ∧
    step (withCommand base 0x80000000) = .next { base with resp := .notConfigured } :=
  ⟨base_inv, page_inv, dataPage_inv,
    inv_congr base_inv rfl base_inv.cfg_legal rfl rfl ⟨rfl, rfl, rfl, rfl, rfl⟩ rfl rfl rfl ⟨rfl, rfl⟩ base_inv.res_elem, rfl⟩

/-- A word that is no command; a write that is no command; success and failure of CONFIGURE; COMPOSE and PROGRAM with no Page and with a wrong length; a GF command. -/
theorem witness_PhaseChangesAreThoseOfTheTable : base.Inv ∧ exec .configure base = .next (respond .ok page) ∧
    exec .compose base = .next { base with resp := .notConfigured } ∧ (fullPage 0).Inv ∧
    exec .program (fullPage 0) = .next (programPage Config.params c0 (zeros 2048) (fullPage 0)) ∧
    exec (.gfMul .rs) { base with opa := 0x400 } = .next { base with opa := 0x400, resp := .operandRange } ∧
    exec .configure { base with cfg := 6 } = .next { base with cfg := 6, resp := .reservedOobSelect } ∧
    decodeWord 0 = .error .reservedOpcode ∧
    access (.write cmdAddr 4 0) base = .next { base with resp := .reservedOpcode } ∧
    access (.read 0x08 4) base = .next { base with observed := [0] } ∧ ∀ n v, HostAccess.read 0x08 4 ≠ .write cmdAddr n v := by
  refine ⟨base_inv, configure_base, rfl, fullPage_inv 0, ?_, rfl, rfl, rfl, rfl, rfl, by intro n v h; cases h⟩
  have h : rawPage c0 (fullPage 0) = some (zeros 2048) :=
    Memory.getRange_eq_some.mpr ⟨zeros_length _, fun k hk => fullPage_zeros 0 k hk⟩
  simp only [exec, execProgram, programCommand, show (fullPage 0).page? = some c0 from rfl, h]
  exact if_neg (not_not.mpr (show (fullPage 0).rawLen.toNat = c0.page from rfl))

theorem witness_InternalErrorsCannotOccur : base.Inv ∧ exec .compose base = .next { base with resp := .notConfigured } ∧
    exec .program base = .next { base with resp := .notConfigured } := ⟨base_inv, rfl, rfl⟩

theorem witness_FailedCommandFailsAgain : base.Inv ∧ exec .compose base = .next { base with resp := .notConfigured } ∧
    ({ base with resp := .notConfigured } : State).resp ≠ .ok := ⟨base_inv, rfl, by decide⟩

theorem witness_ErrorResponsesArePrecise : exec .segment base = .next { base with resp := .notConfigured } ∧
    ({ base with resp := .notConfigured } : State).resp ≠ .ok ∧ Instr.segment ≠ .configure ∧ Instr.segment ≠ .compose ∧
    Instr.segment ≠ .program := ⟨rfl, by decide⟩

end Sys2Proof.Tests
end

section
/-! SUPPORT. The registers as the host sees them, and who writes RES and STATUS: register accesses by register (R65), the frame of
every command and of every access that is no command, and that no command looks at the response of the one before (R38). -/

namespace Sys2Proof.Machine

open Gf

/-! ## The state after reset (R55) -/

theorem readReg_reset (r : Reg) : readReg r State.reset = 0 := by cases r <;> rfl

theorem slotValid_reset (i : Nat) : State.reset.slotValid i = false := clearPage_slotValid State.reset i

/-! ## STATUS (R38) -/

theorem toNat_append_eq_add {n m : Nat} (x : BitVec n) (y : BitVec m) :
    (x ++ y).toNat = 2 ^ m * x.toNat + y.toNat := by
  rw [BitVec.toNat_append, ← Nat.shiftLeft_add_eq_or_of_lt y.isLt, Nat.shiftLeft_eq, Nat.mul_comm]

theorem statusWord_toNat (s : State) :
    (statusWord s).toNat = s.phase.code.toNat + 16 * s.resp.err.toNat + 256 * s.resp.sub.toNat := by
  simp only [statusWord, busyBit, toNat_append_eq_add, BitVec.ofNat_eq_ofNat, BitVec.toNat_ofNat]
  omega

/-! ## Register accesses (R65) -/

theorem regAt_bounds {a : Nat} {r : Reg} (h : regAt a = some r) : a < 0x40 ∧ a % 4 = 0 := by
  unfold regAt at h
  split at h <;> simp_all

theorem access_readReg {a : Addr} {r : Reg} (h : regAt a.toNat = some r) (s : State) :
    access (.read a 4) s = .next { s with observed := s.observed ++ [readReg r s] } := by
  obtain ⟨hlt, halign⟩ := regAt_bounds h
  rw [access_read, busRead_reg h hlt halign]

theorem busWrite_reg {a : Nat} {r : Reg} (h : regAt a = some r) (hr : r ≠ .cmd) (v : Word) (s : State) :
    busWrite a 4 v s = .next (writeReg r v s) := by
  obtain ⟨hlt, halign⟩ := regAt_bounds h
  have hregion : accessRegion a 4 = some .regs := by
    rw [accessRegion_eq (.inr (.inr rfl)) halign (.inr rfl), regionOf_regs hlt]
  simp only [busWrite, hregion, h]

theorem access_writeReg {a : Nat} {r : Reg} (h : regAt a = some r) (hr : r ≠ .cmd) (v : Word) (s : State) :
    access (writeAt a 4 v) s = .next (writeReg r v s) := by
  have ha : (BitVec.ofNat 16 a).toNat = a := by
    have := (regAt_bounds h).1
    rw [BitVec.toNat_ofNat, Nat.mod_eq_of_lt (by omega)]
  rw [writeAt, access, ha, busWrite_reg h hr]

/-! ## What an access can change -/

/-- A write to CMD that answers a next state issues the word: any other width is a BUS_ERROR (R63). -/
theorem issue_of_access_cmd {n : Nat} {w : Word} {s t : State} (h : access (.write cmdAddr n w) s = .next t) :
    issue w s = .next t := by
  have h : busWrite 4 n w s = .next t := h
  rcases busWrite_cases 4 n w s with ⟨-, e⟩ | ⟨-, -, e⟩ | ⟨r, hr, hne, -⟩ | ⟨-, -, hlow, -⟩ | ⟨-, -, hlow, -⟩
  · rw [e] at h; cases h
  · rw [← e, h]
  · exact absurd (Option.some.inj hr).symm hne
  · omega
  · omega

/-- What an access that is no command can change: the five writable registers, RAW and ENC_IN, and the values read. -/
theorem access_fields_of_not_cmd {x : HostAccess} {s t : State} (hx : ∀ n v, x ≠ .write cmdAddr n v)
    (h : access x s = .next t) :
    t = { s with
      cfg := t.cfg, opa := t.opa, opb := t.opb, rawLen := t.rawLen, encLen := t.encLen, mem := t.mem,
      observed := t.observed } := by
  cases x with
  | read a n =>
    rw [access_read] at h
    split at h
    · cases h; rfl
    · cases h
  | write a n v =>
    have ha : a.toNat ≠ 4 := fun e => hx n v (by rw [show a = cmdAddr from BitVec.eq_of_toNat_eq e])
    rw [busWrite_next ha h]

/-! ## What a command can change -/

theorem encStore_fields {P : Params} {e : Ecc} {g : Geom} {i : Nat} {blk : List Byte} {s t : State}
    (h : encStore P e g i blk s = t) :
    t = { s with resp := t.resp, parLen := t.parLen, parValid := t.parValid, mem := t.mem } := by
  subst h
  unfold encStore
  split <;> rfl

theorem encFrame_fields {P : Params} {e : Ecc} {i : Nat} {s t : State} (h : encFrame P e i s = .next t) :
    t = { s with resp := t.resp, parLen := t.parLen, parValid := t.parValid, mem := t.mem } := by
  rcases encFrame_cases P e i s with ⟨-, o⟩ | ⟨c, -, ⟨-, o⟩ | ⟨-, -, o⟩ | ⟨-, -, -, o⟩ | ⟨-, -, -, -, o⟩ | ⟨-, -, -, blk, -, o⟩⟩ <;>
    rw [o] at h <;> cases h
  · rfl
  · rfl
  · rfl
  · rfl
  · exact encStore_fields rfl

theorem finishPage_fields {c : Cfg} {out : List Byte} {s t : State} (h : finishPage c out s = t) :
    t = { s with resp := t.resp, phase := t.phase, dataLen := t.dataLen, mem := t.mem } := by
  subst h
  unfold finishPage
  split <;> rfl

theorem composeCommand_fields {P : Params} {s t : State} (h : composeCommand P s = .next t) :
    t = { s with resp := t.resp, phase := t.phase, dataLen := t.dataLen, mem := t.mem } := by
  rcases composeCommand_cases P s with ⟨-, o⟩ | ⟨c, -, ⟨-, o⟩ | ⟨-, -, o⟩ | ⟨-, -, -, o⟩ | ⟨-, -, raw, par, -, -, o⟩⟩ <;>
    rw [o] at h <;> cases h
  · rfl
  · rfl
  · rfl
  · exact finishPage_fields rfl

theorem segmentCommand_fields {P : Params} {s t : State} (h : segmentCommand P s = t) :
    t = { s with resp := t.resp, segtab := t.segtab, segCount := t.segCount } := by
  subst h
  unfold segmentCommand
  split
  · rfl
  · split <;> rfl

theorem configureCommand_fields {P : Params} {s t : State} (h : configureCommand P s = .next t) :
    t = { clearPage s with
      resp := t.resp, phase := t.phase, pagecfg := t.pagecfg, geomN := t.geomN, geomD := t.geomD, geomDL := t.geomDL,
      geomP := t.geomP, pageCfgReg := t.pageCfgReg } := by
  rcases configureCommand_cases P s with ⟨-, o⟩ | ⟨c, -, ⟨-, o⟩ | ⟨-, -, o⟩ | ⟨-, -, o⟩⟩ <;>
    rw [o] at h <;> cases h <;> rfl

theorem programCommand_fields {P : Params} {s t : State} (h : programCommand P s = .next t) :
    t = { s with
      resp := t.resp, phase := t.phase, dataLen := t.dataLen, segtab := t.segtab, segCount := t.segCount,
      parLen := t.parLen, parValid := t.parValid, mem := t.mem } := by
  rcases programCommand_cases P s with ⟨-, o⟩ | ⟨c, -, ⟨-, o⟩ | ⟨-, -, o⟩ | ⟨-, raw, -, o⟩⟩ <;> rw [o] at h <;> cases h
  · rfl
  · rfl
  · exact (programPage_fields P c raw s _ rfl).1

/-! ## RES (R41) -/

/-- What a Galois-field command leaves in RES: its old value, or on success an element of the field. -/
def ResKeptOrElement (fld : Fld) (s t : State) : Prop :=
  t.res = s.res ∨ t.resp = .ok ∧ t.res.toNat < (Config.params.field fld).size

theorem resKeptOrElement_gfResult {fld : Fld} {v : Nat} (hv : v < (Config.params.field fld).size) (s : State) :
    ResKeptOrElement fld s (gfResult v s) :=
  .inr ⟨rfl, (Nat.mod_le v (2 ^ 32)).trans_lt hv⟩

theorem resKeptOrElement_gfMulCommand (fld : Fld) (s : State) :
    ResKeptOrElement fld s (gfMulCommand Config.params fld s) := by
  rcases gfMulCommand_cases Config.params fld s with ⟨o, -⟩ | ⟨o, -⟩ <;> rw [o]
  · exact .inl rfl
  · exact resKeptOrElement_gfResult (gfMul_lt (Config.params_wf.primitive fld) _ _) s

theorem resKeptOrElement_gfDivCommand (fld : Fld) (s : State) :
    ResKeptOrElement fld s (gfDivCommand Config.params fld s) := by
  rcases gfDivCommand_cases Config.params fld s with ⟨o, -⟩ | ⟨o, -⟩ | ⟨o, -⟩ <;> rw [o]
  · exact .inl rfl
  · exact .inl rfl
  · exact resKeptOrElement_gfResult (gfDiv_lt (Config.params_wf.primitive fld) _ _) s

theorem resKeptOrElement_gfPowCommand (fld : Fld) (s : State) :
    ResKeptOrElement fld s (gfPowCommand Config.params fld s) := by
  rcases gfPowCommand_cases Config.params fld s with ⟨o, -⟩ | ⟨o, -⟩ <;> rw [o]
  · exact .inl rfl
  · exact resKeptOrElement_gfResult (gfPow_lt (Config.params_wf.primitive fld) _ _) s

/-- A command keeps RES, or is a Galois-field command that succeeded and left an element of its field there. -/
theorem exec_res {i : Instr} {s t : State} (h : exec i s = .next t) :
    t.res = s.res ∨ t.resp = .ok ∧ ∃ fld, (i = .gfMul fld ∨ i = .gfDiv fld ∨ i = .gfPow fld) ∧
      t.res.toNat < (Config.params.field fld).size := by
  cases i with
  | gfMul fld =>
    cases h
    exact (resKeptOrElement_gfMulCommand fld s).imp_right fun ⟨hok, hlt⟩ => ⟨hok, fld, .inl rfl, hlt⟩
  | gfDiv fld =>
    cases h
    exact (resKeptOrElement_gfDivCommand fld s).imp_right fun ⟨hok, hlt⟩ => ⟨hok, fld, .inr (.inl rfl), hlt⟩
  | gfPow fld =>
    cases h
    exact (resKeptOrElement_gfPowCommand fld s).imp_right fun ⟨hok, hlt⟩ => ⟨hok, fld, .inr (.inr rfl), hlt⟩
  | rsEnc slot => exact .inl (by rw [encFrame_fields h])
  | rsSblEnc slot => exact .inl (by rw [encFrame_fields h])
  | bch4Enc slot => exact .inl (by rw [encFrame_fields h])
  | bch8Enc slot => exact .inl (by rw [encFrame_fields h])
  | segment => exact .inl (by rw [segmentCommand_fields (Host.Outcome.next.inj h)])
  | compose => exact .inl (by rw [composeCommand_fields h])
  | configure => exact .inl (by rw [configureCommand_fields h]; rfl)
  | program => exact .inl (by rw [programCommand_fields h])

/-- An access that issues no legal command word keeps RES. -/
theorem access_res_of_not_command {x : HostAccess} {s t : State}
    (hx : ∀ n w i, decodeWord w = .ok i → x ≠ .write cmdAddr n w) (h : access x s = .next t) : t.res = s.res := by
  by_cases hc : ∀ n v, x ≠ .write cmdAddr n v
  · rw [access_fields_of_not_cmd hc h]
  push Not at hc
  obtain ⟨n, w, rfl⟩ := hc
  have hissue := issue_of_access_cmd h
  cases hd : decodeWord w with
  | ok i => exact absurd rfl (hx n w i hd)
  | error e =>
    rw [issue_error hd] at hissue
    cases hissue
    rfl

/-! ## The response of the command before (R38)

`respond` goes past every operation of the commands, and what a command answers last replaces it. -/

section ResponseOverwritten

variable (r : Response) (s : State)

theorem storeSegments_respond (g : Geom) : storeSegments g (respond r s) = respond r (storeSegments g s) := rfl

theorem storeParity_respond (i : Nat) (q : List Byte) : storeParity i q (respond r s) = respond r (storeParity i q s) := rfl

theorem gfMulCommand_respond (P : Params) (fld : Fld) : gfMulCommand P fld (respond r s) = gfMulCommand P fld s := rfl

theorem gfDivCommand_respond (P : Params) (fld : Fld) : gfDivCommand P fld (respond r s) = gfDivCommand P fld s := rfl

theorem gfPowCommand_respond (P : Params) (fld : Fld) : gfPowCommand P fld (respond r s) = gfPowCommand P fld s := rfl

theorem encFrame_respond (P : Params) (e : Ecc) (i : Nat) : encFrame P e i (respond r s) = encFrame P e i s := rfl

theorem segmentCommand_respond (P : Params) : segmentCommand P (respond r s) = segmentCommand P s := rfl

theorem configureCommand_respond (P : Params) : configureCommand P (respond r s) = configureCommand P s := rfl

theorem slotParities_respond (p n : Nat) : slotParities p (respond r s) n = slotParities p s n := by
  induction n with
  | zero => rfl
  | succ n ih => rw [slotParities, slotParities, ih]; rfl

theorem composeCommand_respond (P : Params) : composeCommand P (respond r s) = composeCommand P s := by
  unfold composeCommand
  simp only [slotParities_respond]
  rfl

/-- PROGRAM's loop takes the old response along to its end, and replaces it where it stops. -/
theorem encodeSlots_respond (P : Params) (c : Cfg) (raw : List Byte) (is : List Nat) :
    encodeSlots P c raw is (respond r s) = (encodeSlots P c raw is s).map (respond r) := by
  induction is generalizing s with
  | nil => rfl
  | cons i is ih =>
    unfold encodeSlots
    split
    · rfl
    split
    · rfl
    · rw [storeParity_respond, ih]

theorem programPage_respond (P : Params) (c : Cfg) (raw : List Byte) :
    programPage P c raw (respond r s) = programPage P c raw s := by
  unfold programPage
  rw [storeSegments_respond, encodeSlots_respond]
  cases encodeSlots P c raw (List.range (P.geom c).n) (storeSegments (P.geom c) s) <;> rfl

theorem programCommand_respond (P : Params) : programCommand P (respond r s) = programCommand P s := by
  unfold programCommand
  simp only [programPage_respond]
  rfl

theorem exec_respond (i : Instr) : exec i (respond r s) = exec i s := by
  cases i with
  | gfMul fld => exact congrArg Host.Outcome.next (gfMulCommand_respond r s _ fld)
  | gfDiv fld => exact congrArg Host.Outcome.next (gfDivCommand_respond r s _ fld)
  | gfPow fld => exact congrArg Host.Outcome.next (gfPowCommand_respond r s _ fld)
  | rsEnc slot => exact encFrame_respond r s _ _ slot
  | rsSblEnc slot => exact encFrame_respond r s _ _ slot
  | bch4Enc slot => exact encFrame_respond r s _ _ slot
  | bch8Enc slot => exact encFrame_respond r s _ _ slot
  | segment => exact congrArg Host.Outcome.next (segmentCommand_respond r s _)
  | compose => exact composeCommand_respond r s _
  | configure => exact configureCommand_respond r s _
  | program => exact programCommand_respond r s _

theorem issue_respond (w : Word) : issue w (respond r s) = issue w s := by
  unfold issue
  split
  · exact exec_respond r s _
  · rfl

end ResponseOverwritten

end Sys2Proof.Machine

open Sys2Proof Sys2Proof.Machine

/-- Settles O8: `readReg_reset` and `slotValid_reset`; the other fields are literals of `State.reset`. -/
theorem resetLeavesNoPage : Obligations.ResetLeavesNoPage :=
  ⟨readReg_reset, rfl, rfl, fun _ => rfl, slotValid_reset, fun _ => Vector.getElem_replicate .., rfl, rfl⟩

/-- Settles O9: STATUS by the bits of its fields, the register accesses by register, the overwriting by `issue_respond`, the rest
by the frame of an access that is no command. -/
theorem statusShowsPhaseAndResponse : Obligations.StatusShowsPhaseAndResponse := by
  unfold Obligations.StatusShowsPhaseAndResponse
  refine ⟨rfl, readReg_reset .status, statusWord_toNat, access_readReg (r := .status) rfl,
    fun s v => access_writeReg (r := .status) rfl (by decide) v s, rfl, rfl, fun w s r => issue_respond r s w, ?_⟩
  intro x s t hx h
  rw [access_fields_of_not_cmd hx h]

/-- Settles O21: the register accesses by register, then `exec_res` and `access_res_of_not_command`. -/
theorem resIsWrittenOnlyByGfCommands : Obligations.ResIsWrittenOnlyByGfCommands := by
  unfold Obligations.ResIsWrittenOnlyByGfCommands
  refine ⟨rfl, rfl, rfl, fun s v => ⟨?_, ?_, ?_, ?_, ?_, ?_⟩, fun i s t h => exec_res h,
    fun x s t hx h => access_res_of_not_command hx h⟩
  · exact access_writeReg (r := .opa) rfl (by decide) v s
  · exact access_writeReg (r := .opb) rfl (by decide) v s
  · exact access_writeReg (r := .res) rfl (by decide) v s
  · exact access_readReg (r := .opa) rfl s
  · exact access_readReg (r := .opb) rfl s
  · exact access_readReg (r := .res) rfl s

end

section
/-! SUPPORT. Host accesses by address: which answer BUS_ERROR (R63, R64), what each register's offset reads and writes (R65), and
what the bytes of each buffer read as and a write to it leaves (R66 to R71). -/

namespace Sys2Proof.Machine

/-! ## Addresses -/

theorem toNat_addr {a : Nat} (h : a < 0x10000) : (BitVec.ofNat 16 a).toNat = a := by
  rw [BitVec.toNat_ofNat, Nat.mod_eq_of_lt h]

/-- An aligned access that starts below a multiple of 4 ends below it. -/
theorem aligned_add_le {a n b : Nat} (hn : n = 1 ∨ n = 2 ∨ n = 4) (ha : a % n = 0) (hb : b % 4 = 0) (h : a < b) :
    a + n ≤ b := by
  rcases hn with rfl | rfl | rfl <;> omega

theorem aligned_add {a n j : Nat} (hn : n = 1 ∨ n = 2 ∨ n = 4) (ha : a % 4 = 0) (hj : j % n = 0) : (a + j) % n = 0 := by
  rcases hn with rfl | rfl | rfl <;> omega

/-! ## BUS_ERROR (R63, R64) -/

theorem next_ne_fault {s : State} {f : Fault} : (.next s : Host.Outcome State Fault Refusal) ≠ .fault f := by simp

theorem encFrame_ne_busError (P : Params) (e : Ecc) (i : Nat) (s : State) : encFrame P e i s ≠ .fault .busError := by
  rcases encFrame_cases P e i s with
    ⟨-, o⟩ | ⟨c, -, ⟨-, o⟩ | ⟨-, -, o⟩ | ⟨-, -, -, o⟩ | ⟨-, -, -, -, o⟩ | ⟨-, -, -, blk, -, o⟩⟩ <;>
    rw [o] <;> simp

theorem composeCommand_ne_busError (P : Params) (s : State) : composeCommand P s ≠ .fault .busError := by
  rcases composeCommand_cases P s with
    ⟨-, o⟩ | ⟨c, -, ⟨-, o⟩ | ⟨-, -, o⟩ | ⟨-, -, -, o⟩ | ⟨-, -, raw, par, -, -, o⟩⟩ <;> rw [o] <;> simp

theorem configureCommand_ne_busError (P : Params) (s : State) : configureCommand P s ≠ .fault .busError := by
  rcases configureCommand_cases P s with ⟨-, o⟩ | ⟨c, -, ⟨-, o⟩ | ⟨-, -, o⟩ | ⟨-, -, o⟩⟩ <;> rw [o] <;> simp

theorem programCommand_ne_busError (P : Params) (s : State) : programCommand P s ≠ .fault .busError := by
  rcases programCommand_cases P s with ⟨-, o⟩ | ⟨c, -, ⟨-, o⟩ | ⟨-, -, o⟩ | ⟨-, raw, -, o⟩⟩ <;> rw [o] <;> simp

/-- No command faults with BUS_ERROR: its only fault is UNDEFINED_READ. -/
theorem exec_ne_busError (i : Instr) (s : State) : exec i s ≠ .fault .busError := by
  cases i with
  | gfMul fld => exact next_ne_fault
  | gfDiv fld => exact next_ne_fault
  | gfPow fld => exact next_ne_fault
  | rsEnc slot => exact encFrame_ne_busError _ _ slot s
  | rsSblEnc slot => exact encFrame_ne_busError _ _ slot s
  | bch4Enc slot => exact encFrame_ne_busError _ _ slot s
  | bch8Enc slot => exact encFrame_ne_busError _ _ slot s
  | segment => exact next_ne_fault
  | compose => exact composeCommand_ne_busError _ s
  | configure => exact configureCommand_ne_busError _ s
  | program => exact programCommand_ne_busError _ s

theorem issue_ne_busError (w : Word) (s : State) : issue w s ≠ .fault .busError := by
  cases hd : decodeWord w with
  | ok i => rw [issue_ok hd]; exact exec_ne_busError i s
  | error e => rw [issue_error hd]; exact next_ne_fault

/-- A read that reaches a region gives a value or UNDEFINED_READ. -/
theorem busRead_eq_busError_iff {P : Params} {a n : Nat} {s : State} :
    busRead P a n s = .error .busError ↔ accessRegion a n = none := by
  refine ⟨fun h => ?_, busRead_none⟩
  cases hr : accessRegion a n with
  | none => rfl
  | some r =>
    obtain ⟨-, halign, hregion, hwidth⟩ := accessRegion_eq_some hr
    by_cases hregs : r = .regs
    · subst hregs
      obtain rfl := hwidth rfl
      obtain ⟨q, hq⟩ := regAt_isSome (regionOf_lt_regs hregion) halign
      rw [busRead_reg hq (regionOf_lt_regs hregion) halign] at h
      cases h
    · rw [busRead_buffer hr hregs] at h
      cases hb : readBytes P s a n <;> rw [hb] at h <;> cases h

theorem access_read_eq_busError_iff {a : Addr} {n : Nat} {s : State} :
    access (.read a n) s = .fault .busError ↔ accessRegion a.toNat n = none := by
  rw [access_read, ← busRead_eq_busError_iff (P := Config.params) (s := s)]
  cases busRead Config.params a.toNat n s <;> simp

theorem access_write_eq_busError_iff {a : Addr} {n : Nat} {v : Word} {s : State} :
    access (.write a n v) s = .fault .busError ↔ accessRegion a.toNat n = none := by
  show busWrite a.toNat n v s = .fault .busError ↔ _
  refine ⟨fun h => ?_, fun h => by simp only [busWrite, h]⟩
  rcases busWrite_cases a.toNat n v s with ⟨hnone, -⟩ | ⟨-, -, e⟩ | ⟨r, -, -, -, -, e⟩ | ⟨-, -, -, -, e⟩ | ⟨-, -, -, e⟩
  · exact hnone
  · exact absurd (e.symm.trans h) (issue_ne_busError v s)
  all_goals rw [e] at h; cases h

/-! ## Registers by offset (R35, R65) -/

/-- The offset of a register. -/
def regOffset : Reg → Nat
  | .cfg => 0x00
  | .cmd => 0x04
  | .status => 0x08
  | .opa => 0x0C
  | .opb => 0x10
  | .res => 0x14
  | .rawLen => 0x18
  | .encLen => 0x1C
  | .parLen => 0x20
  | .segCount => 0x24
  | .dataLen => 0x28
  | .geomN => 0x2C
  | .geomD => 0x30
  | .geomDL => 0x34
  | .geomP => 0x38
  | .pageCfg => 0x3C

/-- The registers that ignore a write. -/
def readOnlyRegs : List Reg :=
  [.status, .res, .parLen, .segCount, .dataLen, .geomN, .geomD, .geomDL, .geomP, .pageCfg]

/-- Every register, in the order of the offsets. -/
def allRegs : List Reg :=
  [.cfg, .cmd, .status, .opa, .opb, .res, .rawLen, .encLen, .parLen, .segCount, .dataLen, .geomN, .geomD, .geomDL, .geomP,
    .pageCfg]

theorem regAt_regOffset (r : Reg) : regAt (regOffset r) = some r := by cases r <;> rfl

theorem regOffset_of_regAt {a : Nat} {r : Reg} (h : regAt a = some r) : regOffset r = a := by
  unfold regAt at h
  split at h <;> cases h <;> rfl

theorem regAt_addr_regOffset (r : Reg) : regAt (BitVec.ofNat 16 (regOffset r)).toNat = some r := by cases r <;> rfl

theorem writeReg_readOnly {r : Reg} (h : r ∈ readOnlyRegs) (v : Word) (s : State) : writeReg r v s = s := by
  cases r with
  | cfg | cmd | opa | opb | rawLen | encLen => exact absurd h (by decide)
  | _ => rfl

/-- What a register holds, written back to it, changes nothing: CFG's dropped bits are 0 already. -/
theorem writeReg_readReg {s : State} (h : s.Inv) (r : Reg) : writeReg r (readReg r s) s = s := by
  cases r with
  | cfg => simp only [writeReg, readReg, h.cfg_legal]
  | _ => rfl

/-! ## Reads of the buffers (R66 to R70) -/

/-- An aligned read of a buffer whose bytes all hold a value gives them, little-endian. -/
theorem access_read_of_readBytes {x : Addr} {a n : Nat} {s : State} {bs : List Byte} (hx : x.toNat = a)
    (hn : n = 1 ∨ n = 2 ∨ n = 4) (ha : a % n = 0) (h : 0x1000 ≤ a ∧ a < 0x3880 ∨ 0x4000 ≤ a ∧ a < 0x6000)
    (hb : readBytes Config.params s a n = some bs) :
    access (.read x n) s = .next { s with observed := s.observed ++ [leWord bs] } := by
  rw [access_read, hx, busRead_bytes hn ha h, hb]

/-- An aligned read of a buffer that reaches a byte without a value faults. -/
theorem access_read_undefined {x : Addr} {a n k : Nat} {s : State} (hx : x.toNat = a)
    (hn : n = 1 ∨ n = 2 ∨ n = 4) (ha : a % n = 0) (h : 0x1000 ≤ a ∧ a < 0x3880 ∨ 0x4000 ≤ a ∧ a < 0x6000)
    (hk : k < n) (hb : readByte Config.params s (a + k) = none) : access (.read x n) s = .fault .undefinedRead := by
  rw [access_read, hx, busRead_bytes hn ha h, readBytes_eq_none.mpr ⟨k, hk, hb⟩]

theorem setWidth_byte_injective {b b' : Byte} (h : b.setWidth 32 = b'.setWidth 32) : b = b' := by
  have := congrArg BitVec.toNat h
  simp only [BitVec.toNat_setWidth] at this
  apply BitVec.eq_of_toNat_eq
  omega

/-- A one-byte read answers a byte's value exactly when the address reads as that byte. -/
theorem access_read_byte_eq_next_iff {s : State} {a : Nat} {b : Byte}
    (h : 0x1000 ≤ a ∧ a < 0x3880 ∨ 0x4000 ≤ a ∧ a < 0x6000) :
    access (.read (BitVec.ofNat 16 a) 1) s = .next { s with observed := s.observed ++ [b.setWidth 32] } ↔
      readByte Config.params s a = some b := by
  rw [access_read_byte h]
  cases readByte Config.params s a with
  | none => simp
  | some b' =>
    refine ⟨fun e => ?_, fun e => by rw [Option.some.inj e]⟩
    have hobs := congrArg State.observed (Host.Outcome.next.inj e)
    have hb : b' = b := setWidth_byte_injective (by simpa using hobs)
    rw [hb]

theorem access_read_byte_eq_fault_iff {s : State} {a : Nat} (h : 0x1000 ≤ a ∧ a < 0x3880 ∨ 0x4000 ≤ a ∧ a < 0x6000) :
    access (.read (BitVec.ofNat 16 a) 1) s = .fault .undefinedRead ↔ readByte Config.params s a = none := by
  rw [access_read_byte h]
  cases readByte Config.params s a <;> simp

/-! ## RAW and ENC_IN (R66) -/

/-- A range of RAW or ENC_IN reads as the memory holds it. -/
theorem readBytes_mem {P : Params} {s : State} {a n : Nat} (h : 0x1000 ≤ a) (h' : a + n ≤ 0x3400) :
    readBytes P s a n = s.mem.getRange a n := by
  induction n generalizing a with
  | zero => rfl
  | succ n ih => rw [readBytes, Memory.getRange, readByte_mem h (by omega), ih (by omega) (by omega)]

/-- The bytes of a value written: byte k of the value at a + k, every other byte as before. -/
theorem setRange_leBytes_get? (m : Memory) (a n : Nat) (v : Word) (x : Nat) :
    (m.setRange a (leBytes n v)).get? x =
      if a ≤ x ∧ x < a + n then some (BitVec.ofNat 8 (v.toNat / 256 ^ (x - a))) else m.get? x := by
  rw [Memory.get?_setRange, leBytes_length]
  by_cases h : a ≤ x ∧ x < a + n
  · rw [if_pos h, if_pos h, leBytes_getElem? v (by omega), extractLsb'_byte]
  · rw [if_neg h, if_neg h]

/-- Storing the bytes a range already holds changes nothing. -/
theorem setRange_getRange {m : Memory} (hw : m.wf = true) {a n : Nat} {bs : List Byte} (h : m.getRange a n = some bs) :
    m.setRange a bs = m := by
  obtain ⟨hl, hk⟩ := Memory.getRange_eq_some.mp h
  refine Memory.ext (Memory.wf_setRange hw _ _) hw fun x => ?_
  rw [Memory.get?_setRange]
  split
  · rw [← hk (x - a) (by omega), show a + (x - a) = x by omega]
  · rfl

/-! ## The buffers the commands write (R67 to R69) -/

/-- A write to PARBUF, SEGTAB or DATA has no effect. -/
theorem access_write_ignored {x : Addr} {a n : Nat} (hx : x.toNat = a) (hn : n = 1 ∨ n = 2 ∨ n = 4) (ha : a % n = 0)
    (h : 0x3400 ≤ a ∧ a < 0x3880 ∨ 0x4000 ≤ a ∧ a < 0x6000) (v : Word) (s : State) :
    access (.write x n v) s = .next s := by
  show busWrite x.toNat n v s = .next s
  rw [hx]
  rcases busWrite_cases a n v s with ⟨hnone, -⟩ | ⟨h4, -, -⟩ | ⟨r, -, -, hlt, -, -⟩ | ⟨hn', -, -, hle, -⟩ | ⟨-, -, -, e⟩
  · rw [accessRegion_eq_none_iff] at hnone; omega
  · omega
  · omega
  · omega
  · exact e

/-- PARBUF byte k of slot i. -/
theorem readByte_parbuf {P : Params} {s : State} {i k : Nat} (hi : i < 16) (hk : k < 64) :
    readByte P s (0x3400 + 64 * i + k) =
      if s.slotValid i = true ∧ k < s.parityLen P then s.mem.get? (slotBase i + k) else none := by
  have hslot : (0x3400 + 64 * i + k - parBase) / parCap = i := by unfold parBase parCap; omega
  have hbyte : (0x3400 + 64 * i + k - parBase) % parCap = k := by unfold parBase parCap; omega
  rw [readByte, regionOf_parbuf (by omega) (by omega)]
  simp only [hslot, hbyte]
  rfl

/-- SEGTAB byte o of entry i. -/
theorem readByte_segtab {P : Params} {s : State} {i o : Nat} (hi : i < 16) (ho : o < 8) :
    readByte P s (0x3800 + 8 * i + o) = (leBytes 4 (s.segEntry i).off ++ leBytes 4 (s.segEntry i).len)[o]? := by
  have hentry : (0x3800 + 8 * i + o - segBase) / 8 = i := by unfold segBase; omega
  have hbyte : (0x3800 + 8 * i + o - segBase) % 8 = o := by unfold segBase; omega
  rw [readByte, regionOf_segtab (by omega) (by omega)]
  simp only [hentry, hbyte]

/-- DATA byte k. -/
theorem readByte_data {P : Params} {s : State} {k : Nat} (hk : k < 8192) :
    readByte P s (0x4000 + k) =
      if s.phase = .programmed ∧ k < s.dataLen.toNat then s.mem.get? (dataBase + k) else none := by
  have hbyte : 0x4000 + k - dataBase = k := by unfold dataBase; omega
  rw [readByte, regionOf_data (by omega) (by omega)]
  simp only [hbyte]
  rfl

theorem segEntry_eq (s : State) (i : Fin 16) :
    s.segEntry i = if i.val < s.segCount.toNat then s.segtab[i] else ⟨0, 0⟩ := by
  simp [State.segEntry]

/-- An aligned read inside one word of a SEGTAB entry: the word `w` stands at offset `p` of the entry, and the read begins at its
byte j. -/
theorem access_read_segtab_word {x : Addr} {s : State} {i p j n : Nat} {w : Word} (hi : i < 16)
    (hx : x.toNat = 0x3800 + 8 * i + p + j) (hp : p = 0 ∨ p = 4) (hn : n = 1 ∨ n = 2 ∨ n = 4) (hj : j < 4) (hjn : j % n = 0)
    (hw : ∀ k, k < 4 → readByte Config.params s (0x3800 + 8 * i + p + k) = (leBytes 4 w)[k]?) :
    access (.read x n) s =
      .next { s with observed := s.observed ++ [BitVec.ofNat 32 (w.toNat / 256 ^ j % 256 ^ n)] } := by
  have hfit := aligned_add_le hn hjn rfl hj
  have hlow : (BitVec.ofNat 32 (w.toNat / 256 ^ j)).toNat = w.toNat / 256 ^ j :=
    Nat.mod_eq_of_lt ((Nat.div_le_self _ _).trans_lt w.isLt)
  have hbytes : readBytes Config.params s (0x3800 + 8 * i + p + j) n =
      some (leBytes n (BitVec.ofNat 32 (w.toNat / 256 ^ j))) := by
    refine readBytes_eq_some.mpr ⟨leBytes_length _ _, fun k hk => ?_⟩
    rw [Nat.add_assoc _ j k, hw (j + k) (by omega), leBytes_getElem? _ (by omega), leBytes_getElem? _ hk, extractLsb'_byte,
      extractLsb'_byte, hlow, Nat.div_div_eq_div_mul, ← pow_add]
  rw [access_read_of_readBytes hx hn (aligned_add hn (by omega) hjn) (by omega) hbytes, leWord_leBytes hn, hlow]

/-! ## Wide writes (R70) -/

/-- The state after one-byte writes of bytes 0 to n − 1 of a value from address a up; none if one of them ends otherwise. -/
def byteWrites (a n : Nat) (v : Word) (s : State) : Option State :=
  (List.range n).foldlM (fun r k => match access (.write (BitVec.ofNat 16 (a + k)) 1 (v >>> (8 * k))) r with
    | .next r' => some r'
    | .fault _ => none
    | .refused _ => none) s

theorem byteWrites_succ {a n : Nat} {v : Word} {s r t : State} (h : byteWrites a n v s = some r)
    (hw : access (.write (BitVec.ofNat 16 (a + n)) 1 (v >>> (8 * n))) r = .next t) : byteWrites a (n + 1) v s = some t := by
  unfold byteWrites at *
  rw [List.range_succ, List.foldlM_append, h]
  simp [hw]

/-- One-byte writes to RAW or ENC_IN leave the memory reading as one write of all their bytes. -/
theorem byteWrites_mem {a n : Nat} (v : Word) (s : State) (h : 0x1000 ≤ a) (h' : a + n ≤ 0x3400) :
    ∃ u, byteWrites a n v s = some u ∧ u = { s with mem := u.mem } ∧
      ∀ x, u.mem.get? x = (s.mem.setRange a (leBytes n v)).get? x := by
  induction n with
  | zero => exact ⟨s, rfl, rfl, fun x => by rw [setRange_leBytes_get?, if_neg (by omega)]⟩
  | succ n ih =>
    obtain ⟨r, hr, hframe, hget⟩ := ih (by omega)
    have hwrite : access (.write (BitVec.ofNat 16 (a + n)) 1 (v >>> (8 * n))) r =
        .next { r with mem := r.mem.setRange (a + n) (leBytes 1 (v >>> (8 * n))) } := by
      show busWrite (BitVec.ofNat 16 (a + n)).toNat 1 _ r = _
      rw [toNat_addr (by omega), busWrite_mem (.inl rfl) (Nat.mod_one _) (by omega) (by omega)]
    refine ⟨_, byteWrites_succ hr hwrite, by rw [hframe], fun x => ?_⟩
    show (r.mem.setRange _ _).get? x = _
    rw [setRange_leBytes_get?, hget, setRange_leBytes_get?, setRange_leBytes_get?]
    by_cases hx : x = a + n
    · subst hx
      rw [if_pos (by omega), if_pos (by omega), Nat.sub_self, pow_zero, Nat.div_one, Nat.add_sub_cancel_left,
        BitVec.toNat_ushiftRight, Nat.shiftRight_eq_div_pow, show (256 : Nat) = 2 ^ 8 from rfl, ← pow_mul]
    · rw [if_neg (by omega)]
      exact if_congr (by omega) rfl rfl

/-- One-byte writes to PARBUF, SEGTAB or DATA have no effect. -/
theorem byteWrites_ignored {a n : Nat} (v : Word) (s : State)
    (h : ∀ k, k < n → 0x3400 ≤ a + k ∧ a + k < 0x3880 ∨ 0x4000 ≤ a + k ∧ a + k < 0x6000) :
    byteWrites a n v s = some s := by
  induction n with
  | zero => rfl
  | succ n ih =>
    have hn := h n (by omega)
    exact byteWrites_succ (ih fun k hk => h k (by omega))
      (access_write_ignored (toNat_addr (by omega)) (.inl rfl) (Nat.mod_one _) hn _ s)

/-! ## What an access leaves (R71) -/

theorem readByte_observed (P : Params) (s : State) (o : List Word) (a : Nat) :
    readByte P { s with observed := o } a = readByte P s a := rfl

theorem readBytes_observed (P : Params) (s : State) (o : List Word) (a n : Nat) :
    readBytes P { s with observed := o } a n = readBytes P s a n := by
  induction n generalizing a with
  | zero => rfl
  | succ n ih => rw [readBytes, readBytes, readByte_observed, ih]

theorem readReg_observed (r : Reg) (s : State) (o : List Word) : readReg r { s with observed := o } = readReg r s := by
  cases r <;> rfl

/-- What the host has read before is no part of what it reads. -/
theorem busRead_observed (P : Params) (a n : Nat) (s : State) (o : List Word) :
    busRead P a n { s with observed := o } = busRead P a n s := by
  simp only [busRead, readBytes_observed, readReg_observed]

/-- A read that answers a next state: its value, and nothing else that changed. -/
theorem access_read_next {a : Addr} {n : Nat} {s t : State} (h : access (.read a n) s = .next t) :
    ∃ v, busRead Config.params a.toNat n s = .ok v ∧ t = { s with observed := s.observed ++ [v] } := by
  rw [access_read] at h
  cases hr : busRead Config.params a.toNat n s with
  | error f => rw [hr] at h; cases h
  | ok v => rw [hr] at h; exact ⟨v, rfl, (Host.Outcome.next.inj h).symm⟩

theorem busRead_of_access_read {a : Addr} {n : Nat} {v : Word} {s : State}
    (h : access (.read a n) s = .next { s with observed := s.observed ++ [v] }) :
    busRead Config.params a.toNat n s = .ok v := by
  obtain ⟨v', hr, ht⟩ := access_read_next h
  have hobs : v = v' := by simpa using congrArg State.observed ht
  rw [hobs, hr]

/-- A write elsewhere than to CMD that answers a next state: a register's, one to RAW or ENC_IN, or one without effect. -/
theorem access_write_next {a : Addr} {n : Nat} {v : Word} {s t : State} (ha : a ≠ cmdAddr)
    (h : access (.write a n v) s = .next t) :
    (∃ r, regAt a.toNat = some r ∧ t = writeReg r v s) ∨
    (0x1000 ≤ a.toNat ∧ a.toNat < 0x3400 ∧ t = { s with mem := s.mem.setRange a.toNat (leBytes n v) }) ∨
    (0x3400 ≤ a.toNat ∧ t = s) := by
  replace h : busWrite a.toNat n v s = .next t := h
  rcases busWrite_cases a.toNat n v s with
    ⟨-, e⟩ | ⟨h4, -, -⟩ | ⟨r, hr, -, -, -, e⟩ | ⟨hn, -, hlow, hhigh, e⟩ | ⟨-, -, hlow, e⟩
  · rw [e] at h; cases h
  · exact absurd (BitVec.eq_of_toNat_eq h4) ha
  · rw [e] at h; exact .inl ⟨r, hr, (Host.Outcome.next.inj h).symm⟩
  · rw [e] at h; exact .inr (.inl ⟨hlow, by omega, (Host.Outcome.next.inj h).symm⟩)
  · rw [e] at h; exact .inr (.inr ⟨hlow, (Host.Outcome.next.inj h).symm⟩)

/-- A write to a register other than CMD that answers a next state. -/
theorem access_write_reg_next {a : Addr} {n : Nat} {v : Word} {s t : State} {r : Reg} (ha : a ≠ cmdAddr)
    (hr : regAt a.toNat = some r) (h : access (.write a n v) s = .next t) : t = writeReg r v s := by
  have hlt := (regAt_bounds hr).1
  rcases access_write_next ha h with ⟨r', hr', e⟩ | ⟨hlow, -⟩ | ⟨hlow, -⟩
  · rw [e, Option.some.inj (hr'.symm.trans hr)]
  · omega
  · omega

/-- A register is CMD, one of the five writable ones, or read-only. -/
theorem regAt_readOnly {a : Addr} {r : Reg} (hr : regAt a.toNat = some r) (hcmd : a ≠ cmdAddr) (hcfg : a ≠ 0x00)
    (hopa : a ≠ 0x0C) (hopb : a ≠ 0x10) (hraw : a ≠ 0x18) (henc : a ≠ 0x1C) : r ∈ readOnlyRegs := by
  have ha : a = BitVec.ofNat 16 (regOffset r) := by
    rw [regOffset_of_regAt hr, BitVec.ofNat_toNat, BitVec.setWidth_eq]
  cases r with
  | cmd => exact absurd ha hcmd
  | cfg => exact absurd ha hcfg
  | opa => exact absurd ha hopa
  | opb => exact absurd ha hopb
  | rawLen => exact absurd ha hraw
  | encLen => exact absurd ha henc
  | _ => decide

/-- A value just read, written back, changes nothing. -/
theorem access_write_back {a : Addr} {n : Nat} {v : Word} {s : State} (hinv : s.Inv) (ha : a ≠ cmdAddr)
    (hread : busRead Config.params a.toNat n s = .ok v) : access (.write a n v) s = .next s := by
  show busWrite a.toNat n v s = .next s
  rcases busWrite_cases a.toNat n v s with
    ⟨hnone, -⟩ | ⟨h4, -, -⟩ | ⟨r, hr, -, hlt, rfl, e⟩ | ⟨hn, halign, hlow, hhigh, e⟩ | ⟨-, -, -, e⟩
  · rw [busRead_none hnone] at hread; cases hread
  · exact absurd (BitVec.eq_of_toNat_eq h4) ha
  · rw [busRead_reg hr hlt (regAt_bounds hr).2] at hread
    rw [e, ← Except.ok.inj hread, writeReg_readReg hinv]
  · rw [busRead_bytes hn halign (by omega), readBytes_mem hlow hhigh] at hread
    cases hb : s.mem.getRange a.toNat n with
    | none => rw [hb] at hread; cases hread
    | some bs =>
      rw [hb] at hread
      rw [e, ← Except.ok.inj hread, leBytes_leWord hn (Memory.getRange_length hb), setRange_getRange hinv.mem_wf hb]
  · exact e

end Sys2Proof.Machine

open Sys2Proof Sys2Proof.Machine

/-- Settles O44: an access that reaches a region answers no BUS_ERROR, and `accessRegion_eq_none_iff` says which reach none. -/
theorem busErrorsAreExactlyTheIllegalAccesses : Obligations.BusErrorsAreExactlyTheIllegalAccesses := by
  intro s a n v
  rw [access_read_eq_busError_iff, access_write_eq_busError_iff, accessRegion_eq_none_iff]
  exact ⟨Iff.rfl, Iff.rfl⟩

/-- Settles O45: a range of RAW and ENC_IN reads as the memory's range, and the memory's own read-after-write law. -/
theorem bufferWriteThenRead : Obligations.BufferWriteThenRead := by
  intro s a n v hn ha hlow hhigh
  have hfit := aligned_add_le hn ha rfl hhigh
  refine ⟨⟨_, busWrite_mem hn ha hlow hfit, rfl, setRange_leBytes_get? _ _ _ _, ?_⟩,
    fun bs hl hk => ?_, fun ⟨k, hk, hnone⟩ => ?_⟩
  · have hback := Memory.getRange_setRange_self s.mem a.toNat (leBytes n v)
    rw [leBytes_length] at hback
    rw [access_read_of_readBytes rfl hn ha (by omega) ((readBytes_mem hlow hfit).trans hback), leWord_leBytes hn]
  · exact access_read_of_readBytes rfl hn ha (by omega)
      ((readBytes_mem hlow hfit).trans (Memory.getRange_eq_some.mpr ⟨hl, hk⟩))
  · exact access_read_undefined rfl hn ha (by omega) hk ((readByte_mem (by omega) (by omega)).trans hnone)

/-- Settles O46: `readByte_parbuf` says which bytes read, and the invariant that they are defined; a read that reaches
beyond P has no value at its last byte. -/
theorem parbufReadsValidParityOnly : Obligations.ParbufReadsValidParityOnly := by
  intro s i k n v hinv hi hk hn hkn
  have hfit := aligned_add_le hn hkn (b := 64) rfl hk
  have halign : (0x3400 + 64 * i + k) % n = 0 := aligned_add hn (by omega) hkn
  have haddr : (BitVec.ofNat 16 (0x3400 + 64 * i + k)).toNat = 0x3400 + 64 * i + k := toNat_addr (by omega)
  refine ⟨fun hvalid hlt => ?_, fun hbad => ?_, access_write_ignored haddr hn halign (by omega) v s⟩
  · obtain ⟨b, hb⟩ := Option.isSome_iff_exists.mp ((hinv.par_defined i k hi hk).mpr ⟨hvalid, hlt⟩)
    refine ⟨b, hb, (access_read_byte_eq_next_iff (by omega)).mpr ?_⟩
    rw [readByte_parbuf hi hk, if_pos ⟨hvalid, hlt⟩, hb]
  · refine access_read_undefined (k := n - 1) haddr hn halign (by omega) (by omega) ?_
    rw [Nat.add_assoc, readByte_parbuf hi (by omega), if_neg]
    rintro ⟨hvalid, hlt⟩
    rcases hbad with hinvalid | hlong
    · rw [hinvalid] at hvalid; cases hvalid
    · omega

/-- Settles O47: both words of an entry by `access_read_segtab_word`, OFF at offset 0 and LEN at offset 4. -/
theorem segtabReadsLittleEndianEntries : Obligations.SegtabReadsLittleEndianEntries := by
  intro s i j n v hn hj hjn
  have hi := i.isLt
  refine ⟨s.segEntry i, segEntry_eq s i, ?_, ?_, ?_, ?_⟩
  · refine access_read_segtab_word hi (toNat_addr (by omega)) (.inl rfl) hn hj hjn fun k hk => ?_
    rw [Nat.add_zero, readByte_segtab hi (by omega), List.getElem?_append_left (by rw [leBytes_length]; exact hk)]
  · refine access_read_segtab_word hi (toNat_addr (by omega)) (.inr rfl) hn hj hjn fun k hk => ?_
    rw [Nat.add_assoc, readByte_segtab hi (by omega), List.getElem?_append_right (by rw [leBytes_length]; omega),
      leBytes_length, Nat.add_sub_cancel_left]
  · exact access_write_ignored (toNat_addr (by omega)) hn (aligned_add hn (by omega) hjn) (by omega) v s
  · exact access_write_ignored (toNat_addr (by omega)) hn (aligned_add hn (by omega) hjn) (by omega) v s

/-- Settles O48: `readByte_data` says which bytes read, and the invariant that they are defined. -/
theorem dataIsReadableOnlyWhenProgrammed : Obligations.DataIsReadableOnlyWhenProgrammed := by
  intro s k v hinv hk
  refine ⟨fun hphase hlt => ?_, fun hbad => ?_, fun n hn hkn => ?_⟩
  · obtain ⟨b, hb⟩ := Option.isSome_iff_exists.mp ((hinv.data_defined k hk).mpr hlt)
    refine ⟨b, hb, (access_read_byte_eq_next_iff (by omega)).mpr ?_⟩
    rw [readByte_data hk, if_pos ⟨hphase, hlt⟩, hb]
  · rw [access_read_byte_eq_fault_iff (by omega), readByte_data hk, if_neg]
    rintro ⟨hphase, hlt⟩
    exact hbad.elim (fun h => h hphase) (fun h => absurd hlt (Nat.not_lt.mpr h))
  · exact access_write_ignored (toNat_addr (by omega)) hn (aligned_add hn (by omega) hkn) (by omega) v s

/-- Settles O49: the bytes a wide read combines are those the one-byte reads find; a wide write to RAW or ENC_IN stores what the
one-byte writes store (`byteWrites_mem`), and in the other buffers neither has an effect. -/
theorem wideAccessIsItsByteAccesses : Obligations.WideAccessIsItsByteAccesses := by
  intro s a n v hn ha hbuf
  have hn' : n = 1 ∨ n = 2 ∨ n = 4 := .inr hn
  have haddr : (BitVec.ofNat 16 a).toNat = a := toNat_addr (by omega)
  have hbuf' : ∀ k, k < n → (0x1000 ≤ a + k ∧ a + k < 0x3880 ∨ 0x4000 ≤ a + k ∧ a + k < 0x6000) := by
    intro k hk; rcases hn with rfl | rfl <;> omega
  refine ⟨fun bs hl hk => ?_, fun ⟨k, hk, hfault⟩ => ?_, ?_⟩
  · refine access_read_of_readBytes haddr hn' ha hbuf (readBytes_eq_some.mpr ⟨hl, fun k hkn => ?_⟩)
    obtain ⟨b, hb, hread⟩ := hk k hkn
    rw [hb, (access_read_byte_eq_next_iff (hbuf' k hkn)).mp hread]
  · exact access_read_undefined haddr hn' ha hbuf hk ((access_read_byte_eq_fault_iff (hbuf' k hk)).mp hfault)
  · by_cases hstore : a < 0x3400
    · have hfit := aligned_add_le hn' ha rfl hstore
      obtain ⟨u, hu, hframe, hget⟩ := byteWrites_mem v s (a := a) (n := n) (by omega) hfit
      have hwrite : access (.write (BitVec.ofNat 16 a) n v) s = .next { s with mem := s.mem.setRange a (leBytes n v) } := by
        show busWrite (BitVec.ofNat 16 a).toNat n v s = _
        rw [haddr, busWrite_mem hn' ha (by omega) hfit]
      exact ⟨_, u, hwrite, hu, by rw [hframe], fun x => (hget x).symm⟩
    · have hignored : ∀ k, k < n → (0x3400 ≤ a + k ∧ a + k < 0x3880 ∨ 0x4000 ≤ a + k ∧ a + k < 0x6000) := by
        intro k hk; have := hbuf' k hk; omega
      exact ⟨s, s, access_write_ignored haddr hn' ha (by omega) v s, byteWrites_ignored v s hignored, rfl, fun _ => rfl⟩

/-- Settles O50: reads by `access_read_next`, writes by `access_write_next`, the write-back by `access_write_back`. -/
theorem onlyCmdWritesHaveSideEffects : Obligations.OnlyCmdWritesHaveSideEffects := by
  refine ⟨fun s t a n h => ?_, fun s t a n v ha h => ⟨?_, ?_, ?_, ?_, ?_, fun hlow hhigh => ?_, ?_⟩, fun s a n v hinv ha h => ?_⟩
  · obtain ⟨v, hread, rfl⟩ := access_read_next h
    exact ⟨v, rfl, by rw [access_read, busRead_observed, hread]⟩
  · rintro rfl; exact access_write_reg_next (r := .cfg) ha rfl h
  · rintro rfl; exact access_write_reg_next (r := .opa) ha rfl h
  · rintro rfl; exact access_write_reg_next (r := .opb) ha rfl h
  · rintro rfl; exact access_write_reg_next (r := .rawLen) ha rfl h
  · rintro rfl; exact access_write_reg_next (r := .encLen) ha rfl h
  · rcases access_write_next ha h with ⟨r, hr, -⟩ | ⟨-, -, rfl⟩ | ⟨hhigh', -⟩
    · have := (regAt_bounds hr).1; omega
    · exact ⟨rfl, fun x hx => by rw [setRange_leBytes_get?, if_neg (by omega)]⟩
    · omega
  · intro hcfg hopa hopb hraw henc hout
    rcases access_write_next ha h with ⟨r, hr, rfl⟩ | ⟨hlow, hhigh, -⟩ | ⟨-, rfl⟩
    · exact writeReg_readOnly (regAt_readOnly hr ha hcfg hopa hopb hraw henc) v s
    · omega
    · rfl
  · exact access_write_back hinv ha (busRead_of_access_read h)

/-- Settles O43: the offsets named are those of `regOffset`, and each register's access is `access_readReg` or
`access_writeReg`. -/
theorem registerAccessesFollowTheMap : Obligations.RegisterAccessesFollowTheMap := by
  intro s v
  refine ⟨access_writeReg (r := .cfg) rfl (by decide) v s, access_cmd v s, access_writeReg (r := .opa) rfl (by decide) v s,
    access_writeReg (r := .opb) rfl (by decide) v s, access_writeReg (r := .rawLen) rfl (by decide) v s,
    access_writeReg (r := .encLen) rfl (by decide) v s, fun a ha => ?_, fun x hx => ?_⟩
  · obtain ⟨r, hr, rfl⟩ := List.mem_map.mp (show a ∈ readOnlyRegs.map regOffset from ha)
    have hcmd : r ≠ .cmd := by rintro rfl; exact absurd hr (by decide)
    rw [access_writeReg (regAt_regOffset r) hcmd, writeReg_readOnly hr]
  · obtain ⟨r, -, rfl⟩ := List.mem_map.mp (show x ∈ allRegs.map fun r => (regOffset r, readReg r s) from hx)
    exact access_readReg (regAt_addr_regOffset r) s

end

section
/-! SUPPORT. The decoder's rejections by the fields of the word (R86, R93), what a step makes of a rejected word (R94), and the
widths of the BCH fields as least widths (R17). -/

namespace Sys2Proof

/-! ## Fields and formats (R86, R91) -/

theorem opcodeOf_eq (w : Word) : opcodeOf w = w.toNat / 2 ^ 28 := by
  rw [opcodeOf, BitVec.extractLsb'_toNat, Nat.shiftRight_eq_div_pow]
  omega

theorem fldOf_eq (w : Word) : fldOf w = w.toNat / 2 ^ 26 % 4 := by
  rw [fldOf, BitVec.extractLsb'_toNat, Nat.shiftRight_eq_div_pow]

theorem resHighOf_eq (w : Word) : resHighOf w = w.toNat / 2 ^ 24 % 4 := by
  rw [resHighOf, BitVec.extractLsb'_toNat, Nat.shiftRight_eq_div_pow]

theorem slotOf_eq (w : Word) : slotOf w = w.toNat / 2 ^ 20 % 16 := by
  rw [slotOf, BitVec.extractLsb'_toNat, Nat.shiftRight_eq_div_pow]

theorem resLowOf_eq (w : Word) : resLowOf w = w.toNat % 2 ^ 20 := by
  rw [resLowOf, BitVec.extractLsb'_toNat, Nat.shiftRight_zero]

theorem formatOf_eq_none {op : Nat} (h : op = 0 ∨ 12 ≤ op) : formatOf op = none := by
  rcases h with rfl | h
  · rfl
  · rw [formatOf, if_neg (by omega), if_neg (by omega), if_neg (by omega), if_neg (by omega)]

theorem formatOf_eq_g {op : Nat} (h : 1 ≤ op) (h' : op ≤ 3) : formatOf op = some .g := by
  rw [formatOf, if_neg (by omega), if_pos h']

theorem formatOf_eq_e {op : Nat} (h : 4 ≤ op) (h' : op ≤ 7) : formatOf op = some .e := by
  rw [formatOf, if_neg (by omega), if_neg (by omega), if_pos h']

theorem formatOf_eq_p {op : Nat} (h : 8 ≤ op) (h' : op ≤ 11) : formatOf op = some .p := by
  rw [formatOf, if_neg (by omega), if_neg (by omega), if_neg (by omega), if_pos h']

/-- Every opcode from 0x1 to 0xB has a format. -/
theorem exists_formatOf {op : Nat} (h : 1 ≤ op) (h' : op ≤ 11) : ∃ fmt, formatOf op = some fmt := by
  rcases (by omega : op ≤ 3 ∨ (4 ≤ op ∧ op ≤ 7) ∨ 8 ≤ op) with hg | ⟨he, he'⟩ | hp
  · exact ⟨_, formatOf_eq_g h hg⟩
  · exact ⟨_, formatOf_eq_e he he'⟩
  · exact ⟨_, formatOf_eq_p hp h'⟩

/-! ## Rejected words (R93) -/

theorem decodeWord_reservedOpcode {w : Word} (h : formatOf (opcodeOf w) = none) :
    decodeWord w = .error .reservedOpcode := by
  simp only [decodeWord, h]

theorem decodeWord_reservedBitSet {w : Word} {fmt : Format} (h : formatOf (opcodeOf w) = some fmt)
    (hres : resHighOf w ≠ 0 ∨ resLowOf w ≠ 0) : decodeWord w = .error .reservedBits := by
  simp only [decodeWord, h, if_pos hres]

/-- A field the format does not use is not zero: SLOT in format G, FLD in format E, either in format P (R87). -/
def unusedFieldSet (w : Word) : Format → Prop
  | .g => slotOf w ≠ 0
  | .e => fldOf w ≠ 0
  | .p => fldOf w ≠ 0 ∨ slotOf w ≠ 0

theorem decodeWord_unusedField {w : Word} {fmt : Format} (h : formatOf (opcodeOf w) = some fmt)
    (hset : unusedFieldSet w fmt) : decodeWord w = .error .reservedBits := by
  by_cases hres : resHighOf w ≠ 0 ∨ resLowOf w ≠ 0
  · exact decodeWord_reservedBitSet h hres
  cases fmt with
  | g =>
    have hslot : slotOf w ≠ 0 := hset
    simp only [decodeWord, h, if_neg hres, if_pos hslot]
  | e =>
    have hfld : fldOf w ≠ 0 := hset
    simp only [decodeWord, h, if_neg hres, if_pos hfld]
  | p =>
    have hfields : fldOf w ≠ 0 ∨ slotOf w ≠ 0 := hset
    simp only [decodeWord, h, if_neg hres, if_pos hfields]

theorem decodeWord_reservedFieldSelect {w : Word} (h : formatOf (opcodeOf w) = some .g) (hhigh : resHighOf w = 0)
    (hlow : resLowOf w = 0) (hslot : slotOf w = 0) (hfld : fldOf w = 3) :
    decodeWord w = .error .reservedFieldSelect := by
  have hselect : fldSelect 3 = none := rfl
  simp only [decodeWord, h, hhigh, hlow, hslot, hfld, hselect, ne_eq, not_true_eq_false, or_self, if_false]

/-- A step whose access writes a rejected word to CMD answers its sub-cause and does nothing else (R94). -/
theorem Machine.step_rejected {s : Machine.State} {w : Word} {rest : List Machine.HostAccess} {e : DecodeError}
    (hf : s.faulted = none) (hr : s.refused = none) (hp : s.pending = .write Machine.cmdAddr 4 w :: rest)
    (hd : decodeWord w = .error e) :
    Machine.step s = .next { s with pending := rest, resp := Machine.illegalResponse e } := by
  rw [Machine.step_pending hf hr hp, Machine.access_cmd, Machine.issue_error hd]
  rfl

/-! ## The width of a field (R17) -/

/-- `leastWidth B` is the least m with 2^m − 1 ≥ B. -/
theorem Gf.leastWidth_le_iff {B m : Nat} (hB : B ≠ 0) : Gf.leastWidth B ≤ m ↔ B ≤ 2 ^ m - 1 := by
  have hpos := Nat.two_pow_pos m
  calc Gf.leastWidth B ≤ m ↔ B.log2 < m := Iff.rfl
    _ ↔ B < 2 ^ m := Nat.log2_lt hB
    _ ↔ B ≤ 2 ^ m - 1 := by omega

/-- A bound of every block of a scheme bounds the maximum. -/
theorem Params.maxBlock_le_of_forall {P : Params} {e : Ecc} {B : Nat}
    (h : ∀ (c : Cfg) (i : Nat), P.supported c = true → c.ecc = e → i < (P.geom c).n → (P.geom c).blockLen i ≤ B) :
    P.maxBlock e ≤ B := by
  refine foldl_max_le (Nat.zero_le B) fun x hx => ?_
  simp only [List.mem_flatMap, List.mem_filter, List.mem_map, List.mem_range, Bool.and_eq_true, beq_iff_eq] at hx
  obtain ⟨c, ⟨-, hs, he⟩, i, hi, rfl⟩ := hx
  exact h c i hs he hi

/-- The least width over the maximum block of a scheme is the least m that covers every block of it (R17): a scheme in use has a
block, so that the maximum is attained. -/
theorem Params.WF.leastWidth_maxBlock_le_iff {P : Params} (h : P.WF) {c₀ : Cfg} (hc₀ : P.supported c₀ = true) {R m : Nat}
    (hR : 1 ≤ R) :
    Gf.leastWidth (8 * P.maxBlock c₀.ecc + R) ≤ m ↔
      ∀ (c : Cfg) (i : Nat), P.supported c = true → c.ecc = c₀.ecc → i < (P.geom c).n →
        8 * (P.geom c).blockLen i + R ≤ 2 ^ m - 1 := by
  rw [Gf.leastWidth_le_iff (by omega)]
  constructor
  · intro hmax c i hs he hi
    have hle := Params.le_maxBlock hs he hi
    omega
  · intro hall
    have hfirst := hall c₀ 0 hc₀ rfl (h.geom c₀ hc₀).n_pos
    have hmax : P.maxBlock c₀.ecc ≤ (2 ^ m - 1 - R) / 8 := by
      refine Params.maxBlock_le_of_forall fun c i hs he hi => ?_
      have hblock := hall c i hs he hi
      omega
    omega

theorem Params.WF.mBCH4_le_iff {P : Params} (h : P.WF) {m : Nat} :
    P.mBCH4 ≤ m ↔ ∀ (c : Cfg) (i : Nat), P.supported c = true → c.ecc = .bch4 → i < (P.geom c).n →
      8 * (P.geom c).blockLen i + Gf.deg P.gBCH4 ≤ 2 ^ m - 1 :=
  h.leastWidth_maxBlock_le_iff (h.five ⟨.p2048, .o64, .bch4, false⟩ (by decide)) h.gBCH4_deg

theorem Params.WF.mBCH8_le_iff {P : Params} (h : P.WF) {m : Nat} :
    P.mBCH8 ≤ m ↔ ∀ (c : Cfg) (i : Nat), P.supported c = true → c.ecc = .bch8 → i < (P.geom c).n →
      8 * (P.geom c).blockLen i + Gf.deg P.gBCH8 ≤ 2 ^ m - 1 :=
  h.leastWidth_maxBlock_le_iff (h.five ⟨.p2048, .o128, .bch8, false⟩ (by decide))
    (Nat.one_le_of_lt h.gBCH8_deg)

end Sys2Proof

open Sys2Proof Sys2Proof.Machine Sys2Proof.Gf

/-- Settles O3: each clause is one of the decoder's rejections, its arithmetic that of the word's fields, and `step_rejected`. -/
theorem rejectedWordsAreIllegalCommands : Obligations.RejectedWordsAreIllegalCommands := by
  intro s w rest hf hr hp
  simp only [← opcodeOf_eq, ← fldOf_eq, ← resHighOf_eq, ← slotOf_eq, ← resLowOf_eq]
  refine ⟨fun hop => ?_, fun hlow hhigh hbits => ?_, fun hlow hhigh hres hres' hslot hfld => ?_, rfl, rfl, rfl, rfl, rfl, rfl⟩
  · exact step_rejected hf hr hp (decodeWord_reservedOpcode (formatOf_eq_none hop))
  · refine step_rejected hf hr hp (e := .reservedBits) ?_
    obtain ⟨fmt, hfmt⟩ := exists_formatOf hlow hhigh
    rcases hbits with hres | hres | ⟨hg, hslot⟩ | ⟨he, he', hfld⟩ | ⟨hge, hfields⟩
    · exact decodeWord_reservedBitSet hfmt (.inl hres)
    · exact decodeWord_reservedBitSet hfmt (.inr hres)
    · exact decodeWord_unusedField (formatOf_eq_g hlow hg) hslot
    · exact decodeWord_unusedField (formatOf_eq_e he he') hfld
    · exact decodeWord_unusedField (formatOf_eq_p hge hhigh) hfields
  · exact step_rejected hf hr hp (decodeWord_reservedFieldSelect (formatOf_eq_g hlow hhigh) hres hres' hslot hfld)

/-- Settles O57: the words by evaluating the decoder, primitivity from WF_PARAMS, and the widths by `mBCH4_le_iff` and
`mBCH8_le_iff`: the width itself covers every block, and every width that does is no less. -/
theorem fldSelectsTheSchemesField : Obligations.FldSelectsTheSchemesField := by
  refine ⟨rfl, rfl, rfl, fun s w hw => ?_, rfl, rfl, rfl, rfl, rfl, rfl, Config.params_wf.primitive, fun x hx => ?_⟩
  · have hd : decodeWord w = .error .reservedFieldSelect := by
      simp only [List.mem_cons, List.not_mem_nil, or_false] at hw
      rcases hw with rfl | rfl | rfl <;> rfl
    rw [access_cmd, issue_error hd]
    rfl
  · simp only [List.mem_cons, List.not_mem_nil, or_false] at hx
    rcases hx with rfl | rfl
    · exact ⟨Config.params_wf.mBCH4_le_iff.mp le_rfl, fun m => Config.params_wf.mBCH4_le_iff.mpr⟩
    · exact ⟨Config.params_wf.mBCH8_le_iff.mp le_rfl, fun m => Config.params_wf.mBCH8_le_iff.mpr⟩

end

section
/-! SUPPORT. The Galois-field commands by case (R111, R113, R116, R119): what `exec` answers out of range, at a zero divisor and on
success, and products too short to be reduced. -/

namespace Sys2Proof.Gf

/-- A carry-less product that is an element already is the field product. -/
theorem gfMul_eq_clmul {F : GField} (h : Primitive F.p F.m) {a b : Nat} (hlt : clmul a b < F.size) :
    gfMul F a b = clmul a b :=
  pmod_of_lt h.p_ne_zero (by rwa [h.2.1])

end Sys2Proof.Gf

namespace Sys2Proof.Machine

open Gf

/-- An element of every field fits RES. -/
theorem lt_two_pow_32_of_lt_size {fld : Fld} {v : Nat} (h : v < (Config.params.field fld).size) : v < 2 ^ 32 :=
  h.trans_le ((Config.params_wf.field_size_le fld).trans (Nat.pow_le_pow_right (by decide) (by decide)))

/-! ## What the commands answer -/

section

variable {fld : Fld} {s : State}

theorem exec_gfMul_of_out_of_range
    (h : (Config.params.field fld).size ≤ s.opa.toNat ∨ (Config.params.field fld).size ≤ s.opb.toNat) :
    exec (.gfMul fld) s = .next { s with resp := .operandRange } :=
  congrArg Host.Outcome.next (by rw [gfMulCommand, gfOperands_eq_none h]; rfl)

theorem exec_gfMul_of_lt (ha : s.opa.toNat < (Config.params.field fld).size)
    (hb : s.opb.toNat < (Config.params.field fld).size) :
    exec (.gfMul fld) s = .next { s with
      res := BitVec.ofNat 32 (gfMul (Config.params.field fld) s.opa.toNat s.opb.toNat), resp := .ok } :=
  congrArg Host.Outcome.next (by rw [gfMulCommand, gfOperands_eq_some ha hb]; rfl)

theorem exec_gfDiv_of_out_of_range
    (h : (Config.params.field fld).size ≤ s.opa.toNat ∨ (Config.params.field fld).size ≤ s.opb.toNat) :
    exec (.gfDiv fld) s = .next { s with resp := .operandRange } :=
  congrArg Host.Outcome.next (by rw [gfDivCommand, gfOperands_eq_none h]; rfl)

theorem exec_gfDiv_zero (ha : s.opa.toNat < (Config.params.field fld).size) (h0 : s.opb = 0) :
    exec (.gfDiv fld) s = .next { s with resp := .divByZero } := by
  have hzero : s.opb.toNat = 0 := by rw [h0]; rfl
  have hb : s.opb.toNat < (Config.params.field fld).size := hzero ▸ Nat.two_pow_pos _
  refine congrArg Host.Outcome.next ?_
  simp only [gfDivCommand, gfOperands_eq_some ha hb]
  exact if_pos hzero

theorem exec_gfDiv_of_lt (ha : s.opa.toNat < (Config.params.field fld).size)
    (hb : s.opb.toNat < (Config.params.field fld).size) (h0 : s.opb.toNat ≠ 0) :
    exec (.gfDiv fld) s = .next { s with
      res := BitVec.ofNat 32 (gfDiv (Config.params.field fld) s.opa.toNat s.opb.toNat), resp := .ok } := by
  refine congrArg Host.Outcome.next ?_
  simp only [gfDivCommand, gfOperands_eq_some ha hb]
  exact if_neg h0

theorem exec_gfPow_of_out_of_range (h : (Config.params.field fld).size ≤ s.opa.toNat) :
    exec (.gfPow fld) s = .next { s with resp := .operandRange } :=
  congrArg Host.Outcome.next (by rw [gfPowCommand, gfPowOperands_eq_none h]; rfl)

theorem exec_gfPow_of_lt (ha : s.opa.toNat < (Config.params.field fld).size) :
    exec (.gfPow fld) s = .next { s with
      res := BitVec.ofNat 32 (gfPowLoop (Config.params.field fld) s.opa.toNat s.opb.toNat), resp := .ok } :=
  congrArg Host.Outcome.next
    (by rw [gfPowCommand, gfPowOperands_eq_some ha, ← gfPow_eq_loop (Config.params_wf.primitive fld)]; rfl)

end

/-! ## The frame of the commands (R112) -/

/-- The outcome goes on from s with at most RES and the response written, and RES only on success. -/
def WritesResAndResponse (s : State) (o : Host.Outcome State Fault Refusal) : Prop :=
  ∃ (v : Word) (r : Response), o = .next { s with res := v, resp := r } ∧ (r ≠ .ok → v = s.res)

theorem writesResAndResponse_respond (r : Response) (s : State) : WritesResAndResponse s (.next (respond r s)) :=
  ⟨s.res, r, rfl, fun _ => rfl⟩

theorem writesResAndResponse_gfResult (v : Nat) (s : State) : WritesResAndResponse s (.next (gfResult v s)) :=
  ⟨BitVec.ofNat 32 v, .ok, rfl, fun h => absurd rfl h⟩

theorem writesResAndResponse_execGfMul (fld : Fld) (s : State) : WritesResAndResponse s (execGfMul fld s) := by
  rcases gfMulCommand_cases Config.params fld s with ⟨o, -⟩ | ⟨o, -⟩ <;> rw [execGfMul, o]
  · exact writesResAndResponse_respond _ s
  · exact writesResAndResponse_gfResult _ s

theorem writesResAndResponse_execGfDiv (fld : Fld) (s : State) : WritesResAndResponse s (execGfDiv fld s) := by
  rcases gfDivCommand_cases Config.params fld s with ⟨o, -⟩ | ⟨o, -⟩ | ⟨o, -⟩ <;> rw [execGfDiv, o]
  · exact writesResAndResponse_respond _ s
  · exact writesResAndResponse_respond _ s
  · exact writesResAndResponse_gfResult _ s

theorem writesResAndResponse_execGfPow (fld : Fld) (s : State) : WritesResAndResponse s (execGfPow fld s) := by
  rcases gfPowCommand_cases Config.params fld s with ⟨o, -⟩ | ⟨o, -⟩ <;> rw [execGfPow, o]
  · exact writesResAndResponse_respond _ s
  · exact writesResAndResponse_gfResult _ s

/-! ## Products in F_RS that no reduction changes -/

theorem gfMul_rs_three_five : gfMul (Config.params.field .rs) 3 5 = 0xF :=
  gfMul_eq_clmul (Config.params_wf.primitive .rs) (by decide)

theorem gfDiv_rs_fifteen_five : gfDiv (Config.params.field .rs) 0xF 5 = 3 :=
  (eq_gfDiv (Config.params_wf.primitive .rs) (by decide) (by decide) (by decide) gfMul_rs_three_five).symm

theorem gfPowLoop_rs_three_two : gfPowLoop (Config.params.field .rs) 3 2 = 5 := by
  have hprim := Config.params_wf.primitive .rs
  have hsquare : gfMul (Config.params.field .rs) 3 3 = 5 := gfMul_eq_clmul hprim (by decide)
  rw [gfPowLoop, gfPowLoop, gfPowLoop, one_gfMul hprim (by decide), hsquare]

end Sys2Proof.Machine

open Sys2Proof Sys2Proof.Machine Sys2Proof.Gf

/-- Settles O11: each answer of the three commands is a response alone or `gfResult`. -/
theorem gfCommandsChangeOnlyResAndStatus : Obligations.GfCommandsChangeOnlyResAndStatus := by
  rintro i fld s (rfl | rfl | rfl)
  · exact writesResAndResponse_execGfMul fld s
  · exact writesResAndResponse_execGfDiv fld s
  · exact writesResAndResponse_execGfPow fld s

/-- Settles O12: the commands' answers out of range, and GF_POW's for a base in range. -/
theorem gfOperandsAreRangeChecked : Obligations.GfOperandsAreRangeChecked :=
  fun _ _ => ⟨fun h => ⟨exec_gfMul_of_out_of_range h, exec_gfDiv_of_out_of_range h⟩, exec_gfPow_of_out_of_range,
    fun ha => ⟨_, exec_gfPow_of_lt ha⟩⟩

/-- Settles O13: the product is `gfMul`, an element of the field (`gfMul_lt`), with its zero and unit laws; 3 · 5 needs no
reduction. -/
theorem gfMulWritesFieldProduct : Obligations.GfMulWritesFieldProduct := by
  refine ⟨rfl, rfl, rfl, rfl, rfl, rfl, fun fld s => ⟨exec_gfMul_of_out_of_range, fun ha hb => ?_⟩, fun s ha hb => ?_⟩
  · have hprim := Config.params_wf.primitive fld
    have hlt := gfMul_lt hprim s.opa.toNat s.opb.toNat
    refine ⟨_, exec_gfMul_of_lt ha hb, rfl, hlt, lt_two_pow_32_of_lt_size hlt, fun hzero => ?_, fun hone => ?_⟩
    · exact (gfMul_eq_zero hprim ha hb).mpr hzero
    · rw [hone, one_gfMul hprim hb]
  · have hv : gfMul (Config.params.field .rs) s.opa.toNat s.opb.toNat = 0xF := by rw [ha, hb]; exact gfMul_rs_three_five
    rw [exec_gfMul_of_lt (by rw [ha]; decide) (by rw [hb]; decide), hv]
    rfl

/-- Settles O16: the quotient is `gfDiv`, by `gfMul_gfDiv` a solution and by `eq_gfDiv` the only one; 15 / 5 is 3 because
3 · 5 is 15. -/
theorem gfDivWritesUniqueQuotient : Obligations.GfDivWritesUniqueQuotient := by
  refine ⟨rfl, rfl, rfl, rfl, rfl, rfl,
    fun fld s => ⟨exec_gfDiv_of_out_of_range, exec_gfDiv_zero, fun ha hb hne => ?_⟩, fun s ha hb => ?_⟩
  · have hprim := Config.params_wf.primitive fld
    have hlt := gfDiv_lt hprim s.opa.toNat s.opb.toNat
    have h0 : s.opb.toNat ≠ 0 := fun h => hne (BitVec.eq_of_toNat_eq h)
    exact ⟨_, exec_gfDiv_of_lt ha hb h0, hlt, lt_two_pow_32_of_lt_size hlt, gfMul_gfDiv hprim ha hb h0,
      fun _ hc => eq_gfDiv hprim hb h0 hc⟩
  · have hv : gfDiv (Config.params.field .rs) s.opa.toNat s.opb.toNat = 3 := by rw [ha, hb]; exact gfDiv_rs_fifteen_five
    rw [exec_gfDiv_of_lt (by rw [ha]; decide) (by rw [hb]; decide) (by rw [hb]; decide), hv]
    rfl

/-- Settles O19: square-and-multiply gives the loop's value (`gfPow_eq_loop` in `exec_gfPow_of_lt`); 3 · 3 needs no reduction. -/
theorem gfPowMultipliesExponentTimes : Obligations.GfPowMultipliesExponentTimes := by
  refine ⟨rfl, rfl, rfl, rfl, rfl, rfl, fun fld s => ⟨exec_gfPow_of_out_of_range, exec_gfPow_of_lt⟩, fun s ha hb => ?_⟩
  have hv : gfPowLoop (Config.params.field .rs) s.opa.toNat s.opb.toNat = 5 := by rw [ha, hb]; exact gfPowLoop_rs_three_two
  rw [exec_gfPow_of_lt (by rw [ha]; decide), hv]
  rfl

end

section
/-! SUPPORT. The encoder commands by case (R145, R146): each scheme's command is the frame, and the frame's answer under each of
its checks. -/

namespace Sys2Proof.Machine

/-- The command of a scheme is the frame with that scheme (R146). -/
theorem exec_encoderOf (e : Ecc) (i : Nat) (s : State) : exec (encoderOf e i) s = encFrame Config.params e i s := by
  cases e <;> rfl

/-! ## What the frame answers -/

section

variable {P : Params} {e : Ecc} {i : Nat} {s : State} {c : Cfg}

theorem encFrame_notConfigured (hp : s.page? = none) : encFrame P e i s = .next (respond .notConfigured s) := by
  simp only [encFrame, hp]

theorem encFrame_schemeMismatch (hp : s.page? = some c) (he : c.ecc ≠ e) :
    encFrame P e i s = .next (respond .schemeMismatch s) := by
  simp only [encFrame, hp, if_pos he]

theorem encFrame_slotRange (hp : s.page? = some c) (he : c.ecc = e) (hi : (P.geom c).n ≤ i) :
    encFrame P e i s = .next (respond .slotRange s) := by
  simp only [encFrame, hp, if_neg (not_not.mpr he), if_pos hi]

theorem encFrame_blockLength (hp : s.page? = some c) (he : c.ecc = e) (hi : i < (P.geom c).n)
    (hlen : s.encLen.toNat ≠ (P.geom c).blockLen i) : encFrame P e i s = .next (respond .blockLength s) := by
  simp only [encFrame, hp, if_neg (not_not.mpr he), if_neg (Nat.not_le.mpr hi), if_pos hlen]

theorem encFrame_undefinedRead (hp : s.page? = some c) (he : c.ecc = e) (hi : i < (P.geom c).n)
    (hlen : s.encLen.toNat = (P.geom c).blockLen i) (hblk : encBlock ((P.geom c).blockLen i) s = none) :
    encFrame P e i s = .fault .undefinedRead := by
  simp only [encFrame, hp, if_neg (not_not.mpr he), if_neg (Nat.not_le.mpr hi), if_neg (not_not.mpr hlen), hblk]

theorem encFrame_encStore (hp : s.page? = some c) (he : c.ecc = e) (hi : i < (P.geom c).n)
    (hlen : s.encLen.toNat = (P.geom c).blockLen i) {blk : List Byte}
    (hblk : encBlock ((P.geom c).blockLen i) s = some blk) :
    encFrame P e i s = .next (encStore P e (P.geom c) i blk s) := by
  simp only [encFrame, hp, if_neg (not_not.mpr he), if_neg (Nat.not_le.mpr hi), if_neg (not_not.mpr hlen), hblk]

end

end Sys2Proof.Machine

open Sys2Proof Sys2Proof.Machine

/-- Settles O22: each clause is the frame's answer under that check; on success the parity has P bytes (WF_PARAMS), so that it is
stored, and the slot is one of the sixteen. -/
theorem encoderCommandFollowsTheFrame : Obligations.EncoderCommandFollowsTheFrame := by
  refine ⟨fun blk => ⟨rfl, rfl, rfl, rfl⟩, fun e i s => ?_⟩
  rw [exec_encoderOf]
  refine ⟨fun hphase => encFrame_notConfigured (page?_of_noPage hphase), fun c hphase hcfg hc => ?_⟩
  have hp : s.page? = some c := page?_eq_some.mpr ⟨hphase, hcfg⟩
  refine ⟨encFrame_schemeMismatch hp, encFrame_slotRange hp, encFrame_blockLength hp, fun he hi hlen hundef => ?_,
    fun he hi hlen blk hblk hmem => ?_⟩
  · exact encFrame_undefinedRead hp he hi hlen (Memory.getRange_eq_none.mpr hundef)
  · have hread : encBlock ((Config.params.geom c).blockLen i) s = some blk :=
      Memory.getRange_eq_some.mpr ⟨hblk, hblk ▸ hmem⟩
    have hpar : (Config.params.encode e blk).length = (Config.params.geom c).p :=
      he ▸ Config.params_wf.encode_length_page hc blk
    have hslot : i < 16 := hi.trans_le (Config.params_wf.geom c hc).n_le
    refine ⟨_, encFrame_encStore hp he hi hlen hread, ?_⟩
    rw [encStore_eq Config.params_wf hc he, ← hpar]
    refine ⟨rfl, ?_, rfl, storeParity_get? s i (Config.params.encode e blk)⟩
    exact (storeParity_slotValid s i i (Config.params.encode e blk)).trans (if_pos ⟨rfl, hslot⟩)

end

section
/-! SUPPORT. SEGMENT by case (R185): the entries SEG(c) and SEGTAB hold, and the command's two answers. -/

namespace Sys2Proof

/-- `SEG(c)` has an entry for each codeword and no other (R180). -/
theorem Geom.seg_getElem? (g : Geom) (i : Nat) :
    g.seg[i]? = if i < g.n then some (g.off i, g.dsz i) else none := by
  rw [Geom.seg, List.getElem?_map]
  by_cases hi : i < g.n
  · rw [if_pos hi, List.getElem?_range hi, Option.map_some]
  · have hnone : (List.range g.n)[i]? = none :=
      List.getElem?_eq_none (List.length_range.trans_le (Nat.not_lt.mp hi))
    rw [if_neg hi, hnone, Option.map_none]

namespace Machine

/-- SEGTAB[i] is SEG(c)[i] below N and zero from N up (R185). -/
theorem segTable_getElem (g : Geom) (i : Fin 16) :
    (segTable g)[i] = if i.val < g.n then ⟨BitVec.ofNat 32 (g.off i), BitVec.ofNat 32 (g.dsz i)⟩ else ⟨0, 0⟩ := by
  rw [segTable, Fin.getElem_fin, Vector.getElem_ofFn, Geom.seg_getElem?]
  by_cases hi : i.val < g.n
  · simp only [if_pos hi]
  · simp only [if_neg hi]

theorem exec_segment_of_noPage {s : State} (hphase : s.phase = .noPage) :
    exec .segment s = .next (respond .notConfigured s) :=
  congrArg Host.Outcome.next (segmentCommand_none (page?_of_noPage hphase))

theorem exec_segment_of_page {s : State} {c : Cfg} (hphase : s.phase ≠ .noPage) (hcfg : s.pagecfg = some c)
    (hc : Config.params.supported c = true) :
    exec .segment s = .next (respond .ok (storeSegments (Config.params.geom c) s)) :=
  congrArg Host.Outcome.next (segmentCommand_eq Config.params_wf (page?_eq_some.mpr ⟨hphase, hcfg⟩) hc)

end Machine

end Sys2Proof

open Sys2Proof Sys2Proof.Machine

/-- Settles O26: SEGMENT's two answers; on a Page the state it leaves holds `segTable`, whose entries are `segTable_getElem`. -/
theorem segmentWritesTheSegmentation : Obligations.SegmentWritesTheSegmentation :=
  ⟨rfl, fun _ => ⟨exec_segment_of_noPage, fun c hphase hcfg hc =>
    ⟨_, exec_segment_of_page hphase hcfg hc, rfl, segTable_getElem (Config.params.geom c)⟩⟩⟩

end

section
/-! SUPPORT. COMPOSE by case (R203): its answer under each of its checks, and the bytes of the page it stores (R196, R202). -/

namespace Sys2Proof.Machine

/-! ## INVALIDATE -/

theorem invalidate_get?_data (s : State) {k : Nat} (hk : k < dataCap) :
    (invalidate s).mem.get? (dataBase + k) = none := by
  rw [invalidate_get?, if_pos (by omega)]

theorem invalidate_get?_other (s : State) {a : Nat} (ha : a < dataBase ∨ dataBase + dataCap ≤ a) :
    (invalidate s).mem.get? a = s.mem.get? a := by
  rw [invalidate_get?, if_neg (by omega)]

/-! ## What COMPOSE answers -/

theorem slotsValid_eq_true_iff {n : Nat} {s : State} : slotsValid n s = true ↔ ∀ i, i < n → s.slotValid i = true := by
  simp only [slotsValid, List.all_eq_true, List.mem_range]

theorem slotsValid_eq_false_iff {n : Nat} {s : State} :
    slotsValid n s = false ↔ ∃ i, i < n ∧ s.slotValid i = false := by
  simp only [slotsValid, List.all_eq_false, List.mem_range, Bool.not_eq_true]

section

variable {P : Params} {s : State} {c : Cfg}

theorem composeCommand_notConfigured (hp : s.page? = none) :
    composeCommand P s = .next (respond .notConfigured s) := by
  simp only [composeCommand, hp]

theorem composeCommand_invalidInput (hp : s.page? = some c) (hlen : s.rawLen.toNat ≠ c.page) :
    composeCommand P s = .next (respond .invalidInput (invalidate s)) := by
  simp only [composeCommand, hp, if_pos hlen]

theorem composeCommand_parityMissing (hp : s.page? = some c) (hlen : s.rawLen.toNat = c.page)
    (hslots : slotsValid (P.geom c).n s = false) :
    composeCommand P s = .next (respond .parityMissing (invalidate s)) := by
  simp only [composeCommand, hp, if_neg (not_not.mpr hlen), if_pos hslots]

theorem composeCommand_undefinedRead (hp : s.page? = some c) (hlen : s.rawLen.toNat = c.page)
    (hslots : slotsValid (P.geom c).n s = true) (hraw : rawPage c s = none) :
    composeCommand P s = .fault .undefinedRead := by
  simp only [composeCommand, hp, if_neg (not_not.mpr hlen), hslots, Bool.true_eq_false, if_false, hraw]

theorem composeCommand_finishPage (hp : s.page? = some c) (hlen : s.rawLen.toNat = c.page)
    (hslots : slotsValid (P.geom c).n s = true) {raw : List Byte} (hraw : rawPage c s = some raw)
    {par : List (List Byte)} (hpar : slotParities (P.geom c).p s (P.geom c).n = some par) :
    composeCommand P s = .next (finishPage c ((P.geom c).compose raw par) s) := by
  simp only [composeCommand, hp, if_neg (not_not.mpr hlen), hslots, Bool.true_eq_false, if_false, hraw, hpar]

end

/-! ## The page it stores -/

theorem Memory.exists_getRange {m : Memory} {a n : Nat} (h : ∀ k, k < n → (m.get? (a + k)).isSome = true) :
    ∃ bs, m.getRange a n = some bs := by
  rw [← Option.ne_none_iff_exists']
  intro hnone
  obtain ⟨k, hk, hundef⟩ := Memory.getRange_eq_none.mp hnone
  simpa [hundef] using h k hk

section

variable {s : State} {c : Cfg} {raw : List Byte} {par : List (List Byte)}

theorem rawPage_getElem? (h : rawPage c s = some raw) {j : Nat} (hj : j < c.page) :
    raw[j]? = s.mem.get? (rawBase + j) :=
  ((Memory.getRange_eq_some.mp h).2 j hj).symm

theorem exists_slotParities {p n : Nat}
    (h : ∀ i k, i < n → k < p → (s.mem.get? (slotBase i + k)).isSome = true) :
    ∃ par, slotParities p s n = some par :=
  slotParities_eq_some fun i hi => Memory.exists_getRange fun k hk => h i k hi hk

theorem slotParities_block_length {p n : Nat} (h : slotParities p s n = some par) {q : List Byte} (hq : q ∈ par) :
    q.length = p := by
  obtain ⟨hlen, hblocks⟩ := slotParities_some h
  obtain ⟨i, hi, rfl⟩ := List.mem_iff_getElem.mp hq
  obtain ⟨q, hget, hread⟩ := hblocks i (hlen ▸ hi)
  rw [List.getElem?_eq_getElem hi, Option.some.injEq] at hget
  exact hget ▸ Memory.getRange_length hread

/-- The byte a layout source stands for when COMPOSE takes the page image from RAW and the parity from PARBUF (R196, R202). -/
def storedByte (s : State) : LayoutSrc → Option Byte
  | .data j => s.mem.get? (rawBase + j)
  | .par i k => s.mem.get? (slotBase i + k)
  | .fill => some fillByte
  | .const v => some v

theorem byte_eq_storedByte {g : Geom} (hg : g.WFLayout c) (hraw : rawPage c s = some raw)
    (hpar : slotParities g.p s g.n = some par) {x : LayoutSrc} (hx : x ∈ g.layout) :
    x.byte raw par = storedByte s x := by
  cases x with
  | data j => exact rawPage_getElem? hraw (hg.data_lt hx)
  | par i k =>
    obtain ⟨hi, hk⟩ := hg.par_lt hx
    obtain ⟨q, hget, hread⟩ := (slotParities_some hpar).2 i hi
    have hbyte := (Memory.getRange_eq_some.mp hread).2 k hk
    simp only [LayoutSrc.byte, storedByte, hget, Option.bind_some, hbyte]
  | fill => rfl
  | const v => rfl

end

/-- On a supported Page whose RAW and parity are read, COMPOSE succeeds with a page of `page_size + oob_size` bytes, of which
byte p is what LAYOUT[p] stands for (R203). -/
theorem composeCommand_ok {P : Params} (hP : P.WF) {s : State} {c : Cfg} (hc : P.supported c = true)
    (hp : s.page? = some c) (hlen : s.rawLen.toNat = c.page) (hslots : slotsValid (P.geom c).n s = true)
    {raw : List Byte} (hraw : rawPage c s = some raw) {par : List (List Byte)}
    (hpar : slotParities (P.geom c).p s (P.geom c).n = some par) :
    ∃ out, composeCommand P s = .next (respond .ok (storeData out s)) ∧ out.length = c.total ∧
      ∀ p, p < c.total → ∃ x b, (P.geom c).layout[p]? = some x ∧ storedByte s x = some b ∧ out[p]? = some b := by
  have hg := (hP.geom c hc).layout
  have hrawLen : raw.length = c.page := Memory.getRange_length hraw
  have hparLen : par.length = (P.geom c).n := (slotParities_some hpar).1
  have hblocks : ∀ q ∈ par, q.length = (P.geom c).p := fun q hq => slotParities_block_length hpar hq
  have hout := hg.compose_length hrawLen hparLen hblocks
  refine ⟨(P.geom c).compose raw par, ?_, hout, fun p hpt => ?_⟩
  · rw [composeCommand_finishPage hp hlen hslots hraw hpar, finishPage_eq hout]
  · have hx := List.getElem?_eq_getElem (hg.length.symm ▸ hpt : p < (P.geom c).layout.length)
    have hbyte := hg.compose_getElem? hrawLen hparLen hblocks p
    rw [hx, Option.bind_some, byte_eq_storedByte hg hraw hpar (List.getElem_mem _)] at hbyte
    have hget := List.getElem?_eq_getElem (hout.symm ▸ hpt : p < ((P.geom c).compose raw par).length)
    exact ⟨_, _, hx, hbyte.symm.trans hget, hget⟩

theorem storeData_get?_data {out : List Byte} (hout : out.length ≤ dataCap) (s : State) {p : Nat} (hp : p < dataCap) :
    (storeData out s).mem.get? (dataBase + p) = out[p]? := by
  rw [storeData_get? _ _ _ hout, if_pos (by omega), Nat.add_sub_cancel_left]

theorem storeData_get?_other {out : List Byte} (hout : out.length ≤ dataCap) (s : State) {a : Nat}
    (ha : a < dataBase ∨ dataBase + dataCap ≤ a) : (storeData out s).mem.get? a = s.mem.get? a := by
  rw [storeData_get? _ _ _ hout, if_neg (by omega)]

end Sys2Proof.Machine

open Sys2Proof Sys2Proof.Machine

/-- Settles O29: each failing clause is COMPOSE's answer under that check; on success the page it stores is `composeCommand_ok`'s,
which fits DATA, so that DATA shows it byte by byte and holds nothing above it. -/
theorem composeWritesTheLayout : Obligations.ComposeWritesTheLayout := by
  refine ⟨rfl, fun s => ⟨rfl, fun _ => invalidate_get?_data s, fun _ => invalidate_get?_other s⟩,
    fun s => ⟨fun hphase => composeCommand_notConfigured (page?_of_noPage hphase), fun c hphase hcfg hc => ?_⟩⟩
  have hp : s.page? = some c := page?_eq_some.mpr ⟨hphase, hcfg⟩
  refine ⟨composeCommand_invalidInput hp, fun hlen hslot => ?_, fun hlen hslots hundef => ?_,
    fun hlen hslots hrawDef hparDef => ?_⟩
  · exact composeCommand_parityMissing hp hlen (slotsValid_eq_false_iff.mpr hslot)
  · exact composeCommand_undefinedRead hp hlen (slotsValid_eq_true_iff.mpr hslots) (Memory.getRange_eq_none.mpr hundef)
  · obtain ⟨raw, hraw⟩ : ∃ raw, rawPage c s = some raw := Memory.exists_getRange hrawDef
    obtain ⟨par, hpar⟩ := exists_slotParities hparDef
    obtain ⟨out, hexec, hout, hbytes⟩ :=
      composeCommand_ok Config.params_wf hc hp hlen (slotsValid_eq_true_iff.mpr hslots) hraw hpar
    have hcap : out.length ≤ dataCap := hout.trans_le (total_le_dataCap c)
    refine ⟨_, hexec, by rw [← hout]; rfl, fun p hpt => ?_, fun p hpt hpd => ?_,
      fun _ => storeData_get?_other hcap s⟩
    · obtain ⟨x, b, hx, hsrc, hget⟩ := hbytes p hpt
      refine ⟨b, (storeData_get?_data hcap s (hpt.trans_le (total_le_dataCap c))).trans hget, ?_⟩
      rw [hx]
      cases x with
      | data j => exact hsrc
      | par i k => exact hsrc
      | fill => exact (Option.some.inj hsrc).symm
      | const v => exact (Option.some.inj hsrc).symm
    · exact (storeData_get?_data hcap s hpd).trans (List.getElem?_eq_none (hout.trans_le hpt))

end

section
/-! SUPPORT. PROGRAM by case (R223): its answer under each of its checks, and the state it leaves when it completes. -/

namespace Sys2Proof.Machine

/-! ## What PROGRAM answers -/

/-- The state a completed PROGRAM leaves (R223): SEGTAB, every codeword's parity in its slot, PAR_LEN, and the composed page. -/
def programmedPage (P : Params) (c : Cfg) (raw : List Byte) (s : State) : State :=
  respond .ok (storeData ((P.geom c).compose raw (pageParities P c raw))
    { storeAll P c raw (List.range (P.geom c).n) (storeSegments (P.geom c) s) with
      parLen := BitVec.ofNat 32 (P.geom c).p })

section

variable {P : Params} {s : State} {c : Cfg}

theorem programCommand_notConfigured (hp : s.page? = none) :
    programCommand P s = .next (respond .notConfigured s) := by
  simp only [programCommand, hp]

theorem programCommand_invalidInput (hp : s.page? = some c) (hlen : s.rawLen.toNat ≠ c.page) :
    programCommand P s = .next (respond .invalidInput (invalidate s)) := by
  simp only [programCommand, hp, if_pos hlen]

theorem programCommand_undefinedRead (hp : s.page? = some c) (hlen : s.rawLen.toNat = c.page)
    (hraw : rawPage c s = none) : programCommand P s = .fault .undefinedRead := by
  simp only [programCommand, hp, if_neg (not_not.mpr hlen), hraw]

theorem programCommand_programPage (hp : s.page? = some c) (hlen : s.rawLen.toNat = c.page) {raw : List Byte}
    (hraw : rawPage c s = some raw) : programCommand P s = .next (programPage P c raw s) := by
  simp only [programCommand, hp, if_neg (not_not.mpr hlen), hraw]

/-- On a supported Page whose RAW is read, PROGRAM completes. -/
theorem programCommand_programmedPage (hP : P.WF) (hc : P.supported c = true) (hp : s.page? = some c)
    (hlen : s.rawLen.toNat = c.page) {raw : List Byte} (hraw : rawPage c s = some raw) :
    programCommand P s = .next (programmedPage P c raw s) := by
  rw [programCommand_programPage hp hlen hraw, programPage_eq hP hc (Memory.getRange_length hraw), programmedPage]

/-- On a supported Page the only error response is INVALID_INPUT_ERROR, which keeps everything but DATA and the phase (R226). -/
theorem programCommand_error (hP : P.WF) (hc : P.supported c = true) (hp : s.page? = some c) {t : State}
    (h : programCommand P s = .next t) (hfail : t.resp ≠ .ok) : t = respond .invalidInput (invalidate s) := by
  by_cases hlen : s.rawLen.toNat = c.page
  · cases hraw : rawPage c s with
    | none =>
      rw [programCommand_undefinedRead hp hlen hraw] at h
      cases h
    | some raw =>
      rw [programCommand_programmedPage hP hc hp hlen hraw] at h
      cases h
      exact absurd rfl hfail
  · rw [programCommand_invalidInput hp hlen] at h
    exact (Host.Outcome.next.inj h).symm

end

/-! ## The state it leaves -/

theorem pageParities_getElem? (P : Params) (c : Cfg) (raw : List Byte) {i : Nat} (hi : i < (P.geom c).n) :
    (pageParities P c raw)[i]? = some (P.encode c.ecc ((P.geom c).block i raw)) := by
  rw [pageParities, List.getElem?_map, List.getElem?_range hi, Option.map_some]

/-- A parity source of a codeword of the Page is a byte of that codeword's parity block (R195, R223). -/
theorem byte_pageParities_par {P : Params} {c : Cfg} {raw : List Byte} {i k : Nat} (hi : i < (P.geom c).n) :
    (LayoutSrc.par i k).byte raw (pageParities P c raw) = (P.encode c.ecc ((P.geom c).block i raw))[k]? := by
  rw [LayoutSrc.byte, pageParities_getElem? P c raw hi, Option.bind_some]

section

variable {P : Params} (hP : P.WF) {c : Cfg} (hc : P.supported c = true) {raw : List Byte} (hraw : raw.length = c.page)
  (s : State)
include hP hc

/-- A parity byte lies in PARBUF, below DATA. -/
theorem slotBase_add_lt_dataBase {i k : Nat} (hi : i < (P.geom c).n) (hk : k < (P.geom c).p) :
    slotBase i + k < dataBase := by
  have hn : (P.geom c).n ≤ 16 := (hP.geom c hc).n_le
  have hp : (P.geom c).p ≤ 64 := (hP.geom c hc).p_le
  unfold slotBase parBase parCap dataBase
  omega

theorem programmedPage_slotValid (i : Nat) :
    (programmedPage P c raw s).slotValid i = true ↔ i < (P.geom c).n ∨ s.slotValid i = true := by
  have hn : (P.geom c).n ≤ 16 := (hP.geom c hc).n_le
  refine (storeAll_slotValid P c raw (storeSegments (P.geom c) s) (P.geom c).n i).trans (or_congr_left ?_)
  exact and_iff_left_of_imp fun hi => hi.trans_le hn

include hraw

/-- The composed page has `page_size + oob_size` bytes (R196). -/
theorem compose_pageParities_length : ((P.geom c).compose raw (pageParities P c raw)).length = c.total :=
  (hP.geom c hc).layout.compose_length hraw (pageParities_length P c raw) fun _ => pageParities_mem hP hc

theorem programmedPage_fields : programmedPage P c raw s = { s with
    resp := .ok, phase := .programmed, dataLen := BitVec.ofNat 32 c.total, parLen := BitVec.ofNat 32 (P.geom c).p,
    segCount := BitVec.ofNat 32 (P.geom c).n, segtab := segTable (P.geom c),
    parValid := (programmedPage P c raw s).parValid, mem := (programmedPage P c raw s).mem } := by
  rw [← compose_pageParities_length hP hc hraw, programmedPage, storeAll_fields]
  rfl

theorem programmedPage_get?_data {p : Nat} (hp : p < dataCap) : (programmedPage P c raw s).mem.get? (dataBase + p) =
    ((P.geom c).compose raw (pageParities P c raw))[p]? :=
  storeData_get?_data ((compose_pageParities_length hP hc hraw).trans_le (total_le_dataCap c)) _ hp

/-- DATA byte p is what LAYOUT[p] stands for (R196, R223). -/
theorem programmedPage_get?_layout {p : Nat} (hp : p < c.total) :
    ∃ x b, (P.geom c).layout[p]? = some x ∧ x.byte raw (pageParities P c raw) = some b ∧
      (programmedPage P c raw s).mem.get? (dataBase + p) = some b := by
  have hg := (hP.geom c hc).layout
  have hx := List.getElem?_eq_getElem (hg.length.symm ▸ hp : p < (P.geom c).layout.length)
  obtain ⟨b, hb⟩ := Option.isSome_iff_exists.mp (hg.byte_isSome hraw (pageParities_length P c raw)
    (fun _ => pageParities_mem hP hc) (List.mem_of_getElem? hx))
  refine ⟨_, b, hx, hb, ?_⟩
  rw [programmedPage_get?_data hP hc hraw s (hp.trans_le (total_le_dataCap c)),
    hg.compose_getElem? hraw (pageParities_length P c raw) (fun _ => pageParities_mem hP hc), hx, Option.bind_some, hb]

/-- Outside DATA PROGRAM leaves what its loop leaves. -/
theorem programmedPage_get?_outside {a : Nat} (ha : a < dataBase ∨ dataBase + dataCap ≤ a) :
    (programmedPage P c raw s).mem.get? a =
      (storeAll P c raw (List.range (P.geom c).n) (storeSegments (P.geom c) s)).mem.get? a :=
  storeData_get?_other ((compose_pageParities_length hP hc hraw).trans_le (total_le_dataCap c)) _ ha

theorem programmedPage_get?_slot {i k : Nat} (hi : i < (P.geom c).n) (hk : k < (P.geom c).p) :
    (programmedPage P c raw s).mem.get? (slotBase i + k) = (P.encode c.ecc ((P.geom c).block i raw))[k]? := by
  rw [programmedPage_get?_outside hP hc hraw s (.inl (slotBase_add_lt_dataBase hP hc hi hk)),
    storeAll_get?_slot hP hc raw _ hi hk]

theorem programmedPage_get?_other {a : Nat} (ha : a < dataBase ∨ dataBase + dataCap ≤ a)
    (hslot : ∀ i k, i < (P.geom c).n → k < (P.geom c).p → a ≠ slotBase i + k) :
    (programmedPage P c raw s).mem.get? a = s.mem.get? a := by
  rw [programmedPage_get?_outside hP hc hraw s ha, storeAll_get?_other hP hc raw _ hslot]
  rfl

end

/-! ## RAW after INVALIDATE -/

/-- A page image has at most 4096 bytes (R11). -/
theorem page_le (c : Cfg) : c.page ≤ 4096 := by
  unfold Cfg.page PageSize.bytes
  split <;> decide

theorem toNat_ofNat_page (c : Cfg) : (BitVec.ofNat 32 c.page).toNat = c.page := by
  have hle := page_le c
  rw [BitVec.toNat_ofNat, Nat.mod_eq_of_lt (by omega)]

theorem rawPage_invalidate (c : Cfg) (s : State) : rawPage c (invalidate s) = rawPage c s := by
  have hle := page_le c
  refine Memory.getRange_congr fun k hk => invalidate_get?_other s (.inl ?_)
  unfold rawBase dataBase
  omega

end Sys2Proof.Machine

open Sys2Proof Sys2Proof.Machine

/-- Settles O36: the length is checked before a byte of RAW is read. -/
theorem programRejectsWrongLength : Obligations.ProgramRejectsWrongLength := by
  intro s c m hphase hcfg hlen
  exact ⟨programCommand_invalidInput (page?_eq_some.mpr ⟨hphase, hcfg⟩) (show s.rawLen.toNat ≠ c.page by omega), rfl⟩

/-- Settles O35: each failing clause is PROGRAM's answer under that check; a completed PROGRAM leaves `programmedPage`. -/
theorem programEncodesThePage : Obligations.ProgramEncodesThePage := by
  refine ⟨rfl, fun blk => ⟨rfl, rfl, rfl, rfl⟩,
    fun s => ⟨fun hphase => programCommand_notConfigured (page?_of_noPage hphase), fun c hphase hcfg hc => ?_⟩⟩
  have hp : s.page? = some c := page?_eq_some.mpr ⟨hphase, hcfg⟩
  have hP := Config.params_wf
  refine ⟨programCommand_invalidInput hp,
    fun hlen hundef => programCommand_undefinedRead hp hlen (Memory.getRange_eq_none.mpr hundef),
    fun hlen raw hraw hmem => ?_⟩
  have hread : rawPage c s = some raw := Memory.getRange_eq_some.mpr ⟨hraw, hmem⟩
  refine ⟨_, programCommand_programmedPage hP hc hp hlen hread, programmedPage_fields hP hc hraw s,
    programmedPage_slotValid hP hc s, fun i k => programmedPage_get?_slot hP hc hraw s, fun p hpt => ?_,
    fun p hpt hpd => ?_, fun a => programmedPage_get?_other hP hc hraw s⟩
  · obtain ⟨x, b, hx, hsrc, hget⟩ := programmedPage_get?_layout hP hc hraw s hpt
    refine ⟨b, hget, ?_⟩
    rw [hx]
    cases x with
    | data j => exact hsrc
    | par i k =>
      have hi := ((hP.geom c hc).layout.par_lt (List.mem_of_getElem? hx)).1
      exact (byte_pageParities_par hi).symm.trans hsrc
    | fill => exact (Option.some.inj hsrc).symm
    | const v => exact (Option.some.inj hsrc).symm
  · rw [programmedPage_get?_data hP hc hraw s hpd]
    exact List.getElem?_eq_none ((compose_pageParities_length hP hc hraw).trans_le hpt)

/-- Settles O37: the only error response is INVALID_INPUT_ERROR, which keeps the Page and RAW, so that with the length set PROGRAM
reads RAW and completes. -/
theorem failedProgramKeepsThePage : Obligations.FailedProgramKeepsThePage := by
  intro s t c hphase hcfg hc h hfail
  obtain rfl := programCommand_error Config.params_wf hc (page?_eq_some.mpr ⟨hphase, hcfg⟩) h hfail
  refine ⟨rfl, rfl, hcfg, fun k => invalidate_get?_data s, fun hdef => ?_⟩
  obtain ⟨raw, hraw⟩ : ∃ raw, rawPage c s = some raw := Memory.exists_getRange hdef
  have hread : rawPage c (invalidate s) = some raw := (rawPage_invalidate c s).trans hraw
  have hpage : ({ respond .invalidInput (invalidate s) with rawLen := BitVec.ofNat 32 c.page } : State).page? = some c :=
    hcfg
  exact ⟨_, programCommand_programmedPage Config.params_wf hc hpage (toNat_ofNat_page c) hread, rfl, rfl⟩

/-- Settles O38: both runs read the same page image, and what a completed PROGRAM leaves there is given by it. -/
theorem programDependsOnPageAndRawOnly : Obligations.ProgramDependsOnPageAndRawOnly := by
  intro s s' c hphase hphase' hcfg hcfg' hc hlen hlen' hdef hsame
  have hP := Config.params_wf
  obtain ⟨raw, hraw⟩ : ∃ raw, rawPage c s = some raw := Memory.exists_getRange hdef
  have hraw' : rawPage c s' = some raw := (Memory.getRange_congr hsame).trans hraw
  have hl : raw.length = c.page := Memory.getRange_length hraw
  refine ⟨_, _, programCommand_programmedPage hP hc (page?_eq_some.mpr ⟨hphase, hcfg⟩) hlen hraw,
    programCommand_programmedPage hP hc (page?_eq_some.mpr ⟨hphase', hcfg'⟩) hlen' hraw', rfl, rfl, rfl, ?_, ?_, rfl,
    fun k hk => ?_, fun i k hi hk => ?_⟩
  · rw [programmedPage_fields hP hc hl s, programmedPage_fields hP hc hl s']
  · rw [programmedPage_fields hP hc hl s, programmedPage_fields hP hc hl s']
  · rw [programmedPage_get?_data hP hc hl s hk, programmedPage_get?_data hP hc hl s' hk]
  · rw [programmedPage_get?_slot hP hc hl s hi hk, programmedPage_get?_slot hP hc hl s' hi hk]

end

section
/-! SUPPORT. CONFIGURE by case (R217): its answer under each of its checks, as a function of CFG alone, and what it clears. -/

namespace Sys2Proof.Machine

/-! ## What CONFIGURE answers -/

section

variable {P : Params} {s : State} {c : Cfg}

theorem configureCommand_reservedOobSelect (hr : cfgRequest s.cfg = none) :
    configureCommand P s = .next (respond .reservedOobSelect (clearPage s)) := by
  simp only [configureCommand, hr]

theorem configureCommand_widebus (hr : cfgRequest s.cfg = some c) (hw : c.widebus = true) :
    configureCommand P s = .refused .widebusUnmodelled := by
  simp only [configureCommand, hr, if_pos hw]

theorem configureCommand_narrow (hr : cfgRequest s.cfg = some c) (hw : c.widebus = false) :
    configureCommand P s = .next (constructPage P c s) := by
  simp only [configureCommand, hr, hw, Bool.false_eq_true, if_false]

theorem constructPage_supported (hc : P.supported c = true) : constructPage P c s = respond .ok (latchPage P c s) :=
  if_pos hc

theorem constructPage_unsupported (hc : P.supported c = false) :
    constructPage P c s = respond .unsupportedTuple (clearPage s) :=
  if_neg (by simp [hc])

end

/-- A CFG value whose OOBS is not 3 requests a configuration, wide exactly when WB is 1 (R36). -/
theorem exists_cfgRequest {w : Word} (h : w.toNat / 2 % 4 ≠ 3) :
    ∃ c, cfgRequest w = some c ∧ (c.widebus = true ↔ w.toNat / 32 % 2 = 1) := by
  obtain ⟨c, hc⟩ := Option.ne_none_iff_exists'.mp (mt (cfgRequest_fields w).1.mp h)
  obtain ⟨-, -, -, hwide, -⟩ := (cfgRequest_fields w).2 c hc
  exact ⟨c, hc, hwide⟩

/-! ## What it leaves -/

theorem showsPage_clearPage (P : Params) (r : Response) (s : State) : (respond r (clearPage s)).showsPage P none :=
  ⟨rfl, rfl, rfl, rfl, rfl⟩

theorem showsPage_latchPage (P : Params) (r : Response) {s : State} {c : Cfg} (hr : cfgRequest s.cfg = some c) :
    (respond r (latchPage P c s)).showsPage P (some c) :=
  ⟨rfl, rfl, rfl, rfl, cfg_and_mask hr⟩

theorem configureCommand_mem {P : Params} {s t : State} (h : configureCommand P s = .next t) :
    t.mem = (clearPage s).mem := by
  rw [configureCommand_fields h]

theorem clearPage_get?_data (s : State) {k : Nat} (hk : k < dataCap) : (clearPage s).mem.get? (dataBase + k) = none := by
  rw [clearPage_get?, if_pos (.inl (by omega))]

theorem clearPage_get?_par (s : State) {k : Nat} (hk : k < slots * parCap) :
    (clearPage s).mem.get? (parBase + k) = none := by
  rw [clearPage_get?, if_pos (.inr (by omega))]

theorem clearPage_get?_other (s : State) {a : Nat} (hpar : a < parBase ∨ parBase + slots * parCap ≤ a)
    (hdata : a < dataBase ∨ dataBase + dataCap ≤ a) : (clearPage s).mem.get? a = s.mem.get? a := by
  rw [clearPage_get?, if_neg (by omega)]

/-- CONFIGURE's response follows from CFG alone (R218). -/
theorem configureCommand_resp_of_cfg {P : Params} {s s' t : State} (hcfg : s'.cfg = s.cfg)
    (h : configureCommand P s = .next t) : ∃ u, configureCommand P s' = .next u ∧ u.resp = t.resp := by
  rcases configureCommand_cases P s with ⟨hr, o⟩ | ⟨c, hr, ⟨-, o⟩ | ⟨hw, hc, o⟩ | ⟨hw, hc, o⟩⟩ <;>
    rw [o] at h <;> cases h
  · exact ⟨_, configureCommand_reservedOobSelect (hcfg ▸ hr), rfl⟩
  · exact ⟨_, configureCommand_narrow (hcfg ▸ hr) hw, by rw [constructPage_unsupported hc]; rfl⟩
  · exact ⟨_, configureCommand_narrow (hcfg ▸ hr) hw, by rw [constructPage_supported hc]; rfl⟩

/-- CONFIGURE ends in success, on a supported Page in UNPROGRAMMED, or in CONFIGURATION_ERROR, without a Page (R217). -/
theorem configureCommand_page {P : Params} {s t : State} (h : configureCommand P s = .next t) :
    (t.resp = .ok ∧ t.phase = .unprogrammed ∧ ∃ c, t.pagecfg = some c ∧ P.supported c = true) ∨
    (t.resp.err = 1 ∧ t.phase = .noPage ∧ t.pagecfg = none) := by
  rcases configureCommand_cases P s with ⟨-, o⟩ | ⟨c, -, ⟨-, o⟩ | ⟨-, -, o⟩ | ⟨-, hc, o⟩⟩ <;>
    rw [o] at h <;> cases h
  · exact .inr ⟨rfl, rfl, rfl⟩
  · exact .inr ⟨rfl, rfl, rfl⟩
  · exact .inl ⟨rfl, rfl, c, rfl, hc⟩

end Sys2Proof.Machine

open Sys2Proof Sys2Proof.Machine

/-- Settles O30: each answer is CONFIGURE's under that check; the frame is `configureCommand_fields` and CLEAR's memory. -/
theorem configureConstructsThePage : Obligations.ConfigureConstructsThePage := by
  refine ⟨rfl, fun s => ⟨fun hoobs => ?_, fun hoobs hwb => ?_, fun hoobs hwb => ?_, fun t h => ?_⟩⟩
  · exact ⟨_, configureCommand_reservedOobSelect ((cfgRequest_fields s.cfg).1.mpr hoobs), rfl, rfl, rfl,
      showsPage_clearPage _ _ s⟩
  · obtain ⟨c, hr, hwide⟩ := exists_cfgRequest hoobs
    exact configureCommand_widebus hr (hwide.mpr hwb)
  · obtain ⟨c, hr, hwide⟩ := exists_cfgRequest hoobs
    obtain ⟨hpage, hoob, hecc, -, -⟩ := (cfgRequest_fields s.cfg).2 c hr
    have hnarrow : c.widebus = false := by rw [← Bool.not_eq_true, hwide, hwb]; decide
    refine ⟨c, _, configureCommand_narrow hr hnarrow, hpage, hoob, hecc, hnarrow, fun hc => ?_, fun hc => ?_⟩
    · rw [constructPage_unsupported hc]
      exact ⟨rfl, rfl, rfl, showsPage_clearPage _ _ s⟩
    · rw [constructPage_supported hc]
      exact ⟨rfl, rfl, rfl, showsPage_latchPage _ _ hr⟩
  · have hmem := configureCommand_mem h
    refine ⟨by rw [configureCommand_fields h]; rfl, ?_, ?_, ?_⟩ <;> rw [hmem]
    · exact fun k => clearPage_get?_data s
    · exact fun k => clearPage_get?_par s
    · exact fun a => clearPage_get?_other s

/-- Settles O31: CFG in a configuration's own layout requests it (`cfgRequest_cfgWord`), and WF_PARAMS supports the five. -/
theorem fiveTuplesConstructAPage : Obligations.FiveTuplesConstructAPage := by
  refine ⟨fun c hfive s hcfg => ?_, fun c s hnarrow hcfg => ?_⟩ <;>
    have hr : cfgRequest s.cfg = some c := hcfg ▸ cfgRequest_cfgWord c
  · have hc := Config.params_wf.five c hfive
    refine ⟨_, configureCommand_narrow hr (Config.params_wf.narrow c hc), ?_⟩
    rw [constructPage_supported hc]
    exact ⟨rfl, rfl, rfl⟩
  · refine ⟨_, configureCommand_narrow hr hnarrow, ?_⟩
    cases hc : Config.params.supported c with
    | true => simp [constructPage_supported hc]
    | false => simp [constructPage_unsupported hc]

/-- Settles O33: a failed CONFIGURE leaves no Page, and its response follows from CFG alone. -/
theorem failedConfigureStaysFailed : Obligations.FailedConfigureStaysFailed := by
  intro s t h hfail
  obtain ⟨hok, -⟩ | ⟨herr, hphase, -⟩ := configureCommand_page h
  · exact absurd hok hfail
  · exact ⟨herr, by rw [configureCommand_fields h]; rfl, fun s' hcfg => configureCommand_resp_of_cfg hcfg h,
      programCommand_notConfigured (page?_of_noPage hphase)⟩

end

section
/-! SUPPORT. CFG outside CONFIGURE (R219): every other command gives from another CFG value the same outcome with that value kept,
and no other access changes the latched configuration. -/

namespace Sys2Proof.Machine

/-- The state with another value in CFG. -/
def withCfg (v : Word) (s : State) : State := { s with cfg := v }

/-- The outcome with f applied to its next state, if it has one. -/
def mapNext (f : State → State) : Host.Outcome State Fault Refusal → Host.Outcome State Fault Refusal
  | .next t => .next (f t)
  | .fault r => .fault r
  | .refused r => .refused r

section

variable (v : Word) (s : State)

/-! ## Commands under another CFG value -/

theorem exec_gfMul_withCfg (fld : Fld) : exec (.gfMul fld) (withCfg v s) = mapNext (withCfg v) (exec (.gfMul fld) s) := by
  rcases gfMulCommand_cases Config.params fld s with ⟨-, h⟩ | ⟨-, ha, hb⟩
  · rw [exec_gfMul_of_out_of_range h]; exact exec_gfMul_of_out_of_range h
  · rw [exec_gfMul_of_lt ha hb]; exact exec_gfMul_of_lt ha hb

theorem exec_gfDiv_withCfg (fld : Fld) : exec (.gfDiv fld) (withCfg v s) = mapNext (withCfg v) (exec (.gfDiv fld) s) := by
  rcases gfDivCommand_cases Config.params fld s with ⟨-, h⟩ | ⟨-, ha, h0⟩ | ⟨-, ha, hb, h0⟩
  · rw [exec_gfDiv_of_out_of_range h]; exact exec_gfDiv_of_out_of_range h
  · have hzero : s.opb = 0 := BitVec.eq_of_toNat_eq h0
    rw [exec_gfDiv_zero ha hzero]; exact exec_gfDiv_zero ha hzero
  · rw [exec_gfDiv_of_lt ha hb h0]; exact exec_gfDiv_of_lt ha hb h0

theorem exec_gfPow_withCfg (fld : Fld) : exec (.gfPow fld) (withCfg v s) = mapNext (withCfg v) (exec (.gfPow fld) s) := by
  rcases gfPowCommand_cases Config.params fld s with ⟨-, h⟩ | ⟨-, ha⟩
  · rw [exec_gfPow_of_out_of_range h]; exact exec_gfPow_of_out_of_range h
  · rw [exec_gfPow_of_lt ha]; exact exec_gfPow_of_lt ha

theorem encStore_withCfg (P : Params) (e : Ecc) (g : Geom) (i : Nat) (blk : List Byte) :
    encStore P e g i blk (withCfg v s) = withCfg v (encStore P e g i blk s) := by
  unfold encStore
  split <;> rfl

theorem encFrame_withCfg (P : Params) (e : Ecc) (i : Nat) :
    encFrame P e i (withCfg v s) = mapNext (withCfg v) (encFrame P e i s) := by
  rcases encFrame_cases P e i s with ⟨hp, o⟩ | ⟨c, hp, ⟨he, o⟩ | ⟨he, hi, o⟩ | ⟨he, hi, hlen, o⟩ | ⟨he, hi, hlen, hblk, o⟩ |
    ⟨he, hi, hlen, blk, hblk, o⟩⟩ <;> rw [o]
  · exact encFrame_notConfigured hp
  · exact encFrame_schemeMismatch hp he
  · exact encFrame_slotRange hp he hi
  · exact encFrame_blockLength hp he hi hlen
  · exact encFrame_undefinedRead hp he hi hlen hblk
  · rw [mapNext, ← encStore_withCfg]
    exact encFrame_encStore (s := withCfg v s) hp he hi hlen hblk

theorem segmentCommand_withCfg (P : Params) : segmentCommand P (withCfg v s) = withCfg v (segmentCommand P s) := by
  have hp : (withCfg v s).page? = s.page? := rfl
  unfold segmentCommand
  rw [hp]
  split
  · rfl
  · split <;> rfl

theorem slotParities_withCfg (p n : Nat) : slotParities p (withCfg v s) n = slotParities p s n := by
  induction n with
  | zero => rfl
  | succ n ih => rw [slotParities, slotParities, ih]; rfl

theorem finishPage_withCfg (c : Cfg) (out : List Byte) : finishPage c out (withCfg v s) = withCfg v (finishPage c out s) := by
  unfold finishPage
  split <;> rfl

theorem composeCommand_withCfg (P : Params) :
    composeCommand P (withCfg v s) = mapNext (withCfg v) (composeCommand P s) := by
  have hp : (withCfg v s).page? = s.page? := rfl
  have hslots (n : Nat) : slotsValid n (withCfg v s) = slotsValid n s := rfl
  have hraw (c : Cfg) : rawPage c (withCfg v s) = rawPage c s := rfl
  have hlen : (withCfg v s).rawLen = s.rawLen := rfl
  unfold composeCommand
  simp only [hp, hslots, hraw, hlen, slotParities_withCfg, finishPage_withCfg]
  split
  · rfl
  split
  · rfl
  split
  · rfl
  split <;> rfl

/-- PROGRAM's loop takes CFG along, to its end or to where it stops. -/
theorem encodeSlots_withCfg (P : Params) (c : Cfg) (raw : List Byte) (is : List Nat) :
    encodeSlots P c raw is (withCfg v s) = ((encodeSlots P c raw is s).map (withCfg v)).mapError (withCfg v) := by
  induction is generalizing s with
  | nil => rfl
  | cons i is ih =>
    unfold encodeSlots
    split
    · rfl
    split
    · rfl
    · exact ih (storeParity i (P.encode c.ecc ((P.geom c).block i raw)) s)

theorem programPage_withCfg (P : Params) (c : Cfg) (raw : List Byte) :
    programPage P c raw (withCfg v s) = withCfg v (programPage P c raw s) := by
  have hseg : storeSegments (P.geom c) (withCfg v s) = withCfg v (storeSegments (P.geom c) s) := rfl
  unfold programPage
  rw [hseg, encodeSlots_withCfg]
  split
  · cases encodeSlots P c raw (List.range (P.geom c).n) (storeSegments (P.geom c) s) with
    | error t => rfl
    | ok t => exact finishPage_withCfg v { t with parLen := BitVec.ofNat 32 (P.geom c).p } c _
  · rfl

theorem programCommand_withCfg (P : Params) :
    programCommand P (withCfg v s) = mapNext (withCfg v) (programCommand P s) := by
  rcases programCommand_cases P s with ⟨hp, o⟩ | ⟨c, hp, ⟨hlen, o⟩ | ⟨hlen, hraw, o⟩ | ⟨hlen, raw, hraw, o⟩⟩ <;> rw [o]
  · exact programCommand_notConfigured hp
  · exact programCommand_invalidInput hp hlen
  · exact programCommand_undefinedRead hp hlen hraw
  · rw [mapNext, ← programPage_withCfg]
    exact programCommand_programPage (s := withCfg v s) hp hlen hraw

/-- No command but CONFIGURE looks at CFG or changes it (R219). -/
theorem exec_withCfg {i : Instr} (hi : i ≠ .configure) : exec i (withCfg v s) = mapNext (withCfg v) (exec i s) := by
  cases i with
  | gfMul fld => exact exec_gfMul_withCfg v s fld
  | gfDiv fld => exact exec_gfDiv_withCfg v s fld
  | gfPow fld => exact exec_gfPow_withCfg v s fld
  | rsEnc slot => exact encFrame_withCfg v s _ _ slot
  | rsSblEnc slot => exact encFrame_withCfg v s _ _ slot
  | bch4Enc slot => exact encFrame_withCfg v s _ _ slot
  | bch8Enc slot => exact encFrame_withCfg v s _ _ slot
  | segment => exact congrArg Host.Outcome.next (segmentCommand_withCfg v s _)
  | compose => exact composeCommand_withCfg v s _
  | configure => exact absurd rfl hi
  | program => exact programCommand_withCfg v s _

end

/-! ## What keeps the latched configuration and the phase -/

theorem WritesResAndResponse.keepsPage {s t : State} (h : WritesResAndResponse s (.next t)) :
    t.pagecfg = s.pagecfg ∧ t.phase = s.phase := by
  obtain ⟨v, r, ht, -⟩ := h
  cases ht
  exact ⟨rfl, rfl⟩

theorem encFrame_keepsPage {P : Params} {e : Ecc} {i : Nat} {s t : State} (h : encFrame P e i s = .next t) :
    t.pagecfg = s.pagecfg ∧ t.phase = s.phase := by
  rw [encFrame_fields h]
  exact ⟨rfl, rfl⟩

/-- The Galois-field commands, the encoder commands and SEGMENT keep the latched configuration and the phase. -/
theorem exec_keepsPage {i : Instr} {s t : State} (hcompose : i ≠ .compose) (hconfigure : i ≠ .configure)
    (hprogram : i ≠ .program) (h : exec i s = .next t) : t.pagecfg = s.pagecfg ∧ t.phase = s.phase := by
  cases i with
  | gfMul fld => exact (h ▸ writesResAndResponse_execGfMul fld s : WritesResAndResponse s (.next t)).keepsPage
  | gfDiv fld => exact (h ▸ writesResAndResponse_execGfDiv fld s : WritesResAndResponse s (.next t)).keepsPage
  | gfPow fld => exact (h ▸ writesResAndResponse_execGfPow fld s : WritesResAndResponse s (.next t)).keepsPage
  | rsEnc slot => exact encFrame_keepsPage h
  | rsSblEnc slot => exact encFrame_keepsPage h
  | bch4Enc slot => exact encFrame_keepsPage h
  | bch8Enc slot => exact encFrame_keepsPage h
  | segment =>
    rw [segmentCommand_fields (Host.Outcome.next.inj h)]
    exact ⟨rfl, rfl⟩
  | compose => exact absurd rfl hcompose
  | configure => exact absurd rfl hconfigure
  | program => exact absurd rfl hprogram

/-- COMPOSE and PROGRAM keep the latched configuration as well. -/
theorem exec_pagecfg {i : Instr} {s t : State} (hi : i ≠ .configure) (h : exec i s = .next t) : t.pagecfg = s.pagecfg := by
  by_cases hcompose : i = .compose
  · subst hcompose
    rw [composeCommand_fields h]
  by_cases hprogram : i = .program
  · subst hprogram
    rw [programCommand_fields h]
  exact (exec_keepsPage hcompose hi hprogram h).1

/-- What an access that issues no legal command word can change: what an access that is no command can, and the response. -/
theorem access_fields_of_not_command {x : HostAccess} {s t : State}
    (hx : ∀ n w i, decodeWord w = .ok i → x ≠ .write cmdAddr n w) (h : access x s = .next t) :
    t = { s with
      resp := t.resp, cfg := t.cfg, opa := t.opa, opb := t.opb, rawLen := t.rawLen, encLen := t.encLen, mem := t.mem,
      observed := t.observed } := by
  by_cases hc : ∀ n v, x ≠ .write cmdAddr n v
  · rw [access_fields_of_not_cmd hc h]
  push Not at hc
  obtain ⟨n, w, rfl⟩ := hc
  have hissue := issue_of_access_cmd h
  cases hd : decodeWord w with
  | ok i => exact absurd rfl (hx n w i hd)
  | error e =>
    rw [issue_error hd] at hissue
    cases hissue
    rfl

end Sys2Proof.Machine

open Sys2Proof Sys2Proof.Machine

/-- Settles O34: the write to CFG by register, the other commands by `exec_withCfg`, and CONFIGURE's two ends. -/
theorem cfgActsOnlyAtConfigure : Obligations.CfgActsOnlyAtConfigure := by
  refine ⟨fun s v => access_writeReg (r := .cfg) rfl (by decide) v s, fun i s v hi => ?_, fun i s t => exec_pagecfg,
    fun s t h => ?_, fun x s t hx h => by rw [access_fields_of_not_command hx h]⟩
  · refine (exec_withCfg v s hi).trans ?_
    cases exec i s <;> rfl
  · obtain ⟨hok, -, c, hcfg, hc⟩ | ⟨herr, -, hcfg⟩ := configureCommand_page h
    · refine ⟨by simp [hok, hcfg], fun c' hc' => ?_⟩
      rwa [← Option.some.inj (hcfg.symm.trans hc')]
    · have hfail : t.resp ≠ .ok := fun hok => by simp [hok, Response.err] at herr
      simp [hfail, hcfg]

end

section
/-! SUPPORT. The phases (R215): how COMPOSE and PROGRAM end. -/

namespace Sys2Proof.Machine

/-- The rows of R215 for COMPOSE and PROGRAM: without a Page NOT_CONFIGURED; on a Page success and PROGRAMMED, or an error and
UNPROGRAMMED. -/
def EndsPageCommand (s t : State) : Prop :=
  (s.phase = .noPage ∧ t.resp = .notConfigured ∧ t.phase = .noPage) ∨
  (s.phase ≠ .noPage ∧ t.resp = .ok ∧ t.phase = .programmed) ∨
  (s.phase ≠ .noPage ∧ t.resp ≠ .ok ∧ t.phase = .unprogrammed)

theorem State.InvOf.phase_of_page?_none {P : Params} {s : State} (h : s.InvOf P) (hp : s.page? = none) :
    s.phase = .noPage := by
  by_contra hphase
  rw [page?_of_phase hphase] at hp
  exact hphase (h.page_phase.mpr hp)

theorem endsPageCommand_notConfigured {s : State} (h : s.phase = .noPage) :
    EndsPageCommand s (respond .notConfigured s) :=
  .inl ⟨h, rfl, h⟩

theorem endsPageCommand_invalidate {s : State} {r : Response} (h : s.phase ≠ .noPage) (hr : r ≠ .ok) :
    EndsPageCommand s (respond r (invalidate s)) :=
  .inr (.inr ⟨h, hr, rfl⟩)

theorem endsPageCommand_finishPage {s : State} (h : s.phase ≠ .noPage) (c : Cfg) (out : List Byte) :
    EndsPageCommand s (finishPage c out s) := by
  unfold finishPage
  split
  · exact endsPageCommand_invalidate h (by decide)
  · exact .inr (.inl ⟨h, rfl, rfl⟩)

theorem endsPageCommand_programPage {s : State} (h : s.phase ≠ .noPage) (P : Params) (c : Cfg) (raw : List Byte) :
    EndsPageCommand s (programPage P c raw s) := by
  obtain ⟨hok, hphase⟩ | ⟨hfail, hphase, -⟩ := (programPage_fields P c raw s _ rfl).2
  · exact .inr (.inl ⟨h, hok, hphase⟩)
  · exact .inr (.inr ⟨h, hfail, hphase⟩)

theorem endsPageCommand_composeCommand {P : Params} {s t : State} (hinv : s.InvOf P) (h : composeCommand P s = .next t) :
    EndsPageCommand s t := by
  rcases composeCommand_cases P s with ⟨hp, o⟩ | ⟨c, hp, ⟨-, o⟩ | ⟨-, -, o⟩ | ⟨-, -, -, o⟩ | ⟨-, -, raw, par, -, -, o⟩⟩ <;>
    rw [o] at h <;> cases h
  · exact endsPageCommand_notConfigured (hinv.phase_of_page?_none hp)
  · exact endsPageCommand_invalidate (page?_eq_some.mp hp).1 (by decide)
  · exact endsPageCommand_invalidate (page?_eq_some.mp hp).1 (by decide)
  · exact endsPageCommand_finishPage (page?_eq_some.mp hp).1 c _

theorem endsPageCommand_programCommand {P : Params} {s t : State} (hinv : s.InvOf P) (h : programCommand P s = .next t) :
    EndsPageCommand s t := by
  rcases programCommand_cases P s with ⟨hp, o⟩ | ⟨c, hp, ⟨-, o⟩ | ⟨-, -, o⟩ | ⟨-, raw, -, o⟩⟩ <;> rw [o] at h <;> cases h
  · exact endsPageCommand_notConfigured (hinv.phase_of_page?_none hp)
  · exact endsPageCommand_invalidate (page?_eq_some.mp hp).1 (by decide)
  · exact endsPageCommand_programPage (page?_eq_some.mp hp).1 P c raw

end Sys2Proof.Machine

open Sys2Proof Sys2Proof.Machine

/-- Settles O53: CONFIGURE by its two ends, COMPOSE and PROGRAM by `EndsPageCommand`, every other command and access by what it
leaves alone. -/
theorem phaseChangesAreThoseOfTheTable : Obligations.PhaseChangesAreThoseOfTheTable := by
  refine ⟨rfl, fun w e s t hd h => ?_, fun x s t hx h => by rw [access_fields_of_not_cmd hx h], fun i s t hinv h => ?_⟩
  · rw [access_cmd, issue_error hd] at h
    cases h
    rfl
  · cases i with
    | configure =>
      obtain ⟨hok, hphase, -⟩ | ⟨herr, hphase, -⟩ := configureCommand_page h
      · exact .inl ⟨hok, hphase⟩
      · exact .inr ⟨herr, hphase⟩
    | compose => exact endsPageCommand_composeCommand hinv h
    | program => exact endsPageCommand_programCommand hinv h
    | _ => exact (exec_keepsPage (by simp) (by simp) (by simp) h).2

end

section
/-! SUPPORT. The decoder's answers by format (R87, R91, R93), and the command word as the sum of its fields (R86): decoding and
encoding undo each other. -/

namespace Sys2Proof

/-! ## The word of three fields (R86) -/

theorem commandWord_toNat {op fld slot : Nat} (hop : op < 16) (hfld : fld < 4) (hslot : slot < 16) :
    (commandWord op fld slot).toNat = op * 2 ^ 28 + fld * 2 ^ 26 + slot * 2 ^ 20 := by
  have hfields : (op <<< 28 ||| fld <<< 26 ||| slot <<< 20 : Nat) = op * 2 ^ 28 + fld * 2 ^ 26 + slot * 2 ^ 20 := by
    rw [← Nat.shiftLeft_add_eq_or_of_lt (by rw [Nat.shiftLeft_eq]; omega),
      show (op <<< 28 + fld <<< 26 : Nat) = (op * 4 + fld) <<< 26 by simp only [Nat.shiftLeft_eq]; omega,
      ← Nat.shiftLeft_add_eq_or_of_lt (by rw [Nat.shiftLeft_eq]; omega)]
    simp only [Nat.shiftLeft_eq]
    omega
  rw [← hfields, commandWord]
  simp only [BitVec.toNat_or, BitVec.toNat_shiftLeft, BitVec.toNat_ofNat, Nat.shiftLeft_eq]
  rw [Nat.mod_eq_of_lt (a := op) (by omega), Nat.mod_eq_of_lt (a := fld) (by omega), Nat.mod_eq_of_lt (a := slot) (by omega),
    Nat.mod_eq_of_lt (a := op * 2 ^ 28) (by omega), Nat.mod_eq_of_lt (a := fld * 2 ^ 26) (by omega),
    Nat.mod_eq_of_lt (a := slot * 2 ^ 20) (by omega)]

/-- A word without reserved bits is the command word of its fields. -/
theorem commandWord_fields {w : Word} (hhigh : resHighOf w = 0) (hlow : resLowOf w = 0) :
    commandWord (opcodeOf w) (fldOf w) (slotOf w) = w := by
  have hw := w.isLt
  rw [resHighOf_eq] at hhigh
  rw [resLowOf_eq] at hlow
  apply BitVec.eq_of_toNat_eq
  rw [opcodeOf_eq, fldOf_eq, slotOf_eq, commandWord_toNat (by omega) (by omega) (by omega)]
  omega

theorem slotOf_lt (w : Word) : slotOf w < 16 := by
  rw [slotOf_eq]
  omega

/-! ## What a legal word decodes to -/

theorem fldCode_of_fldSelect {n : Nat} {f : Fld} (h : fldSelect n = some f) : fldCode f = n := by
  unfold fldSelect at h
  split at h <;> cases h <;> rfl

/-- The bounds of an opcode of each format (R91). -/
theorem formatOf_bounds (op : Nat) :
    (formatOf op = some .g → 1 ≤ op ∧ op ≤ 3) ∧ (formatOf op = some .e → 4 ≤ op ∧ op ≤ 7) ∧
    (formatOf op = some .p → 8 ≤ op ∧ op ≤ 11) := by
  unfold formatOf
  split_ifs <;> simp <;> omega

/-- The instruction is well formed and its word has the fields of w. -/
def HasFieldsOf (w : Word) (i : Instr) : Prop :=
  i.wellFormed = true ∧ encode i = commandWord (opcodeOf w) (fldOf w) (slotOf w)

section

variable {w : Word} {i : Instr}

theorem hasFieldsOf_g (hfmt : formatOf (opcodeOf w) = some .g) (hres : ¬ (resHighOf w ≠ 0 ∨ resLowOf w ≠ 0))
    (h : decodeWord w = .ok i) : HasFieldsOf w i := by
  simp only [decodeWord, hfmt, if_neg hres] at h
  split at h
  · cases h
  rename_i hslot
  split at h
  · cases h
  rename_i f hfld
  have hcode := fldCode_of_fldSelect hfld
  obtain ⟨hlow, hhigh⟩ := (formatOf_bounds _).1 hfmt
  rw [HasFieldsOf, ← hcode, not_not.mp hslot]
  obtain hop | hop | hop : opcodeOf w = 1 ∨ opcodeOf w = 2 ∨ opcodeOf w = 3 := by omega
  all_goals
    rw [hop] at h ⊢
    cases h
    exact ⟨rfl, rfl⟩

theorem hasFieldsOf_e (hfmt : formatOf (opcodeOf w) = some .e) (hres : ¬ (resHighOf w ≠ 0 ∨ resLowOf w ≠ 0))
    (h : decodeWord w = .ok i) : HasFieldsOf w i := by
  simp only [decodeWord, hfmt, if_neg hres] at h
  split at h
  · cases h
  rename_i hfld
  have hslot : slotOk (slotOf w) = true := decide_eq_true (slotOf_lt w)
  obtain ⟨hlow, hhigh⟩ := (formatOf_bounds _).2.1 hfmt
  rw [HasFieldsOf, not_not.mp hfld]
  obtain hop | hop | hop | hop : opcodeOf w = 4 ∨ opcodeOf w = 5 ∨ opcodeOf w = 6 ∨ opcodeOf w = 7 := by omega
  all_goals
    rw [hop] at h ⊢
    cases h
    exact ⟨hslot, rfl⟩

theorem hasFieldsOf_p (hfmt : formatOf (opcodeOf w) = some .p) (hres : ¬ (resHighOf w ≠ 0 ∨ resLowOf w ≠ 0))
    (h : decodeWord w = .ok i) : HasFieldsOf w i := by
  simp only [decodeWord, hfmt, if_neg hres] at h
  split at h
  · cases h
  rename_i hfields
  obtain ⟨hfld, hslot⟩ := not_or.mp hfields
  obtain ⟨hlow, hhigh⟩ := (formatOf_bounds _).2.2 hfmt
  rw [HasFieldsOf, not_not.mp hfld, not_not.mp hslot]
  obtain hop | hop | hop | hop : opcodeOf w = 8 ∨ opcodeOf w = 9 ∨ opcodeOf w = 10 ∨ opcodeOf w = 11 := by omega
  all_goals
    rw [hop] at h ⊢
    cases h
    exact ⟨rfl, rfl⟩

/-- A word that decodes has no reserved bit, and the fields of the instruction's own word. -/
theorem hasFieldsOf_of_decodeWord (h : decodeWord w = .ok i) :
    resHighOf w = 0 ∧ resLowOf w = 0 ∧ HasFieldsOf w i := by
  cases hfmt : formatOf (opcodeOf w) with
  | none =>
    rw [decodeWord_reservedOpcode hfmt] at h
    cases h
  | some fmt =>
    have hres : ¬ (resHighOf w ≠ 0 ∨ resLowOf w ≠ 0) := fun hset => by
      rw [decodeWord_reservedBitSet hfmt hset] at h
      cases h
    obtain ⟨hhigh, hlow⟩ := not_or.mp hres
    refine ⟨not_not.mp hhigh, not_not.mp hlow, ?_⟩
    cases fmt with
    | g => exact hasFieldsOf_g hfmt hres h
    | e => exact hasFieldsOf_e hfmt hres h
    | p => exact hasFieldsOf_p hfmt hres h

end

/-! ## Encoded words -/

/-- An encoder command's word is read back with its slot, at each of the sixteen. -/
theorem decodeWord_encoder_words : ∀ slot < 16,
    decodeWord (encode (.rsEnc slot)) = .ok (.rsEnc slot) ∧
    decodeWord (encode (.rsSblEnc slot)) = .ok (.rsSblEnc slot) ∧
    decodeWord (encode (.bch4Enc slot)) = .ok (.bch4Enc slot) ∧
    decodeWord (encode (.bch8Enc slot)) = .ok (.bch8Enc slot) := by
  decide

theorem decodeWord_encode {i : Instr} (h : i.wellFormed = true) : decodeWord (encode i) = .ok i := by
  cases i with
  | gfMul fld => cases fld <;> rfl
  | gfDiv fld => cases fld <;> rfl
  | gfPow fld => cases fld <;> rfl
  | rsEnc slot => exact (decodeWord_encoder_words slot (of_decide_eq_true h)).1
  | rsSblEnc slot => exact (decodeWord_encoder_words slot (of_decide_eq_true h)).2.1
  | bch4Enc slot => exact (decodeWord_encoder_words slot (of_decide_eq_true h)).2.2.1
  | bch8Enc slot => exact (decodeWord_encoder_words slot (of_decide_eq_true h)).2.2.2
  | segment => rfl
  | compose => rfl
  | configure => rfl
  | program => rfl

end Sys2Proof

open Sys2Proof

/-- Settles O1: `decodeWord_encode`, by the instruction; the fields and the slots are finitely many. -/
theorem decodeReadsEncodedInstruction : Obligations.DecodeReadsEncodedInstruction :=
  fun _ => decodeWord_encode

/-- Settles O2: the instruction's word has the fields of the word decoded, and these determine it. -/
theorem decodedWordIsItsEncoding : Obligations.DecodedWordIsItsEncoding := by
  intro w i h
  obtain ⟨hhigh, hlow, hwf, hword⟩ := hasFieldsOf_of_decodeWord h
  exact ⟨hwf, hword.trans (commandWord_fields hhigh hlow)⟩

/-- Settles O4: each word is evaluated by the decoder. -/
theorem sampleWordsDecode : Obligations.SampleWordsDecode :=
  ⟨rfl, rfl, rfl, rfl, rfl, rfl, rfl, rfl, rfl, rfl, rfl, rfl⟩

end

section
/-! SUPPORT. Steps (R246, R248, R253): a step that faults or is refused sets its mark, and a marked state stays as it is; and what
CONFIGURE answers to a widebus request (R222). -/

namespace Sys2Proof.Machine

/-! ## Marked states -/

theorem run_eq_self {s : State} (h : s.after = s) (n : Nat) : State.run n s = s := by
  induction n with
  | zero => rfl
  | succ n ih => rw [State.run, h, ih]

theorem after_of_fault {s : State} {f : Fault} (h : step s = .fault f) : s.after = { s with faulted := some f } := by
  rw [State.after, h, State.mark]

theorem after_of_refused {s : State} {r : Refusal} (h : step s = .refused r) : s.after = { s with refused := some r } := by
  rw [State.after, h, State.mark]

theorem step_refused_mark {s : State} {r : Refusal} (h : s.refused = some r) : step s = .refused r := by
  simp only [step, nextStep, h]

theorem step_faulted_mark {s : State} {f : Fault} (hr : s.refused = none) (hf : s.faulted = some f) : step s = .fault f := by
  simp only [step, nextStep, hr, hf]

theorem refused_of_step_fault {s : State} {f : Fault} (h : step s = .fault f) : s.refused = none := by
  cases hr : s.refused with
  | none => rfl
  | some r =>
    rw [step_refused_mark hr] at h
    cases h

/-- A fault's mark makes every further step the same fault, without effect. -/
theorem faulted_state_is_stuck {s : State} {f : Fault} (hr : s.refused = none) (hf : s.faulted = some f) :
    step s = .fault f ∧ ∀ n, State.run n s = s := by
  have hstep := step_faulted_mark hr hf
  refine ⟨hstep, run_eq_self ?_⟩
  rw [after_of_fault hstep, ← hf]

/-- A refusal's mark makes every further step the same refusal, without effect. -/
theorem refused_state_is_stuck {s : State} {r : Refusal} (hr : s.refused = some r) :
    step s = .refused r ∧ ∀ n, State.run n s = s := by
  have hstep := step_refused_mark hr
  refine ⟨hstep, run_eq_self ?_⟩
  rw [after_of_refused hstep, ← hr]

/-! ## Commands as accesses -/

/-- The write of a well-formed instruction's word to CMD is its meaning. -/
theorem access_issueAt {i : Instr} (h : i.wellFormed = true) (s : State) : access (issueAt i) s = exec i s := by
  rw [issueAt, access_cmd, issue_ok (decodeWord_encode h)]

/-- With bit 5 set and bits 1 and 2 not both set, CFG has WB = 1 and OOBS not 3 (R36). -/
theorem cfg_bits {w : Word} (hwb : w.getLsbD 5 = true) (hoobs : ¬ (w.getLsbD 1 = true ∧ w.getLsbD 2 = true)) :
    w.toNat / 2 % 4 ≠ 3 ∧ w.toNat / 32 % 2 = 1 := by
  simp only [← BitVec.testBit_toNat, Nat.testBit_eq_decide_div_mod_eq, decide_eq_true_eq] at hwb hoobs
  omega

theorem exec_configure_widebus {s : State} (hwb : s.cfg.getLsbD 5 = true)
    (hoobs : ¬ (s.cfg.getLsbD 1 = true ∧ s.cfg.getLsbD 2 = true)) : exec .configure s = .refused .widebusUnmodelled := by
  obtain ⟨hne, hwide⟩ := cfg_bits hwb hoobs
  obtain ⟨c, hr, hc⟩ := exists_cfgRequest hne
  exact configureCommand_widebus hr (hc.mpr hwide)

end Sys2Proof.Machine

open Sys2Proof Sys2Proof.Machine

/-- Settles O5: the oldest access is the write to CMD, and that issues the instruction decoded. -/
theorem stepRunsDecodedCommand : Obligations.StepRunsDecodedCommand := by
  intro s w i rest hf hr hp hd
  rw [step_pending hf hr hp, access_cmd, issue_ok hd]

/-- Settles O6: a step of an unmarked state, with and without an access pending. -/
theorem stepPerformsOldestHostAccess : Obligations.StepPerformsOldestHostAccess :=
  ⟨fun _ _ _ => step_pending, fun _ => step_idle⟩

/-- Settles O7: a state that faults is not refused, so that its mark is what it answers; a refusal's mark is answered first. -/
theorem markedStateIsStuck : Obligations.MarkedStateIsStuck := by
  refine ⟨fun s f h => ?_, fun s r h => ?_⟩
  · have hr : s.refused = none := refused_of_step_fault h
    rw [after_of_fault h]
    exact ⟨rfl, faulted_state_is_stuck hr rfl⟩
  · rw [after_of_refused h]
    exact ⟨rfl, refused_state_is_stuck rfl⟩

/-- Settles O10: the frame of an access that is no command. -/
theorem onlyCommandsChangeStatus : Obligations.OnlyCommandsChangeStatus := by
  intro s t x rest hp h hx
  obtain ⟨-, -, ⟨hidle, -⟩ | ⟨y, rest', hp', hy⟩⟩ := step_next h
  · rw [hidle] at hp
    cases hp
  · obtain ⟨rfl, rfl⟩ := List.cons.inj (hp'.symm.trans hp)
    rw [access_fields_of_not_cmd hx hy]
    exact ⟨rfl, rfl, rfl⟩

/-- Settles O32: the step is CONFIGURE's, which refuses a widebus request; the mark then stays. -/
theorem widebusConfigureIsRefused : Obligations.WidebusConfigureIsRefused := by
  intro s rest hf hr hp hwb hoobs
  have hstep : step s = .refused .widebusUnmodelled := by
    rw [step_pending hf hr hp, access_issueAt rfl]
    exact exec_configure_widebus hwb hoobs
  refine ⟨hstep, after_of_refused hstep, fun hgood => ?_, ?_⟩ <;> rw [after_of_refused hstep] at *
  · cases hgood.2
  · exact (refused_state_is_stuck rfl).2

end

section
/-! SUPPORT. Every command, every access and so every step keeps the invariant. -/

namespace Sys2Proof.Machine

open Gf

/-! ## Commands -/

theorem inv_gfMulCommand {s : State} (h : s.Inv) (fld : Fld) : (gfMulCommand Config.params fld s).Inv := by
  rcases gfMulCommand_cases Config.params fld s with ⟨o, -⟩ | ⟨o, -⟩ <;> rw [o]
  · exact inv_respond h _
  · exact inv_gfResult h fld _ (gfMul_lt (Config.params_wf.primitive fld) _ _)

theorem inv_gfDivCommand {s : State} (h : s.Inv) (fld : Fld) : (gfDivCommand Config.params fld s).Inv := by
  rcases gfDivCommand_cases Config.params fld s with ⟨o, -⟩ | ⟨o, -⟩ | ⟨o, -⟩ <;> rw [o]
  · exact inv_respond h _
  · exact inv_respond h _
  · exact inv_gfResult h fld _ (gfDiv_lt (Config.params_wf.primitive fld) _ _)

theorem inv_gfPowCommand {s : State} (h : s.Inv) (fld : Fld) : (gfPowCommand Config.params fld s).Inv := by
  rcases gfPowCommand_cases Config.params fld s with ⟨o, -⟩ | ⟨o, -⟩ <;> rw [o]
  · exact inv_respond h _
  · exact inv_gfResult h fld _ (gfPow_lt (Config.params_wf.primitive fld) _ _)

/-- The configuration a command works under is latched, and supported. -/
theorem State.InvOf.page {P : Params} {s : State} (h : s.InvOf P) {c : Cfg} (hp : s.page? = some c) :
    s.pagecfg = some c ∧ P.supported c = true := by
  obtain ⟨-, hcfg⟩ := page?_eq_some.mp hp
  exact ⟨hcfg, h.page_supported c hcfg⟩

theorem inv_encFrame {e : Ecc} {i : Nat} {s t : State} (h : s.Inv) (ht : encFrame Config.params e i s = .next t) :
    t.Inv := by
  rcases encFrame_cases Config.params e i s with ⟨-, o⟩ | ⟨c, hp, ⟨-, o⟩ | ⟨-, -, o⟩ | ⟨-, -, -, o⟩ |
    ⟨-, -, -, -, o⟩ | ⟨he, hi, -, blk, -, o⟩⟩ <;> rw [o] at ht <;> cases ht
  · exact inv_respond h _
  · exact inv_respond h _
  · exact inv_respond h _
  · exact inv_respond h _
  · obtain ⟨hcfg, hc⟩ := h.page hp
    rw [encStore_eq Config.params_wf hc he]
    have hlen : (Config.params.encode e blk).length = (Config.params.geom c).p :=
      he ▸ Config.params_wf.encode_length_page hc blk
    exact inv_respond (inv_parLen (inv_storeParity h hcfg hi hlen) hcfg) _

theorem inv_segmentCommand {s : State} (h : s.Inv) : (segmentCommand Config.params s).Inv := by
  cases hp : s.page? with
  | none =>
    rw [segmentCommand_none hp]
    exact inv_respond h _
  | some c =>
    obtain ⟨hcfg, hc⟩ := h.page hp
    rw [segmentCommand_eq Config.params_wf hp hc]
    exact inv_respond (inv_storeSegments h hcfg) _

theorem inv_respond_invalidate {s : State} (h : s.Inv) {c : Cfg} (hp : s.page? = some c) (r : Response) :
    (respond r (invalidate s)).Inv :=
  inv_respond (inv_invalidate h (by simp [(h.page hp).1])) r

theorem inv_finishPage {s : State} (h : s.Inv) {c : Cfg} (hp : s.page? = some c) (out : List Byte) :
    (finishPage c out s).Inv := by
  by_cases hout : out.length = c.total
  · rw [finishPage_eq hout]
    exact inv_respond (inv_storeData h (h.page hp).1 hout) _
  · rw [finishPage, if_pos hout]
    exact inv_respond_invalidate h hp _

theorem inv_composeCommand {s t : State} (h : s.Inv) (ht : composeCommand Config.params s = .next t) : t.Inv := by
  rcases composeCommand_cases Config.params s with ⟨-, o⟩ | ⟨c, hp, ⟨-, o⟩ | ⟨-, -, o⟩ | ⟨-, -, -, o⟩ |
    ⟨-, -, raw, par, -, -, o⟩⟩ <;> rw [o] at ht <;> cases ht
  · exact inv_respond h _
  · exact inv_respond_invalidate h hp _
  · exact inv_respond_invalidate h hp _
  · exact inv_finishPage h hp _

theorem inv_configureCommand {s t : State} (h : s.Inv) (ht : configureCommand Config.params s = .next t) : t.Inv := by
  rcases configureCommand_cases Config.params s with ⟨-, o⟩ | ⟨c, hr, ⟨-, o⟩ | ⟨-, -, o⟩ | ⟨-, hc, o⟩⟩ <;>
    rw [o] at ht <;> cases ht
  · exact inv_respond (inv_clearPage h) _
  · exact inv_respond (inv_clearPage h) _
  · exact inv_respond (inv_latchPage h hr hc) _

theorem inv_programmedPage {s : State} (h : s.Inv) {c : Cfg} (hcfg : s.pagecfg = some c)
    (hc : Config.params.supported c = true) {raw : List Byte} (hraw : raw.length = c.page) :
    (programmedPage Config.params c raw s).Inv := by
  have hloop := inv_storeAll (inv_storeSegments h hcfg) hcfg raw (Config.params.geom c).n le_rfl
  have hcfg' : (storeAll Config.params c raw (List.range (Config.params.geom c).n)
      (storeSegments (Config.params.geom c) s)).pagecfg = some c := by
    rw [storeAll_fields]
    exact hcfg
  have hlen := compose_pageParities_length Config.params_wf hc hraw
  exact inv_respond (inv_storeData (inv_parLen hloop hcfg') hcfg' hlen) _

theorem inv_programCommand {s t : State} (h : s.Inv) (ht : programCommand Config.params s = .next t) : t.Inv := by
  rcases programCommand_cases Config.params s with ⟨-, o⟩ | ⟨c, hp, ⟨-, o⟩ | ⟨-, -, o⟩ | ⟨hlen, raw, hraw, -⟩⟩
  · rw [o] at ht; cases ht
    exact inv_respond h _
  · rw [o] at ht; cases ht
    exact inv_respond_invalidate h hp _
  · rw [o] at ht; cases ht
  · obtain ⟨hcfg, hc⟩ := h.page hp
    rw [programCommand_programmedPage Config.params_wf hc hp hlen hraw] at ht
    cases ht
    exact inv_programmedPage h hcfg hc (Memory.getRange_length hraw)

theorem inv_exec {i : Instr} {s t : State} (h : s.Inv) (ht : exec i s = .next t) : t.Inv := by
  cases i with
  | gfMul fld => cases ht; exact inv_gfMulCommand h fld
  | gfDiv fld => cases ht; exact inv_gfDivCommand h fld
  | gfPow fld => cases ht; exact inv_gfPowCommand h fld
  | rsEnc slot => exact inv_encFrame h ht
  | rsSblEnc slot => exact inv_encFrame h ht
  | bch4Enc slot => exact inv_encFrame h ht
  | bch8Enc slot => exact inv_encFrame h ht
  | segment => cases ht; exact inv_segmentCommand h
  | compose => exact inv_composeCommand h ht
  | configure => exact inv_configureCommand h ht
  | program => exact inv_programCommand h ht

/-! ## Accesses -/

theorem inv_issue {w : Word} {s t : State} (h : s.Inv) (ht : issue w s = .next t) : t.Inv := by
  cases hd : decodeWord w with
  | ok i =>
    rw [issue_ok hd] at ht
    exact inv_exec h ht
  | error e =>
    rw [issue_error hd] at ht
    cases ht
    exact inv_respond h _

/-- A value written to CFG has its reserved bits dropped (R36); no other writable register is in the invariant. -/
theorem inv_writeReg {s : State} (h : s.Inv) (r : Reg) (v : Word) : (writeReg r v s).Inv := by
  refine inv_congr h (writeReg_mem s r v) ?_ (writeReg_phase s r v) (writeReg_pagecfg s r v) (by simp)
    (writeReg_dataLen s r v) (writeReg_parValid s r v) (writeReg_parLen s r v) (by simp) ?_
  · cases r with
    | cfg => simp only [writeReg, BitVec.and_assoc, BitVec.and_self]
    | _ => exact h.cfg_legal
  · rw [writeReg_res]
    exact h.res_elem

theorem inv_access {x : HostAccess} {s t : State} (h : s.Inv) (ht : access x s = .next t) : t.Inv := by
  cases x with
  | read a n =>
    obtain ⟨v, -, rfl⟩ := access_read_next ht
    exact inv_congr h rfl h.cfg_legal rfl rfl ⟨rfl, rfl, rfl, rfl, rfl⟩ rfl rfl rfl ⟨rfl, rfl⟩ h.res_elem
  | write a n v =>
    replace ht : busWrite a.toNat n v s = .next t := ht
    rcases busWrite_cases a.toNat n v s with ⟨-, o⟩ | ⟨-, -, o⟩ | ⟨r, -, -, -, -, o⟩ | ⟨-, -, hlow, hhigh, o⟩ | ⟨-, -, -, o⟩ <;>
      rw [o] at ht
    · cases ht
    · exact inv_issue h ht
    · cases ht; exact inv_writeReg h r v
    · cases ht; exact inv_write h _ hlow (by rw [leBytes_length]; exact hhigh)
    · cases ht; exact h

/-- The accesses still to be performed are no part of the invariant. -/
theorem inv_pending {s : State} (h : s.Inv) (xs : List HostAccess) : State.Inv { s with pending := xs } :=
  inv_congr h rfl h.cfg_legal rfl rfl ⟨rfl, rfl, rfl, rfl, rfl⟩ rfl rfl rfl ⟨rfl, rfl⟩ h.res_elem

theorem inv_step {s t : State} (h : s.Inv) (ht : step s = .next t) : t.Inv := by
  obtain ⟨-, -, ⟨-, rfl⟩ | ⟨x, rest, -, hx⟩⟩ := step_next ht
  · exact h
  · exact inv_access (inv_pending h rest) hx

/-! ## Reset -/

theorem get?_reset (a : Nat) : State.reset.mem.get? a = none := rfl

/-- After reset nothing is listed, latched or valid, and RES is 0, an element of every field. -/
theorem inv_reset : State.reset.Inv where
  mem_wf := rfl
  mem_place := by simp [State.reset]
  cfg_legal := rfl
  page_phase := iff_of_true rfl rfl
  page_supported := by simp [State.reset]
  shows := ⟨rfl, rfl, rfl, rfl, rfl⟩
  data_len := rfl
  data_defined k _ := iff_of_false (by simp [get?_reset]) (Nat.not_lt_zero k)
  slot_lt i hi := by simp [slotValid_reset] at hi
  par_defined i k _ _ := iff_of_false (by simp [get?_reset]) (by simp [slotValid_reset])
  par_len := .inl rfl
  segs := .inl ⟨rfl, rfl⟩
  res_elem := ⟨.rs, by decide⟩

end Sys2Proof.Machine

open Sys2Proof Sys2Proof.Machine

/-- Settles O51: `inv_reset`. -/
theorem resetMeetsTheInvariant : Obligations.ResetMeetsTheInvariant :=
  inv_reset

/-- Settles O52: a step idles or performs an access, and every access keeps the invariant: a command by `inv_exec`, a register
write by `inv_writeReg`, a write to RAW or ENC_IN by `inv_write`. -/
theorem stepKeepsTheInvariant : Obligations.StepKeepsTheInvariant :=
  fun _ _ => inv_step

end

section
/-! SUPPORT. Error responses (R241 to R244): what a failed command leaves, which responses a well-formed record rules out, and
that a failed command issued again at once fails as before. -/

namespace Sys2Proof.Machine

/-! ## What a failed command leaves -/

theorem WritesResAndResponse.error_eq {s t : State} (h : WritesResAndResponse s (.next t)) (hfail : t.resp ≠ .ok) :
    t = respond t.resp s := by
  obtain ⟨v, r, ht, hres⟩ := h
  cases ht
  rw [hres hfail]
  rfl

theorem encStore_error {P : Params} {e : Ecc} {g : Geom} {i : Nat} {blk : List Byte} {s : State}
    (hfail : (encStore P e g i blk s).resp ≠ .ok) : encStore P e g i blk s = respond .parityLength s := by
  by_cases hlen : (P.encode e blk).length = g.p
  · rw [encStore, if_neg (not_not.mpr hlen)] at hfail
    exact absurd rfl hfail
  · exact if_pos hlen

theorem encFrame_error {P : Params} {e : Ecc} {i : Nat} {s t : State} (h : encFrame P e i s = .next t)
    (hfail : t.resp ≠ .ok) : t = respond t.resp s := by
  rcases encFrame_cases P e i s with ⟨-, o⟩ | ⟨c, -, ⟨-, o⟩ | ⟨-, -, o⟩ | ⟨-, -, -, o⟩ | ⟨-, -, -, -, o⟩ |
    ⟨-, -, -, blk, -, o⟩⟩ <;> rw [o] at h <;> cases h
  · rfl
  · rfl
  · rfl
  · rfl
  · rw [encStore_error hfail]
    rfl

theorem segmentCommand_cases (P : Params) (s : State) :
    segmentCommand P s = respond .notConfigured s ∨ segmentCommand P s = respond .segmentation s ∨
      ∃ g, segmentCommand P s = respond .ok (storeSegments g s) := by
  unfold segmentCommand
  split
  · exact .inl rfl
  · split
    · exact .inr (.inr ⟨_, rfl⟩)
    · exact .inr (.inl rfl)

theorem segmentCommand_error {P : Params} {s : State} (hfail : (segmentCommand P s).resp ≠ .ok) :
    segmentCommand P s = respond (segmentCommand P s).resp s := by
  obtain o | o | ⟨g, o⟩ := segmentCommand_cases P s <;> rw [o] at hfail ⊢
  · rfl
  · rfl
  · exact absurd rfl hfail

/-- A failed Galois-field command, encoder command or SEGMENT leaves the state it found but for the response (R244). -/
theorem exec_error {i : Instr} {s t : State} (hconfigure : i ≠ .configure) (hcompose : i ≠ .compose)
    (hprogram : i ≠ .program) (h : exec i s = .next t) (hfail : t.resp ≠ .ok) : t = respond t.resp s := by
  cases i with
  | gfMul fld => exact (h ▸ writesResAndResponse_execGfMul fld s : WritesResAndResponse s (.next t)).error_eq hfail
  | gfDiv fld => exact (h ▸ writesResAndResponse_execGfDiv fld s : WritesResAndResponse s (.next t)).error_eq hfail
  | gfPow fld => exact (h ▸ writesResAndResponse_execGfPow fld s : WritesResAndResponse s (.next t)).error_eq hfail
  | rsEnc slot => exact encFrame_error h hfail
  | rsSblEnc slot => exact encFrame_error h hfail
  | bch4Enc slot => exact encFrame_error h hfail
  | bch8Enc slot => exact encFrame_error h hfail
  | segment => cases h; exact segmentCommand_error hfail
  | compose => exact absurd rfl hcompose
  | configure => exact absurd rfl hconfigure
  | program => exact absurd rfl hprogram

/-- On a supported Page a COMPOSE fails by its length check or by its slot check, and discards DATA (R203). -/
theorem composeCommand_error {P : Params} (hP : P.WF) {s t : State} {c : Cfg} (hc : P.supported c = true)
    (hp : s.page? = some c) (h : composeCommand P s = .next t) (hfail : t.resp ≠ .ok) :
    (s.rawLen.toNat ≠ c.page ∧ t = respond .invalidInput (invalidate s)) ∨
    (s.rawLen.toNat = c.page ∧ slotsValid (P.geom c).n s = false ∧ t = respond .parityMissing (invalidate s)) := by
  by_cases hlen : s.rawLen.toNat = c.page
  swap
  · rw [composeCommand_invalidInput hp hlen] at h
    exact .inl ⟨hlen, (Host.Outcome.next.inj h).symm⟩
  cases hslots : slotsValid (P.geom c).n s with
  | false =>
    rw [composeCommand_parityMissing hp hlen hslots] at h
    exact .inr ⟨hlen, rfl, (Host.Outcome.next.inj h).symm⟩
  | true =>
    rcases composeCommand_cases P s with ⟨hp', -⟩ | ⟨c', hp', ⟨hlen', -⟩ | ⟨-, hslots', -⟩ | ⟨-, -, -, o⟩ |
      ⟨-, -, raw, par, hraw, hpar, -⟩⟩
    · rw [hp] at hp'; cases hp'
    all_goals obtain rfl := Option.some.inj (hp.symm.trans hp')
    · exact absurd hlen hlen'
    · rw [hslots] at hslots'; cases hslots'
    · rw [o] at h; cases h
    · obtain ⟨out, hok, -, -⟩ := composeCommand_ok hP hc hp hlen hslots hraw hpar
      rw [hok] at h
      cases h
      exact absurd rfl hfail

/-! ## The responses a well-formed record leaves (R242) -/

/-- The responses a command cannot give under WF_PARAMS. -/
def IsInternal (r : Response) : Prop := r = .parityLength ∨ r = .segmentation ∨ r = .layoutLength

theorem encFrame_not_internal {e : Ecc} {i : Nat} {s t : State} (hinv : s.Inv) (h : encFrame Config.params e i s = .next t) :
    ¬ IsInternal t.resp := by
  rcases encFrame_cases Config.params e i s with ⟨-, o⟩ | ⟨c, hp, ⟨-, o⟩ | ⟨-, -, o⟩ | ⟨-, -, -, o⟩ | ⟨-, -, -, -, o⟩ |
    ⟨he, -, -, blk, -, o⟩⟩ <;> rw [o] at h <;> cases h
  · simp [IsInternal]
  · simp [IsInternal]
  · simp [IsInternal]
  · simp [IsInternal]
  · rw [encStore_eq Config.params_wf (hinv.page hp).2 he]
    simp [IsInternal]

theorem segmentCommand_not_internal {s : State} (hinv : s.Inv) : ¬ IsInternal (segmentCommand Config.params s).resp := by
  cases hp : s.page? with
  | none => rw [segmentCommand_none hp]; simp [IsInternal]
  | some c => rw [segmentCommand_eq Config.params_wf hp (hinv.page hp).2]; simp [IsInternal]

theorem gfMulCommand_not_internal (P : Params) (fld : Fld) (s : State) : ¬ IsInternal (gfMulCommand P fld s).resp := by
  rcases gfMulCommand_cases P fld s with ⟨o, -⟩ | ⟨o, -⟩ <;> rw [o] <;> simp [IsInternal]

theorem gfDivCommand_not_internal (P : Params) (fld : Fld) (s : State) : ¬ IsInternal (gfDivCommand P fld s).resp := by
  rcases gfDivCommand_cases P fld s with ⟨o, -⟩ | ⟨o, -⟩ | ⟨o, -⟩ <;> rw [o] <;> simp [IsInternal]

theorem gfPowCommand_not_internal (P : Params) (fld : Fld) (s : State) : ¬ IsInternal (gfPowCommand P fld s).resp := by
  rcases gfPowCommand_cases P fld s with ⟨o, -⟩ | ⟨o, -⟩ <;> rw [o] <;> simp [IsInternal]

theorem configureCommand_not_internal {P : Params} {s t : State} (h : configureCommand P s = .next t) :
    ¬ IsInternal t.resp := by
  rcases configureCommand_cases P s with ⟨-, o⟩ | ⟨c, -, ⟨-, o⟩ | ⟨-, -, o⟩ | ⟨-, -, o⟩⟩ <;> rw [o] at h <;> cases h <;>
    simp [IsInternal]

/-- COMPOSE's responses. -/
theorem composeCommand_resp {s t : State} (hinv : s.Inv) (h : composeCommand Config.params s = .next t) :
    t.resp = .ok ∨ t.resp = .notConfigured ∨ t.resp = .invalidInput ∨ t.resp = .parityMissing := by
  by_cases hok : t.resp = .ok
  · exact .inl hok
  cases hp : s.page? with
  | none =>
    rw [composeCommand_notConfigured hp] at h
    cases h
    exact .inr (.inl rfl)
  | some c =>
    obtain ⟨-, rfl⟩ | ⟨-, -, rfl⟩ := composeCommand_error Config.params_wf (hinv.page hp).2 hp h hok
    · exact .inr (.inr (.inl rfl))
    · exact .inr (.inr (.inr rfl))

/-- PROGRAM's responses. -/
theorem programCommand_resp {s t : State} (hinv : s.Inv) (h : programCommand Config.params s = .next t) :
    t.resp = .ok ∨ t.resp = .notConfigured ∨ t.resp = .invalidInput := by
  by_cases hok : t.resp = .ok
  · exact .inl hok
  cases hp : s.page? with
  | none =>
    rw [programCommand_notConfigured hp] at h
    cases h
    exact .inr (.inl rfl)
  | some c =>
    obtain rfl := programCommand_error Config.params_wf (hinv.page hp).2 hp h hok
    exact .inr (.inr rfl)

theorem exec_not_internal {i : Instr} {s t : State} (hinv : s.Inv) (h : exec i s = .next t) : ¬ IsInternal t.resp := by
  cases i with
  | gfMul fld => cases h; exact gfMulCommand_not_internal _ fld s
  | gfDiv fld => cases h; exact gfDivCommand_not_internal _ fld s
  | gfPow fld => cases h; exact gfPowCommand_not_internal _ fld s
  | rsEnc slot => exact encFrame_not_internal hinv h
  | rsSblEnc slot => exact encFrame_not_internal hinv h
  | bch4Enc slot => exact encFrame_not_internal hinv h
  | bch8Enc slot => exact encFrame_not_internal hinv h
  | segment => cases h; exact segmentCommand_not_internal hinv
  | compose => rcases composeCommand_resp hinv h with h | h | h | h <;> simp [IsInternal, h]
  | configure => exact configureCommand_not_internal h
  | program => rcases programCommand_resp hinv h with h | h | h <;> simp [IsInternal, h]

/-! ## A failed command issued again (R243) -/

/-- INVALIDATE twice is INVALIDATE once. -/
theorem invalidate_again {s : State} (hm : s.mem.wf = true) (r : Response) :
    respond r (invalidate (respond r (invalidate s))) = respond r (invalidate s) := by
  have hmem : (invalidate (invalidate s)).mem = (invalidate s).mem := by
    refine Memory.ext (Memory.wf_erase (Memory.wf_erase hm _ _) _ _) (Memory.wf_erase hm _ _) fun a => ?_
    rw [invalidate_get? (invalidate s)]
    split
    · rename_i ha
      rw [invalidate_get?, if_pos ha]
    · rfl
  calc respond r (invalidate (respond r (invalidate s)))
      = { respond r (invalidate s) with mem := (invalidate (invalidate s)).mem } := rfl
    _ = respond r (invalidate s) := by rw [hmem]; rfl

theorem page?_respond_invalidate {s : State} {c : Cfg} (h : s.pagecfg = some c) (r : Response) :
    (respond r (invalidate s)).page? = some c := h

/-- CLEAR twice is CLEAR once. -/
theorem clearPage_again {s : State} (hm : s.mem.wf = true) (r : Response) :
    respond r (clearPage (respond r (clearPage s))) = respond r (clearPage s) := by
  have hwf : ∀ u : State, u.mem.wf = true → (clearPage u).mem.wf = true := fun u hu =>
    Memory.wf_erase (Memory.wf_erase hu _ _) _ _
  have hmem : (clearPage (clearPage s)).mem = (clearPage s).mem := by
    refine Memory.ext (hwf _ (hwf _ hm)) (hwf _ hm) fun a => ?_
    rw [clearPage_get? (clearPage s)]
    split
    · rename_i ha
      rw [clearPage_get?, if_pos ha]
    · rfl
  calc respond r (clearPage (respond r (clearPage s)))
      = { respond r (clearPage s) with mem := (clearPage (clearPage s)).mem } := rfl
    _ = respond r (clearPage s) := by rw [hmem]; rfl

theorem configureCommand_again {P : Params} {s t : State} (hm : s.mem.wf = true) (h : configureCommand P s = .next t)
    (hfail : t.resp ≠ .ok) : configureCommand P t = .next t := by
  rcases configureCommand_cases P s with ⟨hr, o⟩ | ⟨c, hr, ⟨-, o⟩ | ⟨hw, hc, o⟩ | ⟨-, -, o⟩⟩ <;> rw [o] at h <;> cases h
  · refine (configureCommand_reservedOobSelect (s := respond _ (clearPage s)) hr).trans ?_
    rw [clearPage_again hm]
  · refine (configureCommand_narrow (s := respond _ (clearPage s)) hr hw).trans ?_
    rw [constructPage_unsupported hc, clearPage_again hm]
  · exact absurd rfl hfail

theorem composeCommand_again {s t : State} (hinv : s.Inv) (h : composeCommand Config.params s = .next t)
    (hfail : t.resp ≠ .ok) : composeCommand Config.params t = .next t := by
  cases hp : s.page? with
  | none =>
    rw [composeCommand_notConfigured hp] at h
    cases h
    rw [composeCommand_respond, composeCommand_notConfigured hp]
  | some c =>
    obtain ⟨hcfg, hc⟩ := hinv.page hp
    obtain ⟨hlen, rfl⟩ | ⟨hlen, hslots, rfl⟩ := composeCommand_error Config.params_wf hc hp h hfail
    · exact (composeCommand_invalidInput (page?_respond_invalidate hcfg _) hlen).trans
        (congrArg _ (invalidate_again hinv.mem_wf _))
    · exact (composeCommand_parityMissing (page?_respond_invalidate hcfg _) hlen hslots).trans
        (congrArg _ (invalidate_again hinv.mem_wf _))

/-- On a supported Page a PROGRAM fails only by its length check (R226). -/
theorem rawLen_of_programCommand_error {P : Params} (hP : P.WF) {s t : State} {c : Cfg} (hc : P.supported c = true)
    (hp : s.page? = some c) (h : programCommand P s = .next t) (hfail : t.resp ≠ .ok) : s.rawLen.toNat ≠ c.page := by
  intro hlen
  cases hraw : rawPage c s with
  | none =>
    rw [programCommand_undefinedRead hp hlen hraw] at h
    cases h
  | some raw =>
    rw [programCommand_programmedPage hP hc hp hlen hraw] at h
    cases h
    exact hfail rfl

theorem programCommand_again {s t : State} (hinv : s.Inv) (h : programCommand Config.params s = .next t)
    (hfail : t.resp ≠ .ok) : programCommand Config.params t = .next t := by
  cases hp : s.page? with
  | none =>
    rw [programCommand_notConfigured hp] at h
    cases h
    rw [programCommand_respond, programCommand_notConfigured hp]
  | some c =>
    obtain ⟨hcfg, hc⟩ := hinv.page hp
    have hlen := rawLen_of_programCommand_error Config.params_wf hc hp h hfail
    obtain rfl := programCommand_error Config.params_wf hc hp h hfail
    exact (programCommand_invalidInput (page?_respond_invalidate hcfg _) hlen).trans
      (congrArg _ (invalidate_again hinv.mem_wf _))

end Sys2Proof.Machine

open Sys2Proof Sys2Proof.Machine

/-- Settles O54: `exec_not_internal`, and the responses of PROGRAM and COMPOSE by their checks. -/
theorem internalErrorsCannotOccur : Obligations.InternalErrorsCannotOccur := by
  intro i s t hinv h
  obtain ⟨hparity, hother⟩ := not_or.mp (exec_not_internal hinv h)
  obtain ⟨hseg, hlayout⟩ := not_or.mp hother
  refine ⟨hparity, hseg, hlayout, ?_, ?_⟩
  · rintro rfl
    exact programCommand_resp hinv h
  · rintro rfl
    exact composeCommand_resp hinv h

/-- Settles O55: a command that left the state it found but for the response finds it again (`exec_respond`); CONFIGURE, COMPOSE
and PROGRAM fail by the same check, and what they clear is clear already. -/
theorem failedCommandFailsAgain : Obligations.FailedCommandFailsAgain := by
  intro i s t hinv h hfail
  by_cases hconfigure : i = .configure
  · subst hconfigure
    exact configureCommand_again hinv.mem_wf h hfail
  by_cases hcompose : i = .compose
  · subst hcompose
    exact composeCommand_again hinv h hfail
  by_cases hprogram : i = .program
  · subst hprogram
    exact programCommand_again hinv h hfail
  calc exec i t = exec i (respond t.resp s) := congrArg (exec i) (exec_error hconfigure hcompose hprogram h hfail)
    _ = exec i s := exec_respond _ s i
    _ = .next t := h

/-- Settles O56: `exec_error`. -/
theorem errorResponsesArePrecise : Obligations.ErrorResponsesArePrecise :=
  fun _ _ _ h hfail hconfigure hcompose hprogram => exec_error hconfigure hcompose hprogram h hfail

end

section
/-! SUPPORT. The laws of the field arithmetic (R114, R115, R117, R118, R120): powers of x as the antilogarithm table, and what RES
shows after a Galois-field command. -/

namespace Sys2Proof.Gf

variable {F : GField}

/-! ## The antilogarithm table (R115) -/

/-- Entry k of the antilogarithm table: x^k modulo the field's polynomial (R115). -/
def alog (F : GField) (k : Nat) : Nat := pmod (2 ^ k) F.p

theorem alog_lt (h : Primitive F.p F.m) (k : Nat) : alog F k < F.size := by
  have := pmod_lt h.p_ne_zero (2 ^ k)
  rwa [h.2.1] at this

theorem toRing_alog (h : Primitive F.p F.m) (k : Nat) : toRing F (alog F k) = toRing F 2 ^ k := by
  rw [alog, toRing_pmod h, toRing_two_pow]

theorem alog_zero (h : Primitive F.p F.m) : alog F 0 = 1 :=
  toRing_injective h (alog_lt h 0) (one_lt_size h) (by rw [toRing_alog h, pow_zero, toRing_one])

/-- The table repeats after 2^m − 1 entries. -/
theorem alog_mod (h : Primitive F.p F.m) (k : Nat) : alog F (k % (F.size - 1)) = alog F k :=
  toRing_injective h (alog_lt h _) (alog_lt h _)
    (by rw [toRing_alog h, toRing_alog h, ← pow_eq_pow_mod k (toRing_two_pow_order h)])

theorem gfMul_alog (h : Primitive F.p F.m) (i j : Nat) :
    gfMul F (alog F i) (alog F j) = alog F ((i + j) % (F.size - 1)) := by
  refine toRing_injective h (gfMul_lt h _ _) (alog_lt h _) ?_
  rw [toRing_gfMul h, alog_mod h, toRing_alog h, toRing_alog h, toRing_alog h, pow_add]

theorem alog_ne_zero (h : Primitive F.p F.m) {k : Nat} (hk : k < F.size - 1) : alog F k ≠ 0 := by
  intro hzero
  have hone : gfMul F (alog F k) (alog F (F.size - 1 - k)) = 1 := by
    rw [gfMul_alog h, Nat.add_sub_cancel' hk.le, Nat.mod_self, alog_zero h]
  rw [hzero, zero_gfMul h] at hone
  cases hone

theorem exists_alog (h : Primitive F.p F.m) {a : Nat} (ha : a < F.size) (h0 : a ≠ 0) :
    ∃ k, k < F.size - 1 ∧ alog F k = a := by
  obtain ⟨k, hk, hak⟩ := exists_two_pow h ha h0
  exact ⟨k, hk, toRing_injective h (alog_lt h k) ha (by rw [toRing_alog h, hak])⟩

/-- The table has no entry twice below 2^m − 1: x has that order. -/
theorem alog_inj (h : Primitive F.p F.m) {i j : Nat} (hi : i < F.size - 1) (hj : j < F.size - 1)
    (hij : alog F i = alog F j) : i = j := by
  have hpow := congrArg (toRing F) hij
  rw [toRing_alog h, toRing_alog h] at hpow
  rw [← orderOf_two h] at hi hj
  exact pow_injOn_Iio_orderOf hi hj hpow

theorem gfDiv_alog (h : Primitive F.p F.m) {i j : Nat} (hi : i < F.size - 1) (hj : j < F.size - 1) :
    gfDiv F (alog F i) (alog F j) = alog F ((i + (F.size - 1) - j) % (F.size - 1)) := by
  refine (eq_gfDiv h (alog_lt h j) (alog_ne_zero h hj) (alog_lt h _) ?_).symm
  rw [gfMul_alog h, Nat.mod_add_mod, Nat.sub_add_cancel (by omega), Nat.add_mod_right, Nat.mod_eq_of_lt hi]

theorem gfPowLoop_alog (h : Primitive F.p F.m) (i n : Nat) :
    gfPowLoop F (alog F i) n = alog F (i * n % (F.size - 1)) := by
  refine toRing_injective h (gfPowLoop_lt h _ _) (alog_lt h _) ?_
  rw [toRing_gfPowLoop h, alog_mod h, toRing_alog h, toRing_alog h, pow_mul]

/-! ## Corner cases of the quotient (R117) -/

theorem gfDiv_zero_left (h : Primitive F.p F.m) {b : Nat} (hb : b < F.size) (h0 : b ≠ 0) : gfDiv F 0 b = 0 :=
  (eq_gfDiv h hb h0 ((Nat.zero_le b).trans_lt hb) (zero_gfMul h b)).symm

theorem gfDiv_one_right (h : Primitive F.p F.m) {a : Nat} (ha : a < F.size) : gfDiv F a 1 = a :=
  (eq_gfDiv h (one_lt_size h) one_ne_zero ha (gfMul_one h ha)).symm

theorem gfDiv_self (h : Primitive F.p F.m) {b : Nat} (hb : b < F.size) (h0 : b ≠ 0) : gfDiv F b b = 1 :=
  (eq_gfDiv h hb h0 (one_lt_size h) (one_gfMul h hb)).symm

theorem gfDiv_one_left (h : Primitive F.p F.m) (b : Nat) : gfDiv F 1 b = gfPowLoop F b (F.size - 2) := by
  rw [gfDiv, one_gfMul h (gfPow_lt h _ _), gfPow_eq_loop h]

/-! ## Corner cases of the power (R120) -/

theorem gfPowLoop_zero_base (h : Primitive F.p F.m) {n : Nat} (hn : n ≠ 0) : gfPowLoop F 0 n = 0 := by
  obtain ⟨k, rfl⟩ := Nat.exists_eq_succ_of_ne_zero hn
  exact gfMul_zero h _

theorem gfPowLoop_one_base (h : Primitive F.p F.m) (n : Nat) : gfPowLoop F 1 n = 1 :=
  toRing_injective h (gfPowLoop_lt h _ _) (one_lt_size h) (by rw [toRing_gfPowLoop h, toRing_one, one_pow])

/-- The exponent of a non-zero base counts modulo 2^m − 1. -/
theorem gfPowLoop_mod (h : Primitive F.p F.m) {a : Nat} (ha : a < F.size) (h0 : a ≠ 0) (n : Nat) :
    gfPowLoop F a (n % (F.size - 1)) = gfPowLoop F a n :=
  toRing_injective h (gfPowLoop_lt h _ _) (gfPowLoop_lt h _ _)
    (by rw [toRing_gfPowLoop h, toRing_gfPowLoop h, ← pow_eq_pow_mod n (toRing_pow_size h ha h0)])

theorem gfPowLoop_size_sub_one (h : Primitive F.p F.m) {a : Nat} (ha : a < F.size) (h0 : a ≠ 0) :
    gfPowLoop F a (F.size - 1) = 1 := by
  rw [← gfPowLoop_mod h ha h0, Nat.mod_self, gfPowLoop]

end Sys2Proof.Gf

namespace Sys2Proof.Machine

open Gf

/-! ## What RES shows -/

section

variable {fld : Fld} {s : State} {a b : Word} {v : Nat}

theorem resultOf_gfMul (ha : a.toNat < (Config.params.field fld).size) (hb : b.toNat < (Config.params.field fld).size)
    (h : gfMul (Config.params.field fld) a.toNat b.toNat = v) :
    resultOf (.gfMul fld) s a b = some (BitVec.ofNat 32 v) := by
  rw [← h, resultOf, exec_gfMul_of_lt (s := { s with opa := a, opb := b }) ha hb]
  rfl

theorem resultOf_gfDiv (ha : a.toNat < (Config.params.field fld).size) (hb : b.toNat < (Config.params.field fld).size)
    (h0 : b.toNat ≠ 0) (h : gfDiv (Config.params.field fld) a.toNat b.toNat = v) :
    resultOf (.gfDiv fld) s a b = some (BitVec.ofNat 32 v) := by
  rw [← h, resultOf, exec_gfDiv_of_lt (s := { s with opa := a, opb := b }) ha hb h0]
  rfl

theorem resultOf_gfPow (ha : a.toNat < (Config.params.field fld).size)
    (h : gfPowLoop (Config.params.field fld) a.toNat b.toNat = v) :
    resultOf (.gfPow fld) s a b = some (BitVec.ofNat 32 v) := by
  rw [← h, resultOf, exec_gfPow_of_lt (s := { s with opa := a, opb := b }) ha]
  rfl

end

theorem toNat_ofNat_element {fld : Fld} {v : Nat} (h : v < (Config.params.field fld).size) :
    (BitVec.ofNat 32 v).toNat = v := by
  rw [BitVec.toNat_ofNat, Nat.mod_eq_of_lt (lt_two_pow_32_of_lt_size h)]

theorem toNat_ne_zero {b : Word} (h : b ≠ 0) : b.toNat ≠ 0 := fun h0 => h (BitVec.eq_of_toNat_eq h0)

/-- The value a product leaves in RES is an operand in range again. -/
theorem exists_product {fld : Fld} (s : State) {a b : Word} (ha : a.toNat < (Config.params.field fld).size)
    (hb : b.toNat < (Config.params.field fld).size) :
    ∃ v : Word, resultOf (.gfMul fld) s a b = some v ∧ v.toNat = gfMul (Config.params.field fld) a.toNat b.toNat ∧
      v.toNat < (Config.params.field fld).size := by
  have hlt := gfMul_lt (Config.params_wf.primitive fld) a.toNat b.toNat
  exact ⟨_, resultOf_gfMul ha hb rfl, toNat_ofNat_element hlt, (toNat_ofNat_element hlt).trans_lt hlt⟩

/-! Operands that are entries of the table. -/

section

variable {fld : Fld} (s : State) {i j : Nat}

theorem toNat_alog (fld : Fld) (k : Nat) :
    (BitVec.ofNat 32 (alog (Config.params.field fld) k)).toNat = alog (Config.params.field fld) k :=
  toNat_ofNat_element (alog_lt (Config.params_wf.primitive fld) k)

theorem toNat_alog_lt (fld : Fld) (k : Nat) :
    (BitVec.ofNat 32 (alog (Config.params.field fld) k)).toNat < (Config.params.field fld).size :=
  (toNat_alog fld k).trans_lt (alog_lt (Config.params_wf.primitive fld) k)

theorem resultOf_gfMul_alog (i j : Nat) :
    resultOf (.gfMul fld) s (BitVec.ofNat 32 (alog (Config.params.field fld) i))
        (BitVec.ofNat 32 (alog (Config.params.field fld) j)) =
      some (BitVec.ofNat 32 (alog (Config.params.field fld) ((i + j) % ((Config.params.field fld).size - 1)))) :=
  resultOf_gfMul (toNat_alog_lt fld i) (toNat_alog_lt fld j)
    (by rw [toNat_alog, toNat_alog, gfMul_alog (Config.params_wf.primitive fld)])

theorem resultOf_gfDiv_alog (hi : i < (Config.params.field fld).size - 1) (hj : j < (Config.params.field fld).size - 1) :
    resultOf (.gfDiv fld) s (BitVec.ofNat 32 (alog (Config.params.field fld) i))
        (BitVec.ofNat 32 (alog (Config.params.field fld) j)) =
      some (BitVec.ofNat 32 (alog (Config.params.field fld)
        ((i + ((Config.params.field fld).size - 1) - j) % ((Config.params.field fld).size - 1)))) :=
  resultOf_gfDiv (toNat_alog_lt fld i) (toNat_alog_lt fld j)
    ((toNat_alog fld j).trans_ne (alog_ne_zero (Config.params_wf.primitive fld) hj))
    (by rw [toNat_alog, toNat_alog, gfDiv_alog (Config.params_wf.primitive fld) hi hj])

theorem resultOf_gfPow_alog (i : Nat) (n : Word) :
    resultOf (.gfPow fld) s (BitVec.ofNat 32 (alog (Config.params.field fld) i)) n =
      some (BitVec.ofNat 32 (alog (Config.params.field fld) (i * n.toNat % ((Config.params.field fld).size - 1)))) :=
  resultOf_gfPow (toNat_alog_lt fld i) (by rw [toNat_alog, gfPowLoop_alog (Config.params_wf.primitive fld)])

end

/-! ## Two commands in a row (R118) -/

section

variable {fld : Fld} {s : State} {x : Nat} {v : Word}

theorem exec_gfMul_of_opa (hx : s.opa = BitVec.ofNat 32 x) (hlt : x < (Config.params.field fld).size)
    (hb : s.opb.toNat < (Config.params.field fld).size)
    (h : gfMul (Config.params.field fld) x s.opb.toNat = v.toNat) :
    exec (.gfMul fld) s = .next { s with res := v, resp := .ok } := by
  have ha : s.opa.toNat = x := by rw [hx, toNat_ofNat_element hlt]
  rw [exec_gfMul_of_lt (ha.trans_lt hlt) hb, ha, h, BitVec.ofNat_toNat, BitVec.setWidth_eq]

theorem exec_gfDiv_of_opa (hx : s.opa = BitVec.ofNat 32 x) (hlt : x < (Config.params.field fld).size)
    (hb : s.opb.toNat < (Config.params.field fld).size) (h0 : s.opb.toNat ≠ 0)
    (h : gfDiv (Config.params.field fld) x s.opb.toNat = v.toNat) :
    exec (.gfDiv fld) s = .next { s with res := v, resp := .ok } := by
  have ha : s.opa.toNat = x := by rw [hx, toNat_ofNat_element hlt]
  rw [exec_gfDiv_of_lt (ha.trans_lt hlt) hb h0, ha, h, BitVec.ofNat_toNat, BitVec.setWidth_eq]

end

end Sys2Proof.Machine

open Sys2Proof Sys2Proof.Machine Sys2Proof.Gf

/-- Settles O14: the values RES shows are the field products, whose laws are `gfMul_comm`, `gfMul_assoc`, `gfMul_xor` and
`gfMul_eq_zero`. -/
theorem gfMulIsAFieldMultiplication : Obligations.GfMulIsAFieldMultiplication := by
  intro fld s a b c ha hb hc
  have hprim := Config.params_wf.primitive fld
  obtain ⟨ab, hab, hab_eq, hab_lt⟩ := exists_product s ha hb
  obtain ⟨bc, hbc, hbc_eq, hbc_lt⟩ := exists_product s hb hc
  obtain ⟨ac, hac, hac_eq, hac_lt⟩ := exists_product s ha hc
  refine ⟨ab, bc, ac, hab, hbc, hac, ?_, ?_, ?_, ?_, ?_⟩
  · rw [← hab, resultOf_gfMul hb ha (gfMul_comm _ _ _), resultOf_gfMul ha hb rfl]
  · have hassoc : gfMul (Config.params.field fld) ab.toNat c.toNat = gfMul (Config.params.field fld) a.toNat bc.toNat := by
      rw [hab_eq, hbc_eq, gfMul_assoc hprim]
    rw [resultOf_gfMul hab_lt hc hassoc, resultOf_gfMul ha hbc_lt rfl]
  · rw [resultOf_gfMul hab_lt hc rfl, Option.isSome_some]
  · have hxor : (b ^^^ c).toNat < (Config.params.field fld).size := by
      rw [BitVec.toNat_xor]
      exact Nat.xor_lt_two_pow hb hc
    have hvalue : (ab ^^^ ac).toNat = gfMul (Config.params.field fld) a.toNat (b ^^^ c).toNat := by
      rw [BitVec.toNat_xor, BitVec.toNat_xor, gfMul_xor hprim, hab_eq, hac_eq]
    rw [resultOf_gfMul ha hxor hvalue.symm, BitVec.ofNat_toNat, BitVec.setWidth_eq]
  · rw [← BitVec.toNat_inj, ← BitVec.toNat_inj, ← BitVec.toNat_inj, hab_eq]
    exact gfMul_eq_zero hprim ha hb

/-- Settles O15: the table is `alog`; `exists_alog` and `alog_inj` give the logarithm, `gfMul_alog` the sum of exponents. -/
theorem gfMulIsTheLogTableForm : Obligations.GfMulIsTheLogTableForm := by
  intro fld s
  have hprim := Config.params_wf.primitive fld
  refine ⟨fun a h0 ha => ?_, fun i j hi hj => ?_⟩
  · obtain ⟨k, hk, hak⟩ := exists_alog hprim ha h0.ne'
    exact ⟨k, ⟨hk, hak⟩, fun k' hk' hak' => alog_inj hprim hk' hk (hak'.trans hak.symm)⟩
  · exact resultOf_gfMul_alog s i j

/-- Settles O17: each clause is a law of `gfDiv`, shown by RES. -/
theorem gfDivCornerCases : Obligations.GfDivCornerCases := by
  intro fld s a b ha hb hne
  have hprim := Config.params_wf.primitive fld
  have hb0 := toNat_ne_zero hne
  have hzero : (0 : Word).toNat < (Config.params.field fld).size := (Nat.zero_le _).trans_lt ha
  have hone : (1 : Word).toNat < (Config.params.field fld).size := one_lt_size hprim
  refine ⟨resultOf_gfDiv hzero hb hb0 (gfDiv_zero_left hprim hb hb0), ?_,
    resultOf_gfDiv hb hb hb0 (gfDiv_self hprim hb hb0), resultOf_gfDiv hone hb hb0 (gfDiv_one_left hprim _),
    fun i j hi hj => resultOf_gfDiv_alog s hi hj⟩
  rw [resultOf_gfDiv ha hone (by decide) (gfDiv_one_right hprim ha), BitVec.ofNat_toNat, BitVec.setWidth_eq]

/-- Settles O18: the second command takes the first one's result, an element of the field, and undoes it (`gfMul_gfDiv`,
`gfDiv_gfMul`). -/
theorem gfDivAndMulUndoEachOther : Obligations.GfDivAndMulUndoEachOther := by
  intro fld s ha hb hne
  have hprim := Config.params_wf.primitive fld
  have hb0 := toNat_ne_zero hne
  refine ⟨⟨_, exec_gfDiv_of_lt ha hb hb0, ?_⟩, ⟨_, exec_gfMul_of_lt ha hb, ?_⟩⟩
  · exact exec_gfMul_of_opa rfl (gfDiv_lt hprim _ _) hb (gfMul_gfDiv hprim ha hb hb0)
  · exact exec_gfDiv_of_opa rfl (gfMul_lt hprim _ _) hb hb0 (gfDiv_gfMul hprim ha hb hb0)

/-- Settles O20: each clause is a law of `gfPowLoop`, shown by RES. -/
theorem gfPowCornerCases : Obligations.GfPowCornerCases := by
  intro fld s a n ha
  have hprim := Config.params_wf.primitive fld
  have hzero : (0 : Word).toNat < (Config.params.field fld).size := (Nat.zero_le _).trans_lt ha
  have hone : (1 : Word).toNat < (Config.params.field fld).size := one_lt_size hprim
  refine ⟨resultOf_gfPow ha rfl, fun hn => resultOf_gfPow hzero (gfPowLoop_zero_base hprim (toNat_ne_zero hn)),
    resultOf_gfPow hone (gfPowLoop_one_base hprim _), fun hne => ?_, fun i _ => resultOf_gfPow_alog s i n⟩
  have ha0 := toNat_ne_zero hne
  have hexp : ∀ k ≤ (Config.params.field fld).size - 1, (BitVec.ofNat 32 k).toNat = k := fun k hk =>
    toNat_ofNat_element (fld := fld) (hk.trans_lt (Nat.sub_lt hzero one_pos))
  refine ⟨?_, resultOf_gfPow ha ?_, ?_⟩
  · rw [resultOf_gfPow ha rfl, resultOf_gfPow ha]
    rw [hexp _ (Nat.mod_lt _ (Nat.sub_pos_of_lt (one_lt_size hprim))).le, gfPowLoop_mod hprim ha ha0]
  · rw [hexp _ le_rfl, gfPowLoop_size_sub_one hprim ha ha0]
  · rw [resultOf_gfDiv hone ha ha0 (gfDiv_one_left hprim _), resultOf_gfPow ha]
    rw [hexp _ (by omega)]

end

section
/-! SUPPORT. The parity functions as linear maps (R143, R144, R157, R158): division is linear, a codeword made systematic by its
remainder divides without one, and a linear map takes zero, its own double, to zero. -/

namespace Sys2Proof.Gf

/-! ## XOR with oneself and with zero -/

theorem xorBytes_self (s : List Byte) : xorBytes s s = List.replicate s.length 0 := by
  rw [xorBytes, List.zipWith_self]
  simp

theorem xorCoeffs_self (r : List Nat) : xorCoeffs r r = List.replicate r.length 0 := by
  rw [xorCoeffs, List.zipWith_self]
  simp

theorem xorCoeffs_zero_right {r : List Nat} {n : Nat} (h : r.length = n) : xorCoeffs r (List.replicate n 0) = r := by
  apply List.ext_getElem
  · simp [xorCoeffs, h]
  · intro i h1 h2
    simp [xorCoeffs]

theorem xorCoeffs_zero_left {r : List Nat} {n : Nat} (h : r.length = n) : xorCoeffs (List.replicate n 0) r = r := by
  apply List.ext_getElem
  · simp [xorCoeffs, h]
  · intro i h1 h2
    simp [xorCoeffs]

/-! ## Division over GF(2^m) -/

section

variable {F : GField} (hF : Primitive F.p F.m) {g : List Nat} {n : Nat} (hn : 1 ≤ n) (hg : g.length = n + 1)
include hF hn hg

theorem polyMod_xor {cs cs' : List Nat} (h : cs.length = cs'.length) :
    polyMod F g (xorCoeffs cs cs') = xorCoeffs (polyMod F g cs) (polyMod F g cs') := by
  have hlen : (List.replicate n 0).length = n := List.length_replicate
  have hfold := foldl_rsStep_xor hF hn hg cs cs' _ _ h hlen hlen
  rw [xorCoeffs_zero_left hlen] at hfold
  simpa only [polyMod, hg, Nat.add_sub_cancel] using hfold

/-- Leading zero coefficients change no remainder, and n coefficients, n the degree, are their own. -/
theorem polyMod_zeros_append (k : Nat) {t : List Nat} (ht : t.length = n) :
    polyMod F g (List.replicate k 0 ++ t) = t.reverse := by
  have hzeros := polyMod_zero hF hn hg k
  rw [polyMod, hg, Nat.add_sub_cancel] at hzeros ⊢
  rw [List.foldl_append, hzeros, foldl_rsStep_short hF hg t ht.le, ht, Nat.sub_self, List.replicate_zero, List.append_nil]

/-- The coefficients followed by the remainder of their shift by n places divide without remainder (R143). -/
theorem polyMod_systematic (cs : List Nat) :
    polyMod F g (cs ++ (polyMod F g (cs ++ List.replicate n 0)).reverse) = List.replicate n 0 := by
  have hlen := polyMod_length (F := F) hn hg (cs ++ List.replicate n 0)
  have hsplit : cs ++ (polyMod F g (cs ++ List.replicate n 0)).reverse =
      xorCoeffs (cs ++ List.replicate n 0)
        (List.replicate cs.length 0 ++ (polyMod F g (cs ++ List.replicate n 0)).reverse) := by
    rw [xorCoeffs_append List.length_replicate.symm, xorCoeffs_zero_right rfl,
      xorCoeffs_zero_left (by rw [List.length_reverse, hlen])]
  rw [hsplit, polyMod_xor hF hn hg (by simp [hlen]), polyMod_zeros_append hF hn hg _ (by simp [hlen]), List.reverse_reverse,
    xorCoeffs_self, hlen]

end

/-! ## Leading zero bytes (R156) -/

/-- The MSB convention without padding passes the bits through. -/
theorem applyMap_msbMap (t : List Bool) : applyMap (Params.msbMap t.length t.length) t = t := by
  apply List.ext_getElem
  · simp [Params.msbMap]
  · intro i h1 h2
    simp [applyMap, Params.msbMap, h2]

theorem bits_zero_cons (s : List Byte) : bits (0 :: s) = List.replicate 8 false ++ bits s := rfl

end Sys2Proof.Gf

namespace Sys2Proof

open Gf

/-! ## Packing and BCH_PARITY are linear (R143, R157) -/

theorem Params.bchParity_xor (P : Params) {g : Nat} (hg : g ≠ 0) {s s' : List Byte} (hs : s.length = s'.length) :
    P.bchParity g (xorBytes s s') = xorBytes (P.bchParity g s) (P.bchParity g s') := by
  rw [Params.bchParity, Params.bchRemainder, P.bchPoly_xor hs, xor_clmul, pmod_xor hg, Params.bchPack, bitsMSB_xor,
    applyMap_xor _ (by simp [bitsMSB]), bytesOfBits_xor (by simp)]
  rfl

theorem Params.rsPack_xor {P : Params} {r r' : List Nat} (h : r.length = r'.length) :
    P.rsPack (xorCoeffs r r') = xorBytes (P.rsPack r) (P.rsPack r') := by
  have hbits : (r.flatMap (bitsMSB mRS)).length = (r'.flatMap (bitsMSB mRS)).length := by
    simp [List.length_flatMap, bitsMSB_length, h]
  rw [Params.rsPack, flatMap_bitsMSB_xor _ h, applyMap_xor _ hbits, bytesOfBits_xor (by simp)]
  rfl

/-! ## RS_PARITY (R143, R144) -/

namespace Params.WF

variable {P : Params} (h : P.WF)
include h

theorem rsRemainder_xor {s s' : List Byte} (hs : s.length = s'.length) :
    P.rsRemainder (xorBytes s s') = xorCoeffs (P.rsRemainder s) (P.rsRemainder s') := by
  have hsyms : (P.rsSymbols s).length = (P.rsSymbols s').length := by simp [Params.rsSymbols, hs]
  have hshift : P.rsSymbols (xorBytes s s') ++ List.replicate P.nsym 0 =
      xorCoeffs (P.rsSymbols s ++ List.replicate P.nsym 0) (P.rsSymbols s' ++ List.replicate P.nsym 0) := by
    rw [xorCoeffs_append hsyms, xorCoeffs_zero_left List.length_replicate, P.rsSymbols_xor hs]
  rw [Params.rsRemainder, hshift, polyMod_xor h.primRS h.gRS_deg h.gRS_length (by simp [hsyms])]
  rfl

theorem rsRemainder_lt (s : List Byte) : ∀ r ∈ P.rsRemainder s, r < 2 ^ mRS := by
  have hzeros : ∀ n : Nat, ∀ x ∈ List.replicate n 0, x < 2 ^ mRS := fun n x hx => by
    rw [List.eq_of_mem_replicate hx]
    decide
  refine foldl_rsStep_lt h.primRS _ _ (fun x hx => ?_) (hzeros _)
  rcases List.mem_append.mp hx with hx | hx
  · exact P.rsSymbols_lt s x hx
  · exact hzeros _ x hx

theorem rsParity_xor {s s' : List Byte} (hs : s.length = s'.length) :
    P.rsParity (xorBytes s s') = xorBytes (P.rsParity s) (P.rsParity s') := by
  have hrem : (P.rsRemainder s).length = (P.rsRemainder s').length := by
    rw [h.rsRemainder_length, h.rsRemainder_length]
  rw [Params.rsParity, h.rsRemainder_xor hs, xorCoeffs_reverse hrem, Params.rsPack_xor (by simp [hrem])]
  rfl

theorem rsParity_zero (n : Nat) : P.rsParity (List.replicate n 0) = List.replicate (bytesFor (P.nsym * mRS)) 0 := by
  have hdouble := xorBytes_self (List.replicate n 0)
  rw [List.length_replicate] at hdouble
  rw [← hdouble, h.rsParity_xor rfl, xorBytes_self, h.rsParity_length]

/-! ## BCH_PARITY (R157, R158) -/

/-- Each scheme's generator has a positive degree, so it is not zero. -/
theorem gBCH_ne_zero {g : Nat} (hg : g = P.gBCH4 ∨ g = P.gBCH8) : g ≠ 0 := by
  have h4 := h.gBCH4_deg
  have h8 := h.gBCH8_deg
  have hdeg : 1 ≤ deg g := by
    rcases hg with rfl | rfl
    · exact h4
    · omega
  rintro rfl
  exact absurd hdeg (by decide)

theorem bchParity_zero {g : Nat} (hg : g ≠ 0) (n : Nat) :
    P.bchParity g (List.replicate n 0) = List.replicate (bytesFor (deg g)) 0 := by
  have hdouble := xorBytes_self (List.replicate n 0)
  rw [List.length_replicate] at hdouble
  rw [← hdouble, P.bchParity_xor hg rfl, xorBytes_self, h.bchParity_length]

end Params.WF

/-- The codeword with its remainder in place of the shift's zeros is a multiple of the generator (R157). -/
theorem Gf.pmod_xor_pmod {g : Nat} (hg : g ≠ 0) (a : Nat) : pmod (a ^^^ pmod a g) g = 0 := by
  rw [pmod_xor hg, pmod_of_lt hg (pmod_lt hg a), Nat.xor_self]

theorem Params.bchPoly_zero_cons {P : Params} (hmsb : ∀ L, P.unpackBCH L = Params.msbMap (8 * L) (8 * L)) (s : List Byte) :
    P.bchPoly (0 :: s) = P.bchPoly s := by
  have hthrough : ∀ u : List Byte, applyMap (P.unpackBCH u.length) (bits u) = bits u := fun u => by
    rw [hmsb, ← bits_length, applyMap_msbMap]
  rw [Params.bchPoly, Params.bchPoly, hthrough, hthrough, bits_zero_cons, ofBitsMSB_zeros]

end Sys2Proof

open Sys2Proof Sys2Proof.Gf

/-- Settles O23: `polyMod_systematic`, and the lengths and ranges of the remainder. -/
theorem rsCodewordIsMultipleOfGenerator : Obligations.RsCodewordIsMultipleOfGenerator :=
  fun P h s => ⟨h.rsRemainder_length s, h.rsRemainder_lt s,
    polyMod_systematic h.primRS h.gRS_deg h.gRS_length (P.rsSymbols s), rfl, h.rsParity_length s⟩

/-- Settles O24: `rsParity_xor`, and with it `rsParity_zero`. -/
theorem rsParityIsLinear : Obligations.RsParityIsLinear :=
  fun _ h => ⟨fun _ _ => h.rsParity_xor, h.rsParity_zero⟩

/-- Settles O25: the BCH laws of any non-zero generator. -/
theorem bchParityIsLinearAndSystematic : Obligations.BchParityIsLinearAndSystematic := by
  intro P g h hgen
  have hg := h.gBCH_ne_zero hgen
  refine ⟨fun _ _ => P.bchParity_xor hg, h.bchParity_zero hg, fun s => ⟨rfl, pmod_lt hg _, pmod_xor_pmod hg _⟩,
    fun hmsb s => ?_⟩
  rw [Params.bchParity, Params.bchRemainder, Params.bchPoly_zero_cons hmsb]
  rfl

end

section
/-! SUPPORT. SEGMENT (R182, R186): the entries it leaves partition the page, and a second SEGMENT finds what the first one left. -/

namespace Sys2Proof.Machine

/-! ## The entries it leaves -/

theorem segEntry_storeSegments (g : Geom) (s : State) {i : Nat} (hi : i < g.n) (hn : g.n ≤ 16) :
    (respond .ok (storeSegments g s)).segEntry i = ⟨BitVec.ofNat 32 (g.off i), BitVec.ofNat 32 (g.dsz i)⟩ := by
  have hcount : i < (respond .ok (storeSegments g s)).segCount.toNat := by
    simp only [respond_segCount, storeSegments_segCount, BitVec.toNat_ofNat]
    omega
  have hentry := segEntry_eq (respond .ok (storeSegments g s)) ⟨i, hi.trans_le hn⟩
  rw [if_pos hcount] at hentry
  exact hentry.trans ((segTable_getElem g ⟨i, hi.trans_le hn⟩).trans (if_pos hi))

/-- What an entry below N shows as numbers. -/
theorem segEntry_storeSegments_toNat {g : Geom} {c : Cfg} (hg : g.WF c) (s : State) {i : Nat} (hi : i < g.n) :
    ((respond .ok (storeSegments g s)).segEntry i).off.toNat = g.off i ∧
    ((respond .ok (storeSegments g s)).segEntry i).len.toNat = g.dsz i := by
  have hend := hg.off_add_dsz_le_page hi
  have hpage := page_le c
  rw [segEntry_storeSegments g s hi hg.n_le, BitVec.toNat_ofNat, BitVec.toNat_ofNat, Nat.mod_eq_of_lt (by omega),
    Nat.mod_eq_of_lt (by omega)]
  exact ⟨rfl, rfl⟩

/-! ## SEGMENT again -/

/-- SEGMENT looks at the Page only, and keeps it. -/
theorem segmentCommand_segmentCommand (P : Params) (s : State) :
    segmentCommand P (segmentCommand P s) = segmentCommand P s := by
  cases hp : s.page? with
  | none => rw [segmentCommand_none hp, segmentCommand_respond, segmentCommand_none hp]
  | some c =>
    by_cases hseg : (P.geom c).segOk c.page = true
    · have hanswer : ∀ u : State, u.page? = some c → segmentCommand P u = respond .ok (storeSegments (P.geom c) u) :=
        fun u hu => by simp only [segmentCommand, hu, if_pos hseg]
      rw [hanswer s hp]
      exact hanswer (respond .ok (storeSegments (P.geom c) s)) hp
    · have hanswer : ∀ u : State, u.page? = some c → segmentCommand P u = respond .segmentation u :=
        fun u hu => by simp only [segmentCommand, hu, if_neg hseg]
      rw [hanswer s hp]
      exact hanswer (respond .segmentation s) hp

theorem segmentCommand_withRawLen (P : Params) (s : State) (v : Word) :
    segmentCommand P { s with rawLen := v } = { segmentCommand P s with rawLen := v } := by
  have hpage : ({ s with rawLen := v } : State).page? = s.page? := rfl
  unfold segmentCommand
  rw [hpage]
  split
  · rfl
  · split <;> rfl

end Sys2Proof.Machine

open Sys2Proof Sys2Proof.Machine

/-- Settles O27: the entries are the pairs (OFF_i, LEN_i), each OFF the end of the slice before (`Geom.off_succ`), the last slice's
end the page's (`Geom.WF.off_n`). -/
theorem segmentTablePartitionsThePage : Obligations.SegmentTablePartitionsThePage := by
  intro s t c hphase hcfg hc h
  rw [exec_segment_of_page hphase hcfg hc] at h
  cases h
  have hg := Config.params_wf.geom c hc
  have hn := hg.n_pos
  have hn' : (Config.params.geom c).n ≤ 16 := hg.n_le
  have hcount : (respond .ok (storeSegments (Config.params.geom c) s)).segCount.toNat = (Config.params.geom c).n := by
    simp only [respond_segCount, storeSegments_segCount, BitVec.toNat_ofNat]
    omega
  have hentry := fun i => segEntry_storeSegments_toNat hg s (i := i)
  rw [hcount]
  refine ⟨hn, hn', ?_, fun i hi => ?_, fun i hi => ?_, ?_⟩
  · rw [segEntry_storeSegments _ s hn hn', Geom.off_zero]
    rfl
  · rw [(hentry i hi).2]
    exact hg.dsz_pos i
  · rw [(hentry (i + 1) hi).1, (hentry i (by omega)).1, (hentry i (by omega)).2, Geom.off_succ]
  · rw [(hentry _ (by omega)).1, (hentry _ (by omega)).2, ← Geom.off_succ, Nat.sub_add_cancel hn, hg.off_n]

/-- Settles O28: `segmentCommand_segmentCommand`, SEGMENT's frame, and `segmentCommand_withRawLen`. -/
theorem segmentIsIdempotent : Obligations.SegmentIsIdempotent := by
  intro s t h
  obtain rfl : segmentCommand Config.params s = t := Host.Outcome.next.inj h
  have hframe := segmentCommand_fields (P := Config.params) (s := s) rfl
  refine ⟨congrArg Host.Outcome.next (segmentCommand_segmentCommand _ s), by rw [hframe], by rw [hframe], by rw [hframe],
    fun v => congrArg Host.Outcome.next (segmentCommand_withRawLen _ s v)⟩

end

section
/-! SUPPORT. PROGRAM's blocks (R165, R184, R230): a block is determined by its slice of the page, and a block of zeros has the
parity of zeros. -/

namespace Sys2Proof

open Gf

/-! ## Blocks -/

/-- Page images that agree on slice i give the same block i. -/
theorem Geom.block_congr (g : Geom) {i : Nat} {raw raw' : List Byte}
    (h : ∀ k, g.off i ≤ k → k < g.off i + g.dsz i → raw'[k]? = raw[k]?) : g.block i raw' = g.block i raw := by
  have hslice : g.slice i raw' = g.slice i raw := by
    apply List.ext_getElem?
    intro j
    simp only [Geom.slice, List.getElem?_take, List.getElem?_drop]
    split
    · exact h _ (by omega) (by omega)
    · rfl
  rw [Geom.block, Geom.block, hslice]

/-- With a pad of zeros every block of the zero page is zero. -/
theorem Geom.block_zero (g : Geom) {i : Nat} (hpad : ∀ b ∈ g.encpad i, b = 0) (n : Nat) :
    ∃ m, g.block i (List.replicate n 0) = List.replicate m 0 := by
  refine ⟨_, List.eq_replicate_of_mem fun b hb => ?_⟩
  rcases List.mem_append.mp hb with hb | hb
  · exact List.eq_of_mem_replicate (List.mem_of_mem_drop (List.mem_of_mem_take hb))
  · exact hpad b hb

/-- The parity of a zero block is zero in every scheme (R144, R158). -/
theorem Params.WF.encode_zero {P : Params} (h : P.WF) (e : Ecc) (n : Nat) :
    P.encode e (List.replicate n 0) = List.replicate (P.parityBytes e) 0 := by
  cases e
  · exact h.rsParity_zero n
  · exact h.rsParity_zero n
  · exact h.bchParity_zero (h.gBCH_ne_zero (.inl rfl)) n
  · exact h.bchParity_zero (h.gBCH_ne_zero (.inr rfl)) n

theorem eq_zero_of_getElem?_replicate {n k : Nat} {b : Byte} (h : (List.replicate n (0 : Byte))[k]? = some b) : b = 0 :=
  List.eq_of_mem_replicate (List.mem_of_getElem? h)

end Sys2Proof

namespace Sys2Proof.Machine

/-- With pads of zeros, DATA and PAR sources of the zero page stand for zero bytes. -/
theorem byte_zero_page {P : Params} (hP : P.WF) {c : Cfg} (hc : P.supported c = true)
    (hpad : ∀ i, i < (P.geom c).n → ∀ b ∈ (P.geom c).encpad i, b = 0) {n : Nat} {x : LayoutSrc}
    (hx : x ∈ (P.geom c).layout) {b : Byte}
    (hb : x.byte (List.replicate n 0) (pageParities P c (List.replicate n 0)) = some b) :
    ((∃ j, x = .data j) ∨ ∃ i k, x = .par i k) → b = 0 := by
  rintro (⟨j, rfl⟩ | ⟨i, k, rfl⟩)
  · exact eq_zero_of_getElem?_replicate hb
  · obtain ⟨hi, -⟩ := (hP.geom c hc).layout.par_lt hx
    obtain ⟨m, hblock⟩ := (P.geom c).block_zero (hpad i hi) n
    rw [byte_pageParities_par hi, hblock, hP.encode_zero] at hb
    exact eq_zero_of_getElem?_replicate hb

end Sys2Proof.Machine

open Sys2Proof Sys2Proof.Machine

/-- Settles O39: both runs complete, and slot i holds the parity of block i, which slice i determines (`Geom.block_congr`). -/
theorem parityDependsOnItsCodewordOnly : Obligations.ParityDependsOnItsCodewordOnly := by
  intro s s' c i hphase hphase' hcfg hcfg' hc hi hlen hlen' hdef hdef' hsame
  have hP := Config.params_wf
  obtain ⟨raw, hraw⟩ : ∃ raw, rawPage c s = some raw := Memory.exists_getRange hdef
  obtain ⟨raw', hraw'⟩ : ∃ raw, rawPage c s' = some raw := Memory.exists_getRange hdef'
  refine ⟨_, _, programCommand_programmedPage hP hc (page?_eq_some.mpr ⟨hphase, hcfg⟩) hlen hraw,
    programCommand_programmedPage hP hc (page?_eq_some.mpr ⟨hphase', hcfg'⟩) hlen' hraw', fun k hk => ?_⟩
  have hblock : (Config.params.geom c).block i raw' = (Config.params.geom c).block i raw := by
    refine Geom.block_congr _ fun k hlow hhigh => ?_
    have hk := hhigh.trans_le ((hP.geom c hc).off_add_dsz_le_page hi)
    rw [rawPage_getElem? hraw hk, rawPage_getElem? hraw' hk, hsame k hlow hhigh]
  rw [programmedPage_get?_slot hP hc (Memory.getRange_length hraw') s' hi hk,
    programmedPage_get?_slot hP hc (Memory.getRange_length hraw) s hi hk, hblock]

/-- Settles O41: PROGRAM completes, DATA byte p is what LAYOUT[p] stands for, and `byte_zero_page`. -/
theorem zeroPageHasZeroParity : Obligations.ZeroPageHasZeroParity := by
  intro P s c hP hc hpad hphase hcfg hlen hzero
  have hraw : rawPage c s = some (List.replicate c.page 0) :=
    Memory.getRange_eq_some.mpr ⟨List.length_replicate, fun k hk => by rw [hzero k hk]; simp [hk]⟩
  have hrawLen : (List.replicate c.page (0 : Byte)).length = c.page := List.length_replicate
  refine ⟨_, programCommand_programmedPage hP hc (page?_eq_some.mpr ⟨hphase, hcfg⟩) hlen hraw, rfl, ?_, fun p hp => ?_⟩
  · rw [programmedPage_fields hP hc hrawLen]
  · obtain ⟨x, b, hx, hsrc, hget⟩ := programmedPage_get?_layout hP hc hrawLen s hp
    have hb := byte_zero_page hP hc hpad (List.mem_of_getElem? hx) hsrc
    rw [hget, hx]
    cases x with
    | data j => exact congrArg some (hb (.inl ⟨j, rfl⟩))
    | par i k => exact congrArg some (hb (.inr ⟨i, k, rfl⟩))
    | fill => exact hsrc.symm
    | const v => exact hsrc.symm

end

section
/-! SUPPORT. Runs in pieces (R259): what a sequence of host accesses makes of a state, composed from what each access makes
of it. -/

namespace Sys2Proof.Machine

/-- The state with other accesses still to be performed. -/
def withPending (xs : List HostAccess) (s : State) : State := { s with pending := xs }

/-- From an unmarked state s the accesses xs lead to t, unmarked, whatever accesses follow them. -/
def Performs (xs : List HostAccess) (s t : State) : Prop :=
  s.good → t.good ∧ ∀ (rest : List HostAccess) (n : Nat),
    State.run (xs.length + n) (withPending (xs ++ rest) s) = State.run n (withPending rest t)

theorem Performs.append {xs ys : List HostAccess} {s t u : State} (h : Performs xs s t) (h' : Performs ys t u) :
    Performs (xs ++ ys) s u := by
  intro hs
  obtain ⟨ht, hrun⟩ := h hs
  obtain ⟨hu, hrun'⟩ := h' ht
  refine ⟨hu, fun rest n => ?_⟩
  rw [List.length_append, List.append_assoc, Nat.add_assoc, hrun, hrun']

/-- An access that answers a next state whatever accesses follow it. -/
theorem performs_access {x : HostAccess} {s t : State} (ht : s.good → t.good)
    (h : ∀ rest, access x (withPending rest s) = .next (withPending rest t)) : Performs [x] s t := by
  refine fun hs => ⟨ht hs, fun rest n => ?_⟩
  rw [List.length_singleton, Nat.add_comm]
  exact run_step hs.1 hs.2 (h rest) n

theorem performs_issueAt {i : Instr} (hi : i.wellFormed = true) {s t : State} (ht : s.good → t.good)
    (h : ∀ rest, exec i (withPending rest s) = .next (withPending rest t)) : Performs [issueAt i] s t :=
  performs_access ht fun rest => (access_issueAt hi _).trans (h rest)

theorem performs_writeReg {a : Nat} {r : Reg} (ha : regAt a = some r) (hr : r ≠ .cmd) (v : Word) (s : State) :
    Performs [writeAt a 4 v] s (writeReg r v s) := by
  refine performs_access (fun hs => ?_) fun rest => ?_
  · rwa [State.good, writeReg_faulted, writeReg_refused]
  · rw [access_writeReg ha hr]
    cases r <;> rfl

theorem performs_writeBytes {a : Nat} {bs : List Byte} {s : State} (hm : s.mem.wf = true) (ha : 0x1000 ≤ a)
    (hfit : a + bs.length ≤ 0x3400) : Performs (writeBytes a bs) s { s with mem := s.mem.setRange a bs } := by
  refine fun hs => ⟨hs, fun rest n => ?_⟩
  rw [writeBytes_length]
  exact run_writeBytes n rest bs a s hm hs.1 hs.2 ha hfit

theorem Performs.runAccesses {xs : List HostAccess} {s t : State} (h : Performs xs s t) (hs : s.good) :
    s.runAccesses xs = withPending [] t := by
  have hrun := (h hs).2 [] 0
  rw [List.append_nil] at hrun
  exact hrun

end Sys2Proof.Machine

end

section
/-! SUPPORT. The boot order (R273): from reset to the composed page. -/

namespace Sys2Proof.Machine

/-! ## PROGRAM and the accesses that follow -/

theorem storeAll_withPending (P : Params) (c : Cfg) (raw : List Byte) (xs : List HostAccess) (is : List Nat) (s : State) :
    storeAll P c raw is (withPending xs s) = withPending xs (storeAll P c raw is s) := by
  induction is generalizing s with
  | nil => rfl
  | cons i is ih => exact ih (storeParity i (P.encode c.ecc ((P.geom c).block i raw)) s)

theorem programmedPage_withPending (P : Params) (c : Cfg) (raw : List Byte) (xs : List HostAccess) (s : State) :
    programmedPage P c raw (withPending xs s) = withPending xs (programmedPage P c raw s) := by
  have hseg : storeSegments (P.geom c) (withPending xs s) = withPending xs (storeSegments (P.geom c) s) := rfl
  rw [programmedPage, hseg, storeAll_withPending]
  rfl

theorem programmedPage_dataLen {P : Params} (hP : P.WF) {c : Cfg} (hc : P.supported c = true) {raw : List Byte}
    (hraw : raw.length = c.page) (s : State) : (programmedPage P c raw s).dataLen = BitVec.ofNat 32 c.total := by
  rw [programmedPage_fields hP hc hraw]

theorem toNat_ofNat_total (c : Cfg) : (BitVec.ofNat 32 c.total).toNat = c.total := by
  have hle := total_le_dataCap c
  unfold dataCap at hle
  rw [BitVec.toNat_ofNat, Nat.mod_eq_of_lt (by omega)]

/-- STATUS of a Page whose last command completed with DATA composed (R38). -/
theorem statusWord_programmed {t : State} (hresp : t.resp = .ok) (hphase : t.phase = .programmed) : statusWord t = 2 := by
  rw [statusWord, hresp, hphase]
  decide

/-! ## The boot order -/

/-- The state after step 1: the configuration requested. -/
def requestedPage (c : Cfg) : State := { State.reset with cfg := cfgWord c }

/-- The state after step 2: the configuration latched. -/
def configuredPage (c : Cfg) : State := respond .ok (latchPage Config.params c (requestedPage c))

/-- The state after step 3: RAW and RAW_LEN written. -/
def bootedPage (c : Cfg) (raw : List Byte) : State :=
  { configuredPage c with mem := Memory.setRange [] rawBase raw, rawLen := BitVec.ofNat 32 raw.length }

theorem performs_request (c : Cfg) : Performs [writeAt 0x00 4 (cfgWord c)] State.reset (requestedPage c) := by
  have hwrite := performs_writeReg (a := 0x00) (r := .cfg) rfl (by decide) (cfgWord c) State.reset
  rwa [writeReg, cfg_and_mask (cfgRequest_cfgWord c)] at hwrite

section

variable {c : Cfg} (hc : Config.params.supported c = true)
include hc

theorem performs_configure : Performs [issueAt .configure] (requestedPage c) (configuredPage c) := by
  refine performs_issueAt rfl id fun rest => ?_
  refine (configureCommand_narrow (s := withPending rest (requestedPage c)) (cfgRequest_cfgWord c)
    (Config.params_wf.narrow c hc)).trans ?_
  rw [constructPage_supported hc]
  rfl

variable {raw : List Byte} (hraw : raw.length = c.page)
include hraw

theorem performs_program_bootedPage :
    Performs [issueAt .program] (bootedPage c raw) (programmedPage Config.params c raw (bootedPage c raw)) := by
  have hP := Config.params_wf
  refine performs_issueAt rfl (fun hs => ?_) fun rest => ?_
  · rw [programmedPage_fields hP hc hraw]
    exact hs
  · have hread : rawPage c (withPending rest (bootedPage c raw)) = some raw := by
      rw [rawPage, ← hraw]
      exact Memory.getRange_setRange_self [] rawBase raw
    rw [← programmedPage_withPending]
    exact programCommand_programmedPage hP hc rfl (hraw ▸ toNat_ofNat_page c) hread

theorem performs_boot :
    Performs (bootAccesses c raw) State.reset (programmedPage Config.params c raw (bootedPage c raw)) := by
  have hpage := page_le c
  have hbytes : Performs (writeBytes rawBase raw) (configuredPage c)
      { configuredPage c with mem := Memory.setRange [] rawBase raw } :=
    performs_writeBytes rfl (by decide) (by unfold rawBase; omega)
  have hlen : Performs [writeAt 0x18 4 (BitVec.ofNat 32 raw.length)]
      { configuredPage c with mem := Memory.setRange [] rawBase raw } (bootedPage c raw) :=
    performs_writeReg (r := .rawLen) rfl (by decide) _ _
  exact (((performs_request c).append (performs_configure hc)).append hbytes).append
    (hlen.append (performs_program_bootedPage hc hraw))

end

end Sys2Proof.Machine

open Sys2Proof Sys2Proof.Machine

/-- Settles O42: the boot order runs to `programmedPage` (`performs_boot`), whose DATA byte p is what LAYOUT[p] stands for. -/
theorem bootOrderProgramsThePage : Obligations.BootOrderProgramsThePage := by
  intro c hfive raw hraw
  have hP := Config.params_wf
  have hc := hP.five c hfive
  have hboot := performs_boot hc hraw
  refine ⟨_, hboot.runAccesses ⟨rfl, rfl⟩, (hboot ⟨rfl, rfl⟩).1, rfl, rfl, rfl, statusWord_programmed rfl rfl, ?_,
    fun p hp => ?_⟩
  · exact programmedPage_dataLen hP hc hraw (bootedPage c raw)
  · obtain ⟨x, b, hx, hb, hget⟩ := programmedPage_get?_layout hP hc hraw (bootedPage c raw) hp
    refine ⟨b, ?_, by rw [hx]; exact hb⟩
    have hlen : (programmedPage Config.params c raw (bootedPage c raw)).dataLen.toNat = c.total := by
      rw [programmedPage_dataLen hP hc hraw, toNat_ofNat_total]
    exact (readByte_data (hp.trans_le (total_le_dataCap c))).trans ((if_pos ⟨rfl, hlen.symm ▸ hp⟩).trans hget)

end

section
/-! SUPPORT. PROGRAM in stages (R228): the state that SEGMENT, the encoder commands and COMPOSE leave, beside the one PROGRAM
leaves. -/

namespace Sys2Proof.Machine

/-! ## One codeword -/

/-- Block i in ENC_IN and its length in ENC_LEN. -/
def loadBlock (P : Params) (c : Cfg) (raw : List Byte) (i : Nat) (s : State) : State :=
  { s with
    mem := s.mem.setRange encBase ((P.geom c).block i raw)
    encLen := BitVec.ofNat 32 ((P.geom c).blockLen i) }

/-- The state codeword i's accesses lead to: its block loaded, its parity in slot i. -/
def stageCodeword (P : Params) (c : Cfg) (raw : List Byte) (i : Nat) (s : State) : State :=
  respond .ok { storeParity i (P.encode c.ecc ((P.geom c).block i raw)) (loadBlock P c raw i s) with
    parLen := BitVec.ofNat 32 (P.geom c).p }

theorem encoderOf_wellFormed (e : Ecc) {i : Nat} (hi : i < 16) : (encoderOf e i).wellFormed = true := by
  cases e <;> exact decide_eq_true hi

theorem performs_stageCodeword {c : Cfg} (hc : Config.params.supported c = true) {raw : List Byte}
    (hraw : raw.length = c.page) {s : State} (hp : s.page? = some c) (hm : s.mem.wf = true) {i : Nat}
    (hi : i < (Config.params.geom c).n) :
    Performs (stageAccesses Config.params c raw i) s (stageCodeword Config.params c raw i s) := by
  have hP := Config.params_wf
  have hg := hP.geom c hc
  have hslot : i < 16 := hi.trans_le hg.n_le
  have hblock := hg.block_length hi hraw
  have hcap : (Config.params.geom c).blockLen i ≤ 1024 := hg.block_le i hi
  have hbytes := performs_writeBytes (bs := (Config.params.geom c).block i raw) hm (by decide : 0x1000 ≤ encBase)
    (by unfold encBase; omega)
  have hlen := performs_writeReg (a := 0x1C) (r := .encLen) rfl (by decide)
    (BitVec.ofNat 32 ((Config.params.geom c).blockLen i))
    { s with mem := s.mem.setRange encBase ((Config.params.geom c).block i raw) }
  refine hbytes.append (hlen.append (performs_issueAt (s := loadBlock Config.params c raw i s)
    (encoderOf_wellFormed c.ecc hslot) id fun rest => ?_))
  have hread : encBlock ((Config.params.geom c).blockLen i) (withPending rest (loadBlock Config.params c raw i s)) =
      some ((Config.params.geom c).block i raw) := by
    rw [encBlock, ← hblock]
    exact Memory.getRange_setRange_self s.mem encBase _
  have hencLen : (BitVec.ofNat 32 ((Config.params.geom c).blockLen i)).toNat = (Config.params.geom c).blockLen i :=
    (BitVec.toNat_ofNat _ _).trans (Nat.mod_eq_of_lt (by omega))
  rw [exec_encoderOf, encFrame_encStore (s := withPending rest (loadBlock Config.params c raw i s)) hp rfl hi hencLen hread,
    encStore_eq hP hc rfl]
  rfl

/-! ## The codewords in order -/

/-- The state SEGMENT and the accesses of the codewords below n lead to. -/
def stageAll (P : Params) (c : Cfg) (raw : List Byte) : Nat → State → State
  | 0, s => respond .ok (storeSegments (P.geom c) s)
  | n + 1, s => stageCodeword P c raw n (stageAll P c raw n s)

/-- The stages leave what PROGRAM's loop leaves, but for STATUS, PAR_LEN, ENC_LEN and memory. -/
theorem stageAll_fields (P : Params) (c : Cfg) (raw : List Byte) (n : Nat) (s : State) :
    stageAll P c raw n s = { storeAll P c raw (List.range n) (storeSegments (P.geom c) s) with
      resp := .ok
      parLen := if n = 0 then s.parLen else BitVec.ofNat 32 (P.geom c).p
      encLen := (stageAll P c raw n s).encLen
      mem := (stageAll P c raw n s).mem } := by
  induction n with
  | zero => rfl
  | succ n ih =>
    rw [storeAll_succ, stageAll, ih]
    rfl

theorem stageAll_mem_wf (P : Params) (c : Cfg) (raw : List Byte) (n : Nat) {s : State} (hm : s.mem.wf = true) :
    (stageAll P c raw n s).mem.wf = true := by
  induction n with
  | zero => exact hm
  | succ n ih => exact Memory.wf_setRange (Memory.wf_setRange ih _ _) _ _

theorem stageAll_page? (P : Params) (c : Cfg) (raw : List Byte) (n : Nat) (s : State) :
    (stageAll P c raw n s).page? = s.page? := by
  induction n with
  | zero => rfl
  | succ n ih => exact ih

section

variable {P : Params} (hP : P.WF) {c : Cfg} (hc : P.supported c = true) {raw : List Byte} (hraw : raw.length = c.page)
  (s : State)
include hP hc hraw

/-- Outside ENC_IN the stages leave the bytes PROGRAM's loop leaves. -/
theorem stageAll_get? {n : Nat} (hn : n ≤ (P.geom c).n) {a : Nat} (ha : a < encBase ∨ encBase + encCap ≤ a) :
    (stageAll P c raw n s).mem.get? a =
      (storeAll P c raw (List.range n) (storeSegments (P.geom c) s)).mem.get? a := by
  induction n with
  | zero => rfl
  | succ n ih =>
    have hblock := (hP.geom c hc).block_length hn hraw
    have hcap := (hP.geom c hc).block_le n hn
    rw [storeAll_succ, storeParity_get?]
    refine (storeParity_get? _ _ _ _).trans (if_congr Iff.rfl rfl ?_)
    rw [loadBlock, Memory.get?_setRange, if_neg (by omega), ih (Nat.le_of_succ_le hn)]

/-- RAW is not touched (R61). -/
theorem rawPage_stageAll (hread : rawPage c s = some raw) : rawPage c (stageAll P c raw (P.geom c).n s) = some raw := by
  have hpage := page_le c
  refine (Memory.getRange_congr fun k hk => ?_).trans hread
  have hlow : rawBase + k < encBase := by unfold rawBase encBase; omega
  rw [stageAll_get? hP hc hraw s le_rfl (.inl hlow), storeAll_get?_other hP hc]
  · rfl
  · intro i j _ _
    unfold rawBase slotBase parBase
    omega

/-- Slot i holds the parity of block i. -/
theorem getRange_stageAll_slot {i : Nat} (hi : i < (P.geom c).n) :
    (stageAll P c raw (P.geom c).n s).mem.getRange (slotBase i) (P.geom c).p =
      some (P.encode c.ecc ((P.geom c).block i raw)) := by
  refine Memory.getRange_eq_some.mpr ⟨hP.encode_length_page hc _, fun k hk => ?_⟩
  rw [stageAll_get? hP hc hraw s le_rfl (.inr ?_), storeAll_get?_slot hP hc raw _ hi hk]
  unfold slotBase parBase encBase encCap
  omega

end

/-- The parity blocks read from PARBUF, slot by slot (R202). -/
theorem slotParities_eq_map {p n : Nat} {s : State} {q : Nat → List Byte}
    (h : ∀ i, i < n → s.mem.getRange (slotBase i) p = some (q i)) : slotParities p s n = some ((List.range n).map q) := by
  induction n with
  | zero => rfl
  | succ n ih =>
    rw [slotParities, ih fun i hi => h i (Nat.lt_succ_of_lt hi), h n n.lt_succ_self, List.range_succ, List.map_append]
    rfl

theorem stageAll_slotsValid {P : Params} (hP : P.WF) {c : Cfg} (hc : P.supported c = true) (raw : List Byte) (s : State) :
    slotsValid (P.geom c).n (stageAll P c raw (P.geom c).n s) = true := by
  refine slotsValid_eq_true_iff.mpr fun i hi => ?_
  rw [stageAll_fields]
  exact (storeAll_slotValid P c raw _ _ i).mpr (.inl ⟨hi, hi.trans_le (hP.geom c hc).n_le⟩)

/-! ## The staged sequence -/

/-- The state COMPOSE leaves at the end of the stages. -/
def stagedPage (P : Params) (c : Cfg) (raw : List Byte) (s : State) : State :=
  respond .ok (storeData ((P.geom c).compose raw (pageParities P c raw)) (stageAll P c raw (P.geom c).n s))

section

variable {c : Cfg} (hc : Config.params.supported c = true) {raw : List Byte} (hraw : raw.length = c.page) {s : State}
  (hp : s.page? = some c) (hm : s.mem.wf = true)
include hc hraw hp hm

theorem performs_stageAll {n : Nat} (hn : n ≤ (Config.params.geom c).n) :
    Performs (issueAt .segment :: (List.range n).flatMap (stageAccesses Config.params c raw)) s
      (stageAll Config.params c raw n s) := by
  induction n with
  | zero =>
    exact performs_issueAt rfl id fun rest =>
      congrArg Host.Outcome.next (segmentCommand_eq (s := withPending rest s) Config.params_wf hp hc)
  | succ n ih =>
    rw [List.range_succ, List.flatMap_append, ← List.cons_append, List.flatMap_singleton]
    exact (ih (Nat.le_of_succ_le hn)).append
      (performs_stageCodeword hc hraw ((stageAll_page? _ c raw n s).trans hp) (stageAll_mem_wf _ c raw n hm) hn)

theorem performs_stagedProgram (hlen : s.rawLen.toNat = c.page) (hread : rawPage c s = some raw) :
    Performs (stagedProgram Config.params c raw) s (stagedPage Config.params c raw s) := by
  have hP := Config.params_wf
  refine (performs_stageAll hc hraw hp hm le_rfl).append (performs_issueAt rfl id fun rest => ?_)
  have hrawLen : (stageAll Config.params c raw (Config.params.geom c).n s).rawLen = s.rawLen := by
    rw [stageAll_fields, storeAll_fields]
    rfl
  refine (composeCommand_finishPage (s := withPending rest (stageAll Config.params c raw (Config.params.geom c).n s))
    ((stageAll_page? _ c raw _ s).trans hp) (hrawLen ▸ hlen) (stageAll_slotsValid hP hc raw s)
    (rawPage_stageAll hP hc hraw s hread) (slotParities_eq_map fun i => getRange_stageAll_slot hP hc hraw s)).trans ?_
  exact congrArg Host.Outcome.next (finishPage_eq (compose_pageParities_length hP hc hraw) _)

end

/-! ## The two states side by side -/

section

variable {P : Params} (hP : P.WF) {c : Cfg} (hc : P.supported c = true) {raw : List Byte} (hraw : raw.length = c.page)
  (s : State)
include hP hc

theorem programmedPage_eq_stagedPage : programmedPage P c raw s = { stagedPage P c raw s with
    encLen := s.encLen, mem := (programmedPage P c raw s).mem } := by
  have hn : (P.geom c).n ≠ 0 := Nat.one_le_iff_ne_zero.mp (hP.geom c hc).n_pos
  rw [stagedPage, stageAll_fields, if_neg hn, programmedPage, storeAll_fields]
  rfl

include hraw

theorem programmedPage_get?_stagedPage {a : Nat} (ha : a < encBase ∨ encBase + encCap ≤ a) :
    (programmedPage P c raw s).mem.get? a = (stagedPage P c raw s).mem.get? a := by
  have hout := (compose_pageParities_length hP hc hraw).trans_le (total_le_dataCap c)
  refine (storeData_get? _ _ a hout).trans (Eq.trans (if_congr Iff.rfl rfl ?_) (storeData_get? _ _ a hout).symm)
  exact (stageAll_get? hP hc hraw s le_rfl ha).symm

theorem programmedPage_get?_encIn {k : Nat} (hk : k < encCap) :
    (programmedPage P c raw s).mem.get? (encBase + k) = s.mem.get? (encBase + k) := by
  unfold encCap at hk
  refine programmedPage_get?_other hP hc hraw s (.inl ?_) fun i j _ _ => ?_
  · unfold encBase dataBase
    omega
  · unfold encBase slotBase parBase
    omega

end

end Sys2Proof.Machine

open Sys2Proof Sys2Proof.Machine

/-- Settles O40: the staged sequence runs to `stagedPage` (`performs_stagedProgram`), PROGRAM to `programmedPage`, and these differ
in ENC_IN and ENC_LEN only. -/
theorem programEqualsTheStagedSequence : Obligations.ProgramEqualsTheStagedSequence := by
  intro s c raw hinv hgood hphase hcfg hlen hraw hmem
  have hP := Config.params_wf
  have hc := hinv.page_supported c hcfg
  have hp : s.page? = some c := page?_eq_some.mpr ⟨hphase, hcfg⟩
  have hread : rawPage c s = some raw := Memory.getRange_eq_some.mpr ⟨hraw, hmem⟩
  have hstaged := performs_stagedProgram hc hraw hp hinv.mem_wf hlen hread
  refine ⟨_, _, programCommand_programmedPage hP hc hp hlen hread, hstaged.runAccesses hgood, (hstaged hgood).1, ?_,
    fun _ => programmedPage_get?_stagedPage hP hc hraw s, fun _ => programmedPage_get?_encIn hP hc hraw s⟩
  have hpending : (programmedPage Config.params c raw s).pending = s.pending := by
    rw [programmedPage_fields hP hc hraw]
  rw [← hpending]
  exact congrArg (withPending (programmedPage Config.params c raw s).pending) (programmedPage_eq_stagedPage hP hc s)

end
